-- ==== Sys2Proof/Word.lean ====
section
/-! DEFINITION. The words that cross the block's ports and the digit strings of spec/00_scope.md.

Every field of the block is unsigned (R30): there is no signed arithmetic anywhere in this model. -/

namespace Sys2Proof

/-- A command word or a response word: 32 bits, bit 0 least significant (R30, R175). -/
abbrev Word := BitVec 32

/-- A byte value, used as a symbol and as an index into FREQ, LEN and CODE (R3, R41). -/
abbrev Byte := BitVec 8

/-- A digit string in stream order (R31): the head of the list is `c_0`, the first digit sent.
`false` is the digit 0 and `true` the digit 1 (R8). -/
abbrev Digits := List Bool

end Sys2Proof
end

