-- ==== Sys2Proof/Config.lean ====
section
/-! DEFINITION. The parameters of one block (spec/00_scope.md R20) and its fixed constants.

R20 asks a model to take every parameter that is not fixed as an argument. Here they are plain data
(`Params`) that the state carries and no step changes, so that a statement about every state is a
statement about every legal block. The block has no free value: nothing it computes is left open by
the spec (see INVENTORY.md, 'What the manual leaves open'). -/

namespace Sys2Proof

/-- The implementation parameters that R20 leaves open. -/
structure Params where
  /-- `FREQ_W`: the width in bits of every count, of TOTAL and of a node's frequency. -/
  freqW : Nat
  /-- `ENC_Q_DEPTH`: the capacity of ENC_Q in bits. -/
  encQDepth : Nat
  /-- `DEC_Q_DEPTH`: the capacity of DEC_Q in bytes. -/
  decQDepth : Nat
  /-- `RSP_Q_DEPTH`: the capacity of RSP_Q in words. -/
  rspQDepth : Nat
  deriving DecidableEq, Repr

/-- The legal values of R20: `FREQ_W` from 1 to 32, and the depths at or above their minima. -/
abbrev Params.legal (p : Params) : Prop :=
  1 ≤ p.freqW ∧ p.freqW ≤ 32 ∧ 255 ≤ p.encQDepth ∧ 16 ≤ p.decQDepth ∧ 1 ≤ p.rspQDepth

/-- The block that `State.reset` describes: `FREQ_W = 32` is R20's default.
DESIGN CHOICE (log entry 1): R20 gives the depths no value; these are large, as the conventions of
spec/95_test_vectors.md assume ("large enough that no command holds"). -/
def Params.standard : Params :=
  { freqW := 32, encQDepth := 65536, decQDepth := 65536, rspQDepth := 65536 }

/-- `MAX_NODES`: the number of entries of the node memory (R20). -/
def maxNodes : Nat := 511

/-- `MAX_LEN`: the longest possible codeword, in digits (R20). -/
def maxLen : Nat := 255

/-- The identification constant, `HUF1` in ASCII (R2, R55). -/
def idConstant : Word := 0x48554631#32

end Sys2Proof
end

