-- ==== Sys2Proof/Syntax.lean ====
section
/-! DEFINITION. The command set HUF1: one constructor per row of spec/opcode_table.json.

The operands have the exact widths of spec/30_encoding.md R185, so a term of this type is always a
command that some word encodes. -/

namespace Sys2Proof

/-- One command of the block (R195). -/
inductive Instr where
  /-- `NOP` (R420). -/
  | nop
  /-- `CLEAR` (R422). -/
  | clear
  /-- `BUILD` (R262). -/
  | build
  /-- `WALK` (R300). -/
  | walk
  /-- `DECEND` (R370). -/
  | decend
  /-- `WRCFG lax` (R426). -/
  | wrcfg (lax : Bool)
  /-- `RDREG reg` (R430). -/
  | rdreg (reg : BitVec 4)
  /-- `COUNT sym` (R232). -/
  | count (sym : Byte)
  /-- `ENCODE sym` (R332). -/
  | encode (sym : Byte)
  /-- `DECODE`, `cnt` being the number of digits carried minus one (R181, R360). -/
  | decode (cnt : BitVec 4) (data : BitVec 16)
  /-- `LDLEN sym, len` (R392). -/
  | ldlen (sym : Byte) (len : BitVec 8)
  /-- `LDCHUNK sym, chunk, data` (R394). -/
  | ldchunk (sym : Byte) (chunk : BitVec 4) (data : BitVec 16)
  /-- `RDLEN sym` (R400). -/
  | rdlen (sym : Byte)
  /-- `RDCHUNK sym, chunk` (R402). -/
  | rdchunk (sym : Byte) (chunk : BitVec 4)
  /-- `RDFREQ sym` (R240). -/
  | rdfreq (sym : Byte)
  /-- `RDNODE idx, ws` (R280): `ws` selects the link word. -/
  | rdnode (idx : BitVec 9) (ws : Bool)
  deriving DecidableEq, Repr

end Sys2Proof
end

