-- ==== Sys2Proof/WellFormed.lean ====
section
/-! DEFINITION. The operand forms of assembly lines (spec/30_encoding.md R211 to R216) and their
well-formedness.

A command of `Instr` carries its fields at their exact widths, so no ill-formed `Instr` exists. What
can be ill-formed is an assembly line, whose operands are numbers and digit strings of any size:
"An operand out of its field's range (rule R185) is an assembly error." `AsmLine.wellFormed` is that
check, and `assemble` (Machine/Assembler.lean) expands no line that fails it. -/

namespace Sys2Proof

/-- One assembly line after its text is read: the operand forms of R211, then the pseudo-instructions
of R212 to R216. -/
inductive AsmLine where
  | nop
  | clear
  | build
  | walk
  | decend
  | wrcfg (lax : Nat)
  | rdreg (reg : Nat)
  | count (sym : Nat)
  | encode (sym : Nat)
  /-- `DECODE "b0…b(n−1)"`. -/
  | decodeDigits (digits : Digits)
  /-- `DECODE n, data`, the raw form. -/
  | decodeRaw (n data : Nat)
  | ldlen (sym len : Nat)
  | ldchunk (sym chunk data : Nat)
  | rdlen (sym : Nat)
  | rdchunk (sym chunk : Nat)
  | rdfreq (sym : Nat)
  | rdnode (idx ws : Nat)
  /-- `COUNTSTR "text"` (R212), the text as bytes. -/
  | countStr (text : List Byte)
  /-- `ENCSTR "text"` (R212). -/
  | encStr (text : List Byte)
  /-- `DECSTR "c"` (R213). -/
  | decStr (digits : Digits)
  /-- `LDCODE sym, "c"` (R214). -/
  | ldCode (sym : Nat) (digits : Digits)
  /-- `RDCODE sym` (R215). -/
  | rdCode (sym : Nat)
  /-- `SYNC` (R216). -/
  | sync
  deriving DecidableEq, Repr

/-- Every operand is in its field's range (R185, R211); a `DECODE` string has 1 to 16 digits (R211);
an `LDCODE` codeword has 1 to 255 digits (R214). -/
def AsmLine.wellFormed : AsmLine → Bool
  | .nop => true
  | .clear => true
  | .build => true
  | .walk => true
  | .decend => true
  | .wrcfg lax => decide (lax < 2)
  | .rdreg reg => decide (reg < 16)
  | .count sym => decide (sym < 256)
  | .encode sym => decide (sym < 256)
  | .decodeDigits digits => decide (1 ≤ digits.length ∧ digits.length ≤ 16)
  | .decodeRaw n data => decide (1 ≤ n ∧ n ≤ 16 ∧ data < 65536)
  | .ldlen sym len => decide (sym < 256 ∧ len < 256)
  | .ldchunk sym chunk data => decide (sym < 256 ∧ chunk < 16 ∧ data < 65536)
  | .rdlen sym => decide (sym < 256)
  | .rdchunk sym chunk => decide (sym < 256 ∧ chunk < 16)
  | .rdfreq sym => decide (sym < 256)
  | .rdnode idx ws => decide (idx < 512 ∧ ws < 2)
  | .countStr _ => true
  | .encStr _ => true
  | .decStr _ => true
  | .ldCode sym digits => decide (sym < 256 ∧ 1 ≤ digits.length ∧ digits.length ≤ 255)
  | .rdCode sym => decide (sym < 256)
  | .sync => true

end Sys2Proof
end

