-- ==== Sys2Proof/Decode.lean ====
section
/-! DEFINITION. Decoding and encoding command words (spec/30_encoding.md, sections 2 to 5).

`decode` is total: every 32-bit word is a command or is rejected by name. A rejected word raises
ILLEGAL (R196 to R198). `encode` is written from the pattern column of R195. -/

namespace Sys2Proof

/-! ### Field extraction (R185) -/

/-- `op = w[31:28]`. -/
def fieldOp (w : Word) : BitVec 4 := w.extractLsb' 28 4

/-- `func = w[27:24]`. -/
def fieldFunc (w : Word) : BitVec 4 := w.extractLsb' 24 4

/-- `sym = w[27:20]`. -/
def fieldSym (w : Word) : Byte := w.extractLsb' 20 8

/-- `len = w[7:0]`. -/
def fieldLen (w : Word) : BitVec 8 := w.extractLsb' 0 8

/-- `chunk = w[19:16]`. -/
def fieldChunk (w : Word) : BitVec 4 := w.extractLsb' 16 4

/-- `data = w[15:0]`. -/
def fieldData (w : Word) : BitVec 16 := w.extractLsb' 0 16

/-- `cnt = w[19:16]`, the same bits as `chunk` in another format. -/
def fieldCnt (w : Word) : BitVec 4 := w.extractLsb' 16 4

/-- `reg = w[3:0]`. -/
def fieldReg (w : Word) : BitVec 4 := w.extractLsb' 0 4

/-- `lax = w[0]`. -/
def fieldLax (w : Word) : Bool := w.getLsbD 0

/-- `idx = w[8:0]`. -/
def fieldIdx (w : Word) : BitVec 9 := w.extractLsb' 0 9

/-- `ws = w[9]`. -/
def fieldWs (w : Word) : Bool := w.getLsbD 9

/-! ### The encoding table (R195) -/

/-- One row of R195: a word `w` belongs to the row when `w AND mask = pattern`. -/
structure EncodingRow where
  mnemonic : String
  pattern : Word
  mask : Word
  deriving DecidableEq, Repr

def rowNop : EncodingRow := ⟨"NOP", 0x00000000#32, 0xFFFFFFFF#32⟩
def rowClear : EncodingRow := ⟨"CLEAR", 0x01000000#32, 0xFFFFFFFF#32⟩
def rowBuild : EncodingRow := ⟨"BUILD", 0x02000000#32, 0xFFFFFFFF#32⟩
def rowWalk : EncodingRow := ⟨"WALK", 0x03000000#32, 0xFFFFFFFF#32⟩
def rowDecend : EncodingRow := ⟨"DECEND", 0x04000000#32, 0xFFFFFFFF#32⟩
def rowWrcfg : EncodingRow := ⟨"WRCFG", 0x05000000#32, 0xFFFFFFFE#32⟩
def rowRdreg : EncodingRow := ⟨"RDREG", 0x06000000#32, 0xFFFFFFF0#32⟩
def rowCount : EncodingRow := ⟨"COUNT", 0x10000000#32, 0xF00FFFFF#32⟩
def rowEncode : EncodingRow := ⟨"ENCODE", 0x20000000#32, 0xF00FFFFF#32⟩
def rowDecode : EncodingRow := ⟨"DECODE", 0x30000000#32, 0xFFF00000#32⟩
def rowLdlen : EncodingRow := ⟨"LDLEN", 0x40000000#32, 0xF00FFF00#32⟩
def rowLdchunk : EncodingRow := ⟨"LDCHUNK", 0x50000000#32, 0xF0000000#32⟩
def rowRdlen : EncodingRow := ⟨"RDLEN", 0x60000000#32, 0xF00FFFFF#32⟩
def rowRdchunk : EncodingRow := ⟨"RDCHUNK", 0x70000000#32, 0xF000FFFF#32⟩
def rowRdfreq : EncodingRow := ⟨"RDFREQ", 0x80000000#32, 0xF00FFFFF#32⟩
def rowRdnode : EncodingRow := ⟨"RDNODE", 0x90000000#32, 0xFFFFFC00#32⟩

/-- The sixteen rows of R195, in the spec's order. -/
def encodingTable : List EncodingRow :=
  [rowNop, rowClear, rowBuild, rowWalk, rowDecend, rowWrcfg, rowRdreg, rowCount] ++
  [rowEncode, rowDecode, rowLdlen, rowLdchunk, rowRdlen, rowRdchunk, rowRdfreq, rowRdnode]

/-- `(w AND mask) = match`, for one row of R195. -/
def EncodingRow.admits (row : EncodingRow) (w : Word) : Bool := w &&& row.mask == row.pattern

/-- R195: "A command word `w` is legal when, for exactly one row of this table,
`(w AND mask) = match`." -/
def legalWord (w : Word) : Bool := (encodingTable.filter (·.admits w)).length == 1

/-! ### Decoding -/

/-- Why a word is no command; each of the three raises ILLEGAL. -/
inductive Reject where
  /-- R196: opcodes 0xA to 0xF. -/
  | reservedOpcode (op : BitVec 4)
  /-- R197: system functions 0x7 to 0xF. -/
  | reservedFunction (func : BitVec 4)
  /-- R198: a 1 in a reserved bit of the named row. -/
  | reservedBits (mnemonic : String)
  deriving DecidableEq, Repr

/-- What a word decodes as. -/
inductive Decoded where
  | instr (i : Instr)
  | reject (r : Reject)
  deriving DecidableEq, Repr

/-- The command `i` when the row admits the word, else the row's reserved bits are at fault (R198). -/
def EncodingRow.decodeAs (row : EncodingRow) (w : Word) (i : Instr) : Decoded :=
  if row.admits w then .instr i else .reject (.reservedBits row.mnemonic)

/-- The system function map (R191), for `op = 0`. -/
def decodeSystem (w : Word) : Decoded :=
  match (fieldFunc w).toNat with
  | 0 => rowNop.decodeAs w .nop
  | 1 => rowClear.decodeAs w .clear
  | 2 => rowBuild.decodeAs w .build
  | 3 => rowWalk.decodeAs w .walk
  | 4 => rowDecend.decodeAs w .decend
  | 5 => rowWrcfg.decodeAs w (.wrcfg (fieldLax w))
  | 6 => rowRdreg.decodeAs w (.rdreg (fieldReg w))
  | _ => .reject (.reservedFunction (fieldFunc w))

/-- The primary opcode map (R190). -/
def decode (w : Word) : Decoded :=
  match (fieldOp w).toNat with
  | 0 => decodeSystem w
  | 1 => rowCount.decodeAs w (.count (fieldSym w))
  | 2 => rowEncode.decodeAs w (.encode (fieldSym w))
  | 3 => rowDecode.decodeAs w (.decode (fieldCnt w) (fieldData w))
  | 4 => rowLdlen.decodeAs w (.ldlen (fieldSym w) (fieldLen w))
  | 5 => rowLdchunk.decodeAs w (.ldchunk (fieldSym w) (fieldChunk w) (fieldData w))
  | 6 => rowRdlen.decodeAs w (.rdlen (fieldSym w))
  | 7 => rowRdchunk.decodeAs w (.rdchunk (fieldSym w) (fieldChunk w))
  | 8 => rowRdfreq.decodeAs w (.rdfreq (fieldSym w))
  | 9 => rowRdnode.decodeAs w (.rdnode (fieldIdx w) (fieldWs w))
  | _ => .reject (.reservedOpcode (fieldOp w))

/-! ### Encoding (the pattern column of R195, bit 31 first) -/

/-- The one word that encodes a command. Every bit a row's mask leaves open is a field, so a legal
word is recovered whole from the command it decodes to. -/
def encode : Instr → Word
  | .nop => 0x0#4 ++ 0x0#4 ++ 0#24
  | .clear => 0x0#4 ++ 0x1#4 ++ 0#24
  | .build => 0x0#4 ++ 0x2#4 ++ 0#24
  | .walk => 0x0#4 ++ 0x3#4 ++ 0#24
  | .decend => 0x0#4 ++ 0x4#4 ++ 0#24
  | .wrcfg lax => 0x0#4 ++ 0x5#4 ++ 0#23 ++ BitVec.ofBool lax
  | .rdreg reg => 0x0#4 ++ 0x6#4 ++ 0#20 ++ reg
  | .count sym => 0x1#4 ++ sym ++ 0#20
  | .encode sym => 0x2#4 ++ sym ++ 0#20
  | .decode cnt data => 0x3#4 ++ 0#8 ++ cnt ++ data
  | .ldlen sym len => 0x4#4 ++ sym ++ 0#12 ++ len
  | .ldchunk sym chunk data => 0x5#4 ++ sym ++ chunk ++ data
  | .rdlen sym => 0x6#4 ++ sym ++ 0#20
  | .rdchunk sym chunk => 0x7#4 ++ sym ++ chunk ++ 0#16
  | .rdfreq sym => 0x8#4 ++ sym ++ 0#20
  | .rdnode idx ws => 0x9#4 ++ 0#18 ++ BitVec.ofBool ws ++ idx

/-- The word whose low `nbits` bits are those of `w` and whose other bits are 0. Every command is one
32-bit word that crosses its port whole (R125, R175), so the opcode table's bit numbers are the
word's own. -/
def tableWord (nbits w : Nat) : Word := BitVec.ofNat 32 (w % 2 ^ nbits)

/-- The command the decoder reads from an opcode-table row's bits, or none where it rejects them. -/
def decodeTableWord (nbits w : Nat) : Option Instr :=
  match decode (tableWord nbits w) with
  | .instr i => some i
  | .reject _ => none

end Sys2Proof
end

