-- ==== Sys2Proof/Machine/State.lean ====
section
/-! DEFINITION. The state of one block and of the host's side of its ports.

The block's architectural state is that of spec/10_state.md R50, field by field. `held` is the
accepted command that has not retired (R172, R173), and `inReset` says that the block is in reset or
in the clearing after it (R500, R501). The last fields are the model's own: they stand
for the host, the one agent outside the block (R530), as plain data (log entries 2 and 3). -/

namespace Sys2Proof.Machine

/-- `STATUS.PHASE` (R57). Value 3 never occurs, so it has no constructor. -/
inductive Phase where
  /-- 0: counting. -/
  | count
  /-- 1: the tree is built. -/
  | built
  /-- 2: the code table is written. -/
  | coded
  deriving DecidableEq, Repr

/-- The error codes 1 to 7 of R451. Codes 8 to 15 are never raised, so they have no constructor;
code 0, no error, is `none` in `State.err`. -/
inductive ErrCode where
  /-- 1: the word is no command. -/
  | illegal
  /-- 2: COUNT, BUILD or WALK outside its phase. -/
  | sequence
  /-- 3: COUNT when TOTAL is at its greatest value. -/
  | countOverflow
  /-- 4: ENCODE of a symbol without a codeword. -/
  | noCode
  /-- 5: the candidate reaches 255 digits without a match. -/
  | noMatch
  /-- 6: the candidate matches two or more entries. -/
  | ambiguous
  /-- 7: DECEND with a non-empty candidate and `LAX_END = 0`. -/
  | truncated
  deriving DecidableEq, Repr

/-- One entry of the node memory (R83). -/
structure Node where
  /-- A leaf's count, or the sum of an internal node's children. -/
  freq : Nat
  /-- Whether the node is a leaf. -/
  leaf : Bool
  /-- A leaf's symbol; 0 in an internal node. -/
  sym : Byte
  /-- The child reached by digit 0; 0 in a leaf. -/
  left : BitVec 9
  /-- The child reached by digit 1; 0 in a leaf. -/
  right : BitVec 9
  deriving DecidableEq, Repr

/-- What the host can do beside offering commands (R530), and the turn it gives the block. Time is
absent (R540), so an order of these turns is all that a run's timing comes to (log entry 3). -/
inductive HostAct where
  /-- Nothing: the block runs, accepting a command or retrying the one that holds. In reset, this is
  the turn that ends it. -/
  | blockTurn
  /-- `enc_ready` is 1 on one edge. -/
  | popEnc
  /-- `dec_ready` is 1 on one edge. -/
  | popDec
  /-- `rsp_ready` is 1 on one edge. -/
  | popRsp
  /-- `rst_n` is 0 on one edge (R500); listed again, `rst_n` is kept at 0. -/
  | assertReset
  deriving DecidableEq, Repr

/-- The reasons the machine may stop with a fault: there are none. The spec gives every word, legal or
not, an effect in every state (R206), and an error is recorded in the state (R452), so no instruction
raises a fault. The type is empty, which is safe: a step can never be explained away by a stop. -/
inductive Fault where
  deriving DecidableEq, Repr

/-- The reasons an instruction may have no meaning here. -/
inductive Refusal where
  /-- Raised by an arm of `exec` whose instruction has no meaning yet; no arm of this model is one.
  Safe: the machine stops. -/
  | notModelled (mnemonic : String)
  deriving DecidableEq, Repr

/-- The whole state (R50), the command in progress, and the host's side of the ports. -/
structure State where
  /-- The block's parameters (R20), which no step changes. -/
  params : Params
  /-- `FREQ[0..255]` (R80), each `FREQ_W` bits. -/
  freq : Vector Nat 256
  /-- `TOTAL` (R61), `FREQ_W` bits. -/
  total : Nat
  /-- `NDIST` (R62). -/
  ndist : BitVec 9
  /-- `NODE[0 .. NNODES−1]` (R83), in index order. Entries from `NNODES` up are unspecified and never
  observable, and R92 lets a model leave them out (log entry 4). -/
  node : List Node
  /-- `NNODES` (R63). -/
  nnodes : BitVec 10
  /-- `ROOT` (R64). -/
  root : BitVec 9
  /-- `ROOT_VALID`, `STATUS[8]` (R57). -/
  rootValid : Bool
  /-- `LEN[0..255]` (R81). -/
  len : Vector (BitVec 8) 256
  /-- `CODE[0..255]` (R82); bit `j` is digit `c_j`. -/
  code : Vector (BitVec 256) 256
  /-- `CAND` (R84); bit `j` is the candidate's digit `j`. -/
  cand : BitVec 255
  /-- `CANDLEN` (R65). -/
  candLen : BitVec 8
  /-- `PHASE`, `STATUS[1:0]` (R57). -/
  phase : Phase
  /-- `ERR`, `STATUS[7:4]` (R57); `none` is 0. -/
  err : Option ErrCode
  /-- `ERRCMD` (R59). -/
  errCmd : Word
  /-- `ERRINFO[3:0]`, `BITIDX` (R60); the bits above are hardwired 0. -/
  errInfo : BitVec 4
  /-- `CFG[0]`, `LAX_END` (R58); the bits above are hardwired 0. -/
  laxEnd : Bool
  /-- `ENCBITS` (R66). -/
  encBits : Word
  /-- `DECSYMS` (R67). -/
  decSyms : Word
  /-- `ENC_Q` (R86), head first. -/
  encQ : List Bool
  /-- `DEC_Q` (R86), head first. -/
  decQ : List Byte
  /-- `RSP_Q` (R86), head first. -/
  rspQ : List Word
  /-- The accepted command that holds for queue space (R150, R172), if any. -/
  held : Option Word
  /-- The block is in reset: `rst_n` was 0 on the last edge (R500), or the clearing that follows is not
  complete (R501). -/
  inReset : Bool
  /-- The host's: the words it has still to send, the first being the one on `cmd_data`. -/
  cmdIn : List Word
  /-- The host's: what it does next, in order; when empty, every turn is the block's. -/
  hostActs : List HostAct
  /-- The host's: the bits it has popped from ENC_Q, oldest first. -/
  encOut : List Bool
  /-- The host's: the bytes it has popped from DEC_Q, oldest first. -/
  decOut : List Byte
  /-- The host's: the words it has popped from RSP_Q, oldest first. -/
  rspOut : List Word
  deriving DecidableEq, Repr

/-- A block with parameters `p` right after reset (R50's column of reset values, R110), out of reset
and ready for a run (R505), and a host that has sent nothing and popped nothing. -/
def State.resetWith (p : Params) : State where
  params := p
  freq := Vector.replicate 256 0
  total := 0
  ndist := 0#9
  node := []
  nnodes := 0#10
  root := 0#9
  rootValid := false
  len := Vector.replicate 256 0#8
  code := Vector.replicate 256 0#256
  cand := 0#255
  candLen := 0#8
  phase := .count
  err := none
  errCmd := 0#32
  errInfo := 0#4
  laxEnd := false
  encBits := 0#32
  decSyms := 0#32
  encQ := []
  decQ := []
  rspQ := []
  held := none
  inReset := false
  cmdIn := []
  hostActs := []
  encOut := []
  decOut := []
  rspOut := []

/-- The machine right after reset (R110), for the block of `Params.standard`. -/
def State.reset : State := State.resetWith Params.standard

end Sys2Proof.Machine
end

