-- ==== Sys2Proof/Machine/Flags.lean ====
section
/-! DEFINITION. The block's flags: the fields of STATUS and the outputs that mirror them
(spec/10_state.md R57 and R70, spec/60_exceptions.md R451 and R470, spec/30_encoding.md R170 to R173).
The block has no arithmetic condition codes (R70). -/

namespace Sys2Proof.Machine

/-- The value of the PHASE field (R57). -/
def Phase.bits : Phase → BitVec 2
  | .count => 0#2
  | .built => 1#2
  | .coded => 2#2

/-- The value of an error code in the ERR field (R451). -/
def ErrCode.bits : ErrCode → BitVec 4
  | .illegal => 1#4
  | .sequence => 2#4
  | .countOverflow => 3#4
  | .noCode => 4#4
  | .noMatch => 5#4
  | .ambiguous => 6#4
  | .truncated => 7#4

/-- `STATUS.ERR`: 0 when there is no error (R57). -/
def State.errBits (s : State) : BitVec 4 :=
  match s.err with
  | none => 0#4
  | some code => code.bits

/-- The STATUS word: ROOT_VALID at bit 8, ERR at bits 7 to 4, PHASE at bits 1 and 0, the rest 0
(R57, R430). -/
def State.statusWord (s : State) : Word :=
  0#23 ++ BitVec.ofBool s.rootValid ++ s.errBits ++ 0#2 ++ s.phase.bits

/-- R455: the block is halted while `STATUS.ERR ≠ 0`. -/
def State.halted (s : State) : Bool := s.err.isSome

/-- The output `irq_err` (R470): a level equal to `STATUS.ERR ≠ 0`. -/
def State.irqErr (s : State) : Bool := s.errBits != 0#4

/-- The output `busy` between steps (R173): 1 while an accepted command has not retired. A command
that does not hold is accepted and retires within one step (log entry 5). -/
def State.busy (s : State) : Bool := s.held.isSome

/-- The output `cmd_ready` (R172): 1 when the block is out of reset, its clearing complete, and no
accepted command is executing or holding. -/
def State.cmdReady (s : State) : Bool := !s.inReset && s.held.isNone

/-- The input `cmd_valid` (R170): the host offers a word. -/
def State.cmdValid (s : State) : Bool := !s.cmdIn.isEmpty

/-- The outputs `enc_valid` and `enc_bit` (R171): the head of ENC_Q; `none` is `enc_valid = 0`, when
the data line carries no item. -/
def State.encPort (s : State) : Option Bool := s.encQ.head?

/-- The outputs `dec_valid` and `dec_data` (R171). -/
def State.decPort (s : State) : Option Byte := s.decQ.head?

/-- The outputs `rsp_valid` and `rsp_data` (R171). -/
def State.rspPort (s : State) : Option Word := s.rspQ.head?

end Sys2Proof.Machine
end

