-- ==== Sys2Proof/Machine/Ops.lean ====
section
/-! DEFINITION. The operations every command shares: access to the internal arrays (spec/20_memory.md
R120, the whole of the block's memory), the error mechanism (spec/60_exceptions.md), the halt filter
and the hold (spec/30_encoding.md R206), responses, CLEAR and reset, and the host's pops. -/

namespace Sys2Proof.Machine

/-- What a meaning answers. -/
abbrev Result := Host.Outcome State Fault Refusal

/-! ### The symbol-indexed arrays (R120: every index 0 to 255 is legal) -/

/-- `FREQ[b]`. -/
def State.freqOf (s : State) (b : Byte) : Nat := s.freq[b.toNat]'b.isLt

/-- `LEN[b]`. -/
def State.lenOf (s : State) (b : Byte) : BitVec 8 := s.len[b.toNat]'b.isLt

/-- `CODE[b]`. -/
def State.codeOf (s : State) (b : Byte) : BitVec 256 := s.code[b.toNat]'b.isLt

/-- `FREQ[b] <- v`. -/
def State.setFreq (s : State) (b : Byte) (v : Nat) : State :=
  { s with freq := s.freq.set b.toNat v b.isLt }

/-- `LEN[b] <- v`. -/
def State.setLen (s : State) (b : Byte) (v : BitVec 8) : State :=
  { s with len := s.len.set b.toNat v b.isLt }

/-- `CODE[b] <- v`. -/
def State.setCode (s : State) (b : Byte) (v : BitVec 256) : State :=
  { s with code := s.code.set b.toNat v b.isLt }

/-- All symbols in ascending order. -/
def allSymbols : List Byte := (List.range 256).map (BitVec.ofNat 8)

/-- The greatest count a `FREQ_W`-bit number holds, `2^FREQ_W − 1` (R232). -/
def State.maxCount (s : State) : Nat := 2 ^ s.params.freqW - 1

/-! ### Errors: raising one, and the return from the halt -/

/-- `raise Error(code, info)` executed by the word `w` (R452): the first error of a run is recorded,
and the state is otherwise as the command left it. This is the whole of error entry (R472): no vector
is taken and no handler runs. -/
def State.raise (code : ErrCode) (info : BitVec 4) (w : Word) (s : State) : State :=
  if s.err.isNone then { s with err := some code, errCmd := w, errInfo := info } else s

/-- The effect of a word that is no command (R206): ILLEGAL, unless the block is halted. -/
def State.raiseIllegal (w : Word) (s : State) : State := s.raise .illegal 0#4 w

/-- The effect of CLEAR (R422), which is also the one return from the halted state by a command
(R474). CFG, the queues and the constants stay. -/
def State.clearRun (s : State) : State :=
  { s with
    freq := Vector.replicate 256 0, len := Vector.replicate 256 0#8
    code := Vector.replicate 256 0#256
    total := 0, ndist := 0#9
    node := [], nnodes := 0#10, root := 0#9, rootValid := false
    cand := 0#255, candLen := 0#8
    phase := .count
    err := none, errCmd := 0#32, errInfo := 0#4
    encBits := 0#32, decSyms := 0#32 }

/-- One edge with `rst_n = 0` (R500): every piece of the block's state takes its reset value, a command
in progress is abandoned without an error, and the block is in reset. What the host has popped and has
still to send is the host's and stays. -/
def State.applyReset (s : State) : State :=
  { State.resetWith s.params with
    inReset := true
    cmdIn := s.cmdIn, hostActs := s.hostActs
    encOut := s.encOut, decOut := s.decOut, rspOut := s.rspOut }

/-- `rst_n` is 1 again and the clearing of R501 completes: the block is out of reset. No command is
accepted in this turn, since `cmd_ready` was 0 (R172). -/
def State.leaveReset (s : State) : State := { s with inReset := false }

/-! ### The checks every command goes through (R206) -/

/-- The halt filter (R456): a mutating command is discarded while the block is halted. -/
def State.unlessHalted (s : State) (act : State → State) : State :=
  if s.halted then s else act s

/-- `free(ENC_Q)` (R32). -/
def State.encFree (s : State) : Nat := s.params.encQDepth - s.encQ.length

/-- `free(DEC_Q)`. -/
def State.decFree (s : State) : Nat := s.params.decQDepth - s.decQ.length

/-- `free(RSP_Q)`. -/
def State.rspFree (s : State) : Nat := s.params.rspQDepth - s.rspQ.length

/-- The hold rule (R150): the command `w` starts when `need ≤ free`; until then it holds, and the only
change is that it has been accepted. -/
def State.startWhen (s : State) (need free : Nat) (w : Word) (act : State → State) : State :=
  if need ≤ free then act s else { s with held := some w }

/-- `respond(v)` (R32). -/
def State.respond (s : State) (v : Word) : State := { s with rspQ := s.rspQ ++ [v] }

/-- A read command `w` (R138, R205): it holds for one RSP_Q entry, then pushes one word and changes
nothing else. It runs while the block is halted (R457). -/
def State.answer (s : State) (w : Word) (value : State → Word) : State :=
  s.startWhen 1 s.rspFree w fun t => t.respond (value t)

/-! ### The classes of R205 -/

/-- The read commands: they change no state except RSP_Q. -/
def isRead : Instr → Bool
  | .rdreg _ | .rdfreq _ | .rdnode _ _ | .rdlen _ | .rdchunk _ _ => true
  | .nop | .clear | .build | .walk | .decend | .wrcfg _ | .count _ | .encode _ | .decode _ _
  | .ldlen _ _ | .ldchunk _ _ _ => false

/-- The mutating commands: the rest, but for NOP and CLEAR. -/
def isMutating : Instr → Bool
  | .build | .walk | .decend | .wrcfg _ | .count _ | .encode _ | .decode _ _ | .ldlen _ _
  | .ldchunk _ _ _ => true
  | .nop | .clear | .rdreg _ | .rdfreq _ | .rdnode _ _ | .rdlen _ | .rdchunk _ _ => false

/-! ### The host's side (R530) -/

/-- Taking the next command off its place: the command that holds, else the word offered on
`cmd_data` (R171, R172). `none` when there is neither, and the block idles (R492). -/
def State.takeWord (s : State) : Option (Word × State) :=
  match s.held with
  | some w => some (w, { s with held := none })
  | none =>
    match s.cmdIn with
    | [] => none
    | w :: ws => some (w, { s with cmdIn := ws })

/-- The host pops the head bit of ENC_Q; popping an empty queue transfers nothing (R152). -/
def State.popEnc (s : State) : State :=
  match s.encQ with
  | [] => s
  | b :: rest => { s with encQ := rest, encOut := s.encOut ++ [b] }

/-- The host pops the head byte of DEC_Q (R152). -/
def State.popDec (s : State) : State :=
  match s.decQ with
  | [] => s
  | b :: rest => { s with decQ := rest, decOut := s.decOut ++ [b] }

/-- The host pops the head word of RSP_Q (R152). -/
def State.popRsp (s : State) : State :=
  match s.rspQ with
  | [] => s
  | v :: rest => { s with rspQ := rest, rspOut := s.rspOut ++ [v] }

/-- One of the host's own turns; `blockTurn` is left to `step`. -/
def State.hostTurn (s : State) : HostAct → State
  | .blockTurn => s
  | .popEnc => s.popEnc
  | .popDec => s.popDec
  | .popRsp => s.popRsp
  | .assertReset => s.applyReset

end Sys2Proof.Machine
end

