-- ==== Sys2Proof/Machine/Operands.lean ====
section
/-! DEFINITION. The operand forms of the commands: registers by number (spec/10_state.md R54), code
chunks (spec/20_memory.md R128), codewords and stream digits (spec/00_scope.md R31), node words
(spec/41_tree_builder.md R280). -/

namespace Sys2Proof.Machine

/-! ### Registers -/

/-- `REG[9]`: `ROOT_VALID ? zext_32(ROOT) : 0` (R430). -/
def State.rootWord (s : State) : Word := if s.rootValid then s.root.setWidth 32 else 0#32

/-- `REG[r]` (R54, R430): every register zero-extended; numbers 13 to 15 are reserved and read 0
(R68). -/
def State.regWord (s : State) (r : BitVec 4) : Word :=
  match r.toNat with
  | 0 => idConstant
  | 1 => (BitVec.ofNat 6 s.params.freqW).setWidth 32
  | 2 => s.statusWord
  | 3 => (BitVec.ofBool s.laxEnd).setWidth 32
  | 4 => s.errCmd
  | 5 => s.errInfo.setWidth 32
  | 6 => BitVec.ofNat 32 s.total
  | 7 => s.ndist.setWidth 32
  | 8 => s.nnodes.setWidth 32
  | 9 => s.rootWord
  | 10 => s.candLen.setWidth 32
  | 11 => s.encBits
  | 12 => s.decSyms
  | _ => 0#32

/-! ### Digits and codewords -/

/-- The number whose bit `j` is digit `j`. -/
def digitsToNat : Digits → Nat
  | [] => 0
  | d :: ds => d.toNat + 2 * digitsToNat ds

/-- The first `n` bits of a register as a digit string: bit `j` is digit `j` (R82, R84, R181). -/
def digitsOf {width : Nat} (v : BitVec width) (n : Nat) : Digits := (List.range n).map v.getLsbD

/-- Bit `i` of a register set to a digit. -/
def setDigit {width : Nat} (v : BitVec width) (i : Nat) (d : Bool) : BitVec width :=
  (v &&& ~~~(1#width <<< i)) ||| ((BitVec.ofBool d).setWidth width <<< i)

/-- The codeword of `b`, `CODE[b][0] … CODE[b][LEN[b]−1]` (R82, R333). -/
def State.codeword (s : State) (b : Byte) : Digits := digitsOf (s.codeOf b) (s.lenOf b).toNat

/-- The candidate, `CAND[0:CANDLEN)` (R84). -/
def State.candidate (s : State) : Digits := digitsOf s.cand s.candLen.toNat

/-- Chunk `k` of a codeword register, bits `16k+15` to `16k` (R128). -/
def chunkOf (v : BitVec 256) (k : BitVec 4) : BitVec 16 := v.extractLsb' (16 * k.toNat) 16

/-- A codeword register with chunk `k` replaced (R128, R394). -/
def setChunk (v : BitVec 256) (k : BitVec 4) (data : BitVec 16) : BitVec 256 :=
  (v &&& ~~~(0xFFFF#256 <<< (16 * k.toNat))) ||| (data.setWidth 256 <<< (16 * k.toNat))

/-! ### Node words -/

/-- The frequency word, `ws = 0` (R280). -/
def Node.freqWord (n : Node) : Word := BitVec.ofNat 32 n.freq

/-- The link word, `ws = 1` (R280): `sym` at [7:0], `leaf` at [8], `left` at [17:9], `right` at
[26:18], and [31:27] zero. -/
def Node.linkWord (n : Node) : Word :=
  0#5 ++ n.right ++ n.left ++ BitVec.ofBool n.leaf ++ n.sym

/-- The word RDNODE responds with (R280): 0 for an index from `NNODES` up. -/
def State.nodeWord (s : State) (idx : BitVec 9) (ws : Bool) : Word :=
  if s.nnodes.toNat ≤ idx.toNat then 0#32
  else
    match s.node[idx.toNat]? with
    | none => 0#32
    | some n => if ws then n.linkWord else n.freqWord

end Sys2Proof.Machine
end

