-- ==== Sys2Proof/Machine/CodeTable.lean ====
section
/-! DEFINITION. Code-table access: LDLEN, LDCHUNK, RDLEN and RDCHUNK (spec/45_code_table_access.md).
Loaded tables are not validated (R396). -/

namespace Sys2Proof.Machine

/-- `LDLEN sym, len` (R392). -/
def execLdlen (sym : Byte) (len : BitVec 8) (s : State) : Result :=
  .next <| s.unlessHalted fun s => s.setLen sym len

/-- `LDCHUNK sym, chunk, data` (R394). -/
def execLdchunk (sym : Byte) (chunk : BitVec 4) (data : BitVec 16) (s : State) : Result :=
  .next <| s.unlessHalted fun s => s.setCode sym (setChunk (s.codeOf sym) chunk data)

/-- `RDLEN sym` (R400). -/
def execRdlen (sym : Byte) (s : State) : Result :=
  .next <| s.answer (encode (.rdlen sym)) fun s => (s.lenOf sym).setWidth 32

/-- `RDCHUNK sym, chunk` (R402). -/
def execRdchunk (sym : Byte) (chunk : BitVec 4) (s : State) : Result :=
  .next <| s.answer (encode (.rdchunk sym chunk)) fun s => (chunkOf (s.codeOf sym) chunk).setWidth 32

end Sys2Proof.Machine
end

