-- ==== Sys2Proof/Machine/CodeTreeWalker.lean ====
section
/-! DEFINITION. The code tree walker: WALK (spec/42_code_tree_walker.md).

The walk's order is not architectural (R305); this one goes left first. -/

namespace Sys2Proof.Machine

/-- The codewords of the leaves below node `i`, where `path` leads from the root to `i` (R301): digit 0
goes left and digit 1 goes right. The first argument bounds the depth. In the tree that BUILD makes
each child's index is below its parent's (R266), so `maxNodes` never cuts a path short. -/
def walkFrom (nodes : List Node) : Nat → Nat → Digits → List (Byte × Digits)
  | 0, _, _ => []
  | depth + 1, i, path =>
    match nodes[i]? with
    | none => []
    | some n =>
      if n.leaf then [(n.sym, path)]
      else
        walkFrom nodes depth n.left.toNat (path ++ [false]) ++
          walkFrom nodes depth n.right.toNat (path ++ [true])

/-- The codewords of the whole tree: none when it is empty (R302), the one digit 0 when its root is a
leaf (R303), else every leaf's path (R300). -/
def State.treeCodes (s : State) : List (Byte × Digits) :=
  if s.rootValid then
    match s.node[s.root.toNat]? with
    | none => []
    | some n => if n.leaf then [(n.sym, [false])] else walkFrom s.node maxNodes s.root.toNat []
  else []

/-- LEN zeroed, then one length written for each codeword (R300). -/
def lenTable (codes : List (Byte × Digits)) : Vector (BitVec 8) 256 :=
  codes.foldl (fun table bp => table.set bp.1.toNat (BitVec.ofNat 8 bp.2.length) bp.1.isLt)
    (Vector.replicate 256 0#8)

/-- CODE zeroed, then one codeword written for each symbol that has one: bit `j` is digit `j`, and the
bits above the codeword are 0 (R300). -/
def codeTable (codes : List (Byte × Digits)) : Vector (BitVec 256) 256 :=
  codes.foldl (fun table bp => table.set bp.1.toNat (BitVec.ofNat 256 (digitsToNat bp.2)) bp.1.isLt)
    (Vector.replicate 256 0#256)

/-- The effect of WALK in phase BUILT (R300): the whole table is rewritten. -/
def State.writeCodes (s : State) : State :=
  { s with len := lenTable s.treeCodes, code := codeTable s.treeCodes, phase := .coded }

/-- `WALK` (R300). -/
def execWalk (s : State) : Result :=
  .next <| s.unlessHalted fun s =>
    if s.phase ≠ .built then s.raise .sequence 0#4 (encode .walk) else s.writeCodes

end Sys2Proof.Machine
end

