-- ==== Sys2Proof/Machine/Control.lean ====
section
/-! DEFINITION. The control commands: NOP, CLEAR, WRCFG and RDREG (spec/46_control.md). -/

namespace Sys2Proof.Machine

/-- `NOP` (R420), halted or not. -/
def execNop (s : State) : Result := .next s

/-- `CLEAR` (R422), halted or not: it is the only command that ends a halt. -/
def execClear (s : State) : Result := .next s.clearRun

/-- `WRCFG lax` (R426). -/
def execWrcfg (lax : Bool) (s : State) : Result :=
  .next <| s.unlessHalted fun s => { s with laxEnd := lax }

/-- `RDREG reg` (R430). -/
def execRdreg (reg : BitVec 4) (s : State) : Result :=
  .next <| s.answer (encode (.rdreg reg)) fun s => s.regWord reg

end Sys2Proof.Machine
end

