-- ==== Sys2Proof/Machine/Decoder.lean ====
section
/-! DEFINITION. The decoder, a bit-serial prefix matcher: DECODE and DECEND (spec/44_decoder.md). -/

namespace Sys2Proof.Machine

/-- `Match(c)` (R352): the symbols whose codeword is exactly `c`, in ascending order. An entry with
`LEN = 0` has the empty codeword, which is never `c`, since `|c| ≥ 1`. -/
def State.matches (s : State) (c : Digits) : List Byte :=
  allSymbols.filter fun b => (s.lenOf b).toNat == c.length && s.codeword b == c

/-- A match: the symbol is emitted and the candidate cleared (R360). -/
def State.emitSymbol (s : State) (b : Byte) : State :=
  { s with
    decQ := s.decQ ++ [b]
    decSyms := s.decSyms + 1#32
    cand := 0#255, candLen := 0#8 }

/-- No match: the digit joins the candidate (R360). -/
def State.extendCandidate (s : State) (d : Bool) : State :=
  { s with cand := setDigit s.cand s.candLen.toNat d, candLen := s.candLen + 1#8 }

/-- What one digit does. -/
inductive DigitOutcome where
  /-- The digit took effect. -/
  | done (s : State)
  /-- The digit raises an error and has no effect (R366). -/
  | failed (code : ErrCode)
  deriving DecidableEq, Repr

/-- One turn of the loop of R360: the candidate extended by `d` is looked up in the table. -/
def State.feedDigit (s : State) (d : Bool) : DigitOutcome :=
  match s.matches (s.candidate ++ [d]) with
  | [] =>
    if (s.candidate ++ [d]).length = maxLen then .failed .noMatch else .done (s.extendCandidate d)
  | [b] => .done (s.emitSymbol b)
  | _ :: _ :: _ => .failed .ambiguous

/-- The loop of R360 over the digits from number `i` on. An error at a digit ends the command, keeps
the effects of the digits before it and records the digit's number (R366). -/
def State.feedDigits (w : Word) : Nat → Digits → State → State
  | _, [], s => s
  | i, d :: ds, s =>
    match s.feedDigit d with
    | .done t => State.feedDigits w (i + 1) ds t
    | .failed code => s.raise code (BitVec.ofNat 4 i) w

/-- The number of digits a DECODE carries, `n = cnt + 1` (R360). -/
def digitCount (cnt : BitVec 4) : Nat := cnt.toNat + 1

/-- `DECODE` (R360). It holds until DEC_Q has `n` free bytes (R150). Data bits from `n` up are ignored
(R199). -/
def execDecode (cnt : BitVec 4) (data : BitVec 16) (s : State) : Result :=
  .next <| s.unlessHalted fun s =>
    s.startWhen (digitCount cnt) s.decFree (encode (.decode cnt data)) fun s =>
      s.feedDigits (encode (.decode cnt data)) 0 (digitsOf data (digitCount cnt))

/-- The candidate discarded (R370). -/
def State.dropCandidate (s : State) : State := { s with cand := 0#255, candLen := 0#8 }

/-- `DECEND` (R370). -/
def execDecend (s : State) : Result :=
  .next <| s.unlessHalted fun s =>
    if s.candLen = 0#8 then s
    else if s.laxEnd then s.dropCandidate
    else s.raise .truncated 0#4 (encode .decend)

end Sys2Proof.Machine
end

