-- ==== Sys2Proof/Machine/Encoder.lean ====
section
/-! DEFINITION. The encoder: ENCODE (spec/43_encoder.md). -/

namespace Sys2Proof.Machine

/-- The codeword of `sym` appended to ENC_Q in stream order, and ENCBITS grown by its length modulo
2^32 (R332). -/
def State.pushCodeword (s : State) (sym : Byte) : State :=
  { s with
    encQ := s.encQ ++ s.codeword sym
    encBits := s.encBits + (s.lenOf sym).setWidth 32 }

/-- `ENCODE sym` (R332). It holds until ENC_Q has `LEN[sym]` free bits (R150), and then a symbol
without a codeword raises NO_CODE. -/
def execEncode (sym : Byte) (s : State) : Result :=
  .next <| s.unlessHalted fun s =>
    s.startWhen (s.lenOf sym).toNat s.encFree (encode (.encode sym)) fun s =>
      if s.lenOf sym = 0#8 then s.raise .noCode 0#4 (encode (.encode sym)) else s.pushCodeword sym

end Sys2Proof.Machine
end

