-- ==== Sys2Proof/Machine/FrequencyCounter.lean ====
section
/-! DEFINITION. The frequency counter: COUNT and RDFREQ (spec/40_frequency_counter.md). -/

namespace Sys2Proof.Machine

/-- The counting effect of R232: a symbol's first occurrence makes it present, and the count and the
total grow by exactly 1 (R233). -/
def State.countSymbol (s : State) (sym : Byte) : State :=
  { s.setFreq sym (s.freqOf sym + 1) with
    ndist := if s.freqOf sym = 0 then s.ndist + 1#9 else s.ndist
    total := s.total + 1 }

/-- `COUNT sym` (R232). -/
def execCount (sym : Byte) (s : State) : Result :=
  .next <| s.unlessHalted fun s =>
    if s.phase ≠ .count then s.raise .sequence 0#4 (encode (.count sym))
    else if s.total = s.maxCount then s.raise .countOverflow 0#4 (encode (.count sym))
    else s.countSymbol sym

/-- `RDFREQ sym` (R240): `respond(zext_32(FREQ[sym]))`. -/
def execRdfreq (sym : Byte) (s : State) : Result :=
  .next <| s.answer (encode (.rdfreq sym)) fun s => BitVec.ofNat 32 (s.freqOf sym)

end Sys2Proof.Machine
end

