-- ==== Sys2Proof/Machine/TreeBuilder.lean ====
section
/-! DEFINITION. The tree builder: BUILD and RDNODE (spec/41_tree_builder.md).

The working set `W` exists only while BUILD runs (R90). It is held here as a list of keys
`(NODE[i].freq, i)`, in no particular order: extraction always takes the least key (R261). -/

namespace Sys2Proof.Machine

/-- The priority of a node in the working set (R261). -/
structure Key where
  freq : Nat
  idx : Nat
  deriving DecidableEq, Repr

/-- Lexicographic order on keys: frequency first, then the node index (R261). -/
def Key.le (a b : Key) : Bool := a.freq < b.freq || (a.freq == b.freq && a.idx ≤ b.idx)

/-- The least key of `k :: ks`. -/
def leastKey (k : Key) (ks : List Key) : Key :=
  ks.foldl (fun best x => if best.le x then best else x) k

/-- `m <- argmin W; W <- W \ {m}` (R262); `none` when `W` is empty. -/
def extractLeast : List Key → Option (Key × List Key)
  | [] => none
  | k :: ks => some (leastKey k ks, (k :: ks).erase (leastKey k ks))

/-- The leaf of a present symbol (R83). -/
def leafNode (sym : Byte) (freq : Nat) : Node :=
  { freq := freq, leaf := true, sym := sym, left := 0#9, right := 0#9 }

/-- The internal node that merges `m1`, extracted first, and `m2` (R263): the first is the right child
and the second the left. -/
def mergeNode (m1 m2 : Key) : Node :=
  { freq := m1.freq + m2.freq, leaf := false, sym := 0#8
    left := BitVec.ofNat 9 m2.idx, right := BitVec.ofNat 9 m1.idx }

/-- One leaf per present symbol, in ascending order of symbol (R261, R262). -/
def State.leaves (s : State) : List Node :=
  allSymbols.filterMap fun b => if s.freqOf b = 0 then none else some (leafNode b (s.freqOf b))

/-- The keys of the first nodes `i, i+1, …` given their frequencies. -/
def keysFrom : Nat → List Node → List Key
  | _, [] => []
  | i, n :: ns => ⟨n.freq, i⟩ :: keysFrom (i + 1) ns

/-- `while |W| ≥ 2` (R262): each turn extracts the two least keys and appends the node that merges
them, whose index is the number of nodes so far. Each turn shortens `W` by one, so `|W|` turns are
enough fuel. -/
def mergeLoop : Nat → List Key → List Node → List Node
  | 0, _, nodes => nodes
  | fuel + 1, w, nodes =>
    match extractLeast w with
    | none => nodes
    | some (m1, w1) =>
      match extractLeast w1 with
      | none => nodes
      | some (m2, w2) =>
        mergeLoop fuel (⟨m1.freq + m2.freq, nodes.length⟩ :: w2) (nodes ++ [mergeNode m1 m2])

/-- The node memory that BUILD makes from the leaves (R262). -/
def buildNodes (leaves : List Node) : List Node :=
  mergeLoop leaves.length (keysFrom 0 leaves) leaves

/-- The effect of BUILD in phase COUNT (R262, R264, R265): `NNODES`, `ROOT` and `ROOT_VALID` record
the result, and an empty table makes no node. -/
def State.buildTree (s : State) : State :=
  let nodes := buildNodes s.leaves
  { s with
    node := nodes
    nnodes := BitVec.ofNat 10 nodes.length
    root := BitVec.ofNat 9 (nodes.length - 1)
    rootValid := !nodes.isEmpty
    phase := .built }

/-- `BUILD` (R262). -/
def execBuild (s : State) : Result :=
  .next <| s.unlessHalted fun s =>
    if s.phase ≠ .count then s.raise .sequence 0#4 (encode .build) else s.buildTree

/-- `RDNODE idx, ws` (R280). -/
def execRdnode (idx : BitVec 9) (ws : Bool) (s : State) : Result :=
  .next <| s.answer (encode (.rdnode idx ws)) fun s => s.nodeWord idx ws

end Sys2Proof.Machine
end

