-- ==== Sys2Proof/Machine/Dispatch.lean ====
section
/-! DEFINITION. From a command to its meaning, one arm per command (spec/30_encoding.md R190, R191). -/

namespace Sys2Proof.Machine

def exec (i : Instr) (s : State) : Host.Outcome State Fault Refusal :=
  match i with
  | .nop => Sys2Proof.Machine.execNop s
  | .clear => Sys2Proof.Machine.execClear s
  | .build => Sys2Proof.Machine.execBuild s
  | .walk => Sys2Proof.Machine.execWalk s
  | .decend => Sys2Proof.Machine.execDecend s
  | .wrcfg lax => Sys2Proof.Machine.execWrcfg lax s
  | .rdreg reg => Sys2Proof.Machine.execRdreg reg s
  | .count sym => Sys2Proof.Machine.execCount sym s
  | .encode sym => Sys2Proof.Machine.execEncode sym s
  | .decode cnt data => Sys2Proof.Machine.execDecode cnt data s
  | .ldlen sym len => Sys2Proof.Machine.execLdlen sym len s
  | .ldchunk sym chunk data => Sys2Proof.Machine.execLdchunk sym chunk data s
  | .rdlen sym => Sys2Proof.Machine.execRdlen sym s
  | .rdchunk sym chunk => Sys2Proof.Machine.execRdchunk sym chunk s
  | .rdfreq sym => Sys2Proof.Machine.execRdfreq sym s
  | .rdnode idx ws => Sys2Proof.Machine.execRdnode idx ws s

end Sys2Proof.Machine
end

