-- ==== Sys2Proof/Machine/Step.lean ====
section
/-! DEFINITION. One step of the machine: one turn of the block or of the host (spec/30_encoding.md
R206, spec/70_reset_and_hazards.md R530). -/

namespace Sys2Proof.Machine

/-- `Execute(w)` (R206). A word that is no command raises ILLEGAL; a command's meaning makes the halt
check and the hold check itself. -/
def execute (w : Word) (s : State) : Host.Outcome State Fault Refusal :=
  match decode w with
  | .instr i => exec i s
  | .reject _ => .next (s.raiseIllegal w)

/-- The block's turn: in reset, it leaves reset; else it retries the command that holds, else accepts
the word offered, else idles. -/
def blockStep (s : State) : Host.Outcome State Fault Refusal :=
  if s.inReset then .next s.leaveReset
  else
    match s.takeWord with
    | none => .next s
    | some (w, t) => execute w t

/-- One step: the next of the host's turns, and the block's where the host does nothing. -/
def step (s : State) : Host.Outcome State Fault Refusal :=
  match s.hostActs with
  | [] => blockStep s
  | .blockTurn :: acts => blockStep { s with hostActs := acts }
  | act :: acts => .next (State.hostTurn { s with hostActs := acts } act)

/-- `s` with the word whose bits are `w` offered next on `cmd_data`, and the next turn the block's, so
that `step` accepts exactly it. A command held before is dropped and the block is out of reset, as no word
is accepted while one holds or in reset (R172). -/
def State.withFetchWord (s : State) (nbits w : Nat) : State :=
  { s with
    held := none
    inReset := false
    cmdIn := tableWord nbits w :: s.cmdIn
    hostActs := .blockTurn :: s.hostActs }

end Sys2Proof.Machine
end

