-- ==== Sys2Proof/Machine/Assembler.lean ====
section
/-! DEFINITION. From an assembly line to commands (spec/30_encoding.md R211 to R216), and the host's runs
made of them (spec/70_reset_and_hazards.md R506, R507, R521).

The assembler and the host stand outside the block; no step of the machine uses this file. -/

namespace Sys2Proof.Machine

/-! ### Expansion of one line -/

/-- A digit string split into groups of 16 in stream order, the last holding the remaining 1 to 16
(R213). -/
def groupsOf16 (ds : Digits) : List Digits :=
  (List.range ((ds.length + 15) / 16)).map fun k => (ds.drop (16 * k)).take 16

/-- `DECODE "b0…b(n−1)"` for 1 to 16 digits (R211): `cnt = n − 1`, and `data[i] = b_i`. -/
def decodeGroup (ds : Digits) : Instr :=
  .decode (BitVec.ofNat 4 (ds.length - 1)) (BitVec.ofNat 16 (digitsToNat ds))

/-- `COUNTSTR` (R212). -/
def countAll (text : List Byte) : List Instr := text.map .count

/-- `ENCSTR` (R212). -/
def encodeAll (text : List Byte) : List Instr := text.map .encode

/-- `DECSTR "c"` (R213). -/
def decodeAll (ds : Digits) : List Instr := (groupsOf16 ds).map decodeGroup

/-- `LDCODE sym, "c"` (R214): one LDCHUNK per chunk that holds a digit, then LDLEN. -/
def loadCode (sym : Byte) (ds : Digits) : List Instr :=
  ((groupsOf16 ds).zipIdx.map fun gk =>
    Instr.ldchunk sym (BitVec.ofNat 4 gk.2) (BitVec.ofNat 16 (digitsToNat gk.1))) ++
  [.ldlen sym (BitVec.ofNat 8 ds.length)]

/-- `RDCODE sym` (R215): seventeen read commands. -/
def readCode (sym : Byte) : List Instr :=
  .rdlen sym :: (List.range 16).map fun k => .rdchunk sym (BitVec.ofNat 4 k)

/-- `SYNC` (R216): `RDREG STATUS`. -/
def syncCommand : Instr := .rdreg 2#4

/-- The commands one line stands for; `none` is an assembly error (R211, R214). -/
def assemble (line : AsmLine) : Option (List Instr) :=
  if line.wellFormed then
    match line with
    | .nop => some [.nop]
    | .clear => some [.clear]
    | .build => some [.build]
    | .walk => some [.walk]
    | .decend => some [.decend]
    | .wrcfg lax => some [.wrcfg (lax == 1)]
    | .rdreg reg => some [.rdreg (BitVec.ofNat 4 reg)]
    | .count sym => some [.count (BitVec.ofNat 8 sym)]
    | .encode sym => some [.encode (BitVec.ofNat 8 sym)]
    | .decodeDigits digits => some [decodeGroup digits]
    | .decodeRaw n data => some [.decode (BitVec.ofNat 4 (n - 1)) (BitVec.ofNat 16 data)]
    | .ldlen sym len => some [.ldlen (BitVec.ofNat 8 sym) (BitVec.ofNat 8 len)]
    | .ldchunk sym chunk data =>
      some [.ldchunk (BitVec.ofNat 8 sym) (BitVec.ofNat 4 chunk) (BitVec.ofNat 16 data)]
    | .rdlen sym => some [.rdlen (BitVec.ofNat 8 sym)]
    | .rdchunk sym chunk => some [.rdchunk (BitVec.ofNat 8 sym) (BitVec.ofNat 4 chunk)]
    | .rdfreq sym => some [.rdfreq (BitVec.ofNat 8 sym)]
    | .rdnode idx ws => some [.rdnode (BitVec.ofNat 9 idx) (ws == 1)]
    | .countStr text => some (countAll text)
    | .encStr text => some (encodeAll text)
    | .decStr digits => some (decodeAll digits)
    | .ldCode sym digits => some (loadCode (BitVec.ofNat 8 sym) digits)
    | .rdCode sym => some (readCode (BitVec.ofNat 8 sym))
    | .sync => some [syncCommand]
  else none

/-! ### The host's runs -/

/-- Steps 1 to 3 of a compression run (R506): after them the code table stands in the block. -/
def buildTableRun (input : List Byte) : List Instr :=
  [.clear] ++ countAll input ++ [.build, .walk]

/-- The byte values whose LEN is non-zero, in ascending order (R13): those whose table entries the host
reads and writes. -/
def codedSymbols (s : State) : List Byte := allSymbols.filter fun b => s.lenOf b != 0#8

/-- Steps 4 to 6 of a compression run (R506) from the state `s` that `buildTableRun` leaves: RDCODE for
exactly the symbols whose length is non-zero, then one ENCODE per input byte, then SYNC. -/
def encodeRun (input : List Byte) (s : State) : List Instr :=
  (codedSymbols s).flatMap readCode ++ encodeAll input ++ [syncCommand]

/-- The LDCODE lines of the parsed table, in file order (R12); `none` when one of them is no line of
R214, its codeword having no digit or more than 255. -/
def loadTable : List (Byte × Digits) → Option (List Instr)
  | [] => some []
  | (b, c) :: entries =>
    match assemble (.ldCode b.toNat c), loadTable entries with
    | some is, some js => some (is ++ js)
    | _, _ => none

/-- A decompression run (R507): `entries` are the parsed table in file order, `stream` its digits.
R214 gives LDCODE for codewords of 1 to 255 digits alone, and no rule says what the host does with a
parsed entry of another length. DESIGN CHOICE (log entry 8): it then sends no run at all. -/
def decompressionRun (entries : List (Byte × Digits)) (stream : Digits) : Option (List Instr) :=
  (loadTable entries).map fun loads =>
    [.clear] ++ loads ++ decodeAll stream ++ [.decend, syncCommand]

/-- R521: the host writes its output file only if the final STATUS response's ERR field is 0. -/
def runSucceeded (status : Word) : Bool := status.extractLsb' 4 4 == 0#4

end Sys2Proof.Machine
end

