-- ==== Sys2Proof/Safety.lean ====
section
/-! DEFINITION. The terms in which statements about runs are made: the invariants that
spec/10_state.md R95 to R99 give between commands, the need of a command (spec/20_memory.md R150), and
sequences of commands. -/

namespace Sys2Proof.Machine

/-! ### Invariants between commands -/

/-- `Σ_s FREQ[s]`. -/
def State.freqSum (s : State) : Nat := (allSymbols.map s.freqOf).sum

/-- The present symbols (R41), in ascending order. -/
def State.present (s : State) : List Byte := allSymbols.filter fun b => s.freqOf b != 0

/-- One leaf per present symbol, in ascending symbol order, with the symbol's count (R83, R262). -/
def State.leafNodes (s : State) : List Node :=
  s.present.map fun b =>
    { freq := s.freqOf b, leaf := true, sym := b, left := 0#9, right := 0#9 }

/-- The counting invariants (R95). -/
structure CountsAgree (s : State) : Prop where
  total_eq : s.total = s.freqSum
  ndist_eq : s.ndist.toNat = s.present.length
  freq_le : ∀ b, s.freqOf b ≤ s.total
  total_le : s.total ≤ s.maxCount

/-- The phase invariants (R96). -/
structure PhaseAgrees (s : State) : Prop where
  counting : s.phase = .count → s.nnodes = 0#10 ∧ s.rootValid = false
  built : s.phase ≠ .count → s.ndist ≠ 0#9 →
    s.nnodes.toNat = 2 * s.ndist.toNat - 1 ∧ s.rootValid = true
  builtEmpty : s.phase ≠ .count → s.ndist = 0#9 → s.nnodes = 0#10 ∧ s.rootValid = false

/-- The indices that the internal nodes of a node memory name as children, with repeats. -/
def childIndices (nodes : List Node) : List Nat :=
  nodes.flatMap fun n => if n.leaf then [] else [n.left.toNat, n.right.toNat]

/-- The node memory holds exactly the valid nodes, and ROOT is the last of them (R63, R64). -/
structure NodesHeld (s : State) : Prop where
  count_eq : s.node.length = s.nnodes.toNat
  valid_iff : s.rootValid = true ↔ s.nnodes ≠ 0#10
  root_eq : s.root.toNat = s.nnodes.toNat - 1

/-- What R97 says of one internal node `n` with index `i`: its children have lower indices, it has no
symbol, and its frequency is the sum of theirs. -/
def InternalNode (nodes : List Node) (i : Nat) (n : Node) : Prop :=
  n.leaf = false ∧ n.sym = 0#8 ∧ n.left.toNat < i ∧ n.right.toNat < i ∧
    ∃ l r, nodes[n.left.toNat]? = some l ∧ nodes[n.right.toNat]? = some r ∧
      n.freq = l.freq + r.freq

/-- `path(i, v)` is `p`, and the leaf `v` has the symbol `b` (R301): descending left appends digit 0 and
descending right appends digit 1. -/
inductive PathTo (nodes : List Node) : Nat → Digits → Byte → Prop where
  | leaf {i : Nat} {n : Node} (at_ : nodes[i]? = some n) (isLeaf : n.leaf = true) : PathTo nodes i [] n.sym
  | left {i : Nat} {n : Node} {p : Digits} {b : Byte} (at_ : nodes[i]? = some n) (internal : n.leaf = false)
      (rest : PathTo nodes n.left.toNat p b) : PathTo nodes i (false :: p) b
  | right {i : Nat} {n : Node} {p : Digits} {b : Byte} (at_ : nodes[i]? = some n) (internal : n.leaf = false)
      (rest : PathTo nodes n.right.toNat p b) : PathTo nodes i (true :: p) b

/-- The tree invariants (R97). -/
structure TreeAgrees (s : State) : Prop where
  /-- Nodes `0 .. NDIST−1` are the leaves, one per present symbol, in ascending symbol order, each with
  its symbol's count. -/
  leaves_eq : s.node.take s.ndist.toNat = s.leafNodes
  /-- Every later node is internal. -/
  internal : ∀ i n, s.ndist.toNat ≤ i → s.node[i]? = some n → InternalNode s.node i n
  /-- Every node but the root is the child of exactly one node, once: the nodes form one tree. -/
  one_parent : (childIndices s.node).Perm (List.range s.root.toNat)
  /-- Paths from the root lead to leaves of exactly the present symbols. -/
  reaches : ∀ b, s.freqOf b ≠ 0 ↔ ∃ p, PathTo s.node s.root.toNat p b
  /-- Each has exactly one path (R301). -/
  one_path : ∀ b p q, PathTo s.node s.root.toNat p b → PathTo s.node s.root.toNat q b → p = q
  /-- `NODE[ROOT].freq = TOTAL`. -/
  root_freq : ∃ n, s.node[s.root.toNat]? = some n ∧ n.freq = s.total

/-- The candidate's bounds (R99). -/
structure CandidateFits (s : State) : Prop where
  len_le : s.candLen.toNat ≤ 254
  zero_above : ∀ j, s.candLen.toNat ≤ j → s.cand.getLsbD j = false

/-- Each queue holds at most its capacity (R86). -/
structure QueuesFit (s : State) : Prop where
  enc : s.encQ.length ≤ s.params.encQDepth
  dec : s.decQ.length ≤ s.params.decQDepth
  rsp : s.rspQ.length ≤ s.params.rspQDepth

/-- While the block is in reset, its whole state is the one after reset (R500); the rest is the host's. -/
def ResetAgrees (s : State) : Prop :=
  s.inReset = true →
    s = { State.resetWith s.params with
      inReset := true, cmdIn := s.cmdIn, hostActs := s.hostActs
      encOut := s.encOut, decOut := s.decOut, rspOut := s.rspOut }

/-- Which words may raise an error code (R451). -/
def raisedBy (w : Word) : ErrCode → Prop
  | .illegal => ∃ r, decode w = .reject r
  | .sequence => (∃ b, decode w = .instr (.count b)) ∨ decode w = .instr .build ∨ decode w = .instr .walk
  | .countOverflow => ∃ b, decode w = .instr (.count b)
  | .noCode => ∃ b, decode w = .instr (.encode b)
  | .noMatch => ∃ n d, decode w = .instr (.decode n d)
  | .ambiguous => ∃ n d, decode w = .instr (.decode n d)
  | .truncated => decode w = .instr .decend

/-- The error record: clear while there is no error (R59, R60); else ERRCMD is a word that raises the
recorded code, and ERRINFO is 0 unless a DECODE raised it (R451). -/
structure ErrorRecordAgrees (s : State) : Prop where
  clear : s.err = none → s.errCmd = 0#32 ∧ s.errInfo = 0#4
  raised : ∀ code, s.err = some code → raisedBy s.errCmd code
  info : ∀ code, s.err = some code → code ≠ .noMatch → code ≠ .ambiguous → s.errInfo = 0#4

/-- All of the invariants that hold between steps. -/
structure Invariant (s : State) : Prop where
  legal : s.params.legal
  counts : CountsAgree s
  phase : PhaseAgrees s
  nodes : NodesHeld s
  tree : s.rootValid = true → TreeAgrees s
  candidate : CandidateFits s
  queues : QueuesFit s
  errors : ErrorRecordAgrees s
  reset : ResetAgrees s

/-- `LEN[b] ≠ 0`: the symbol has a codeword (R81). -/
def hasCode (s : State) (b : Byte) : Prop := s.lenOf b ≠ 0#8

/-- No codeword is a prefix of another symbol's codeword (R40). -/
def CodesPrefixFree (s : State) : Prop :=
  ∀ a b, hasCode s a → hasCode s b → s.codeword a <+: s.codeword b → a = b

/-- The code-table invariants (R98), which hold while no LDLEN or LDCHUNK runs after WALK. -/
structure TableAgrees (s : State) : Prop where
  present_iff : s.phase = .coded → ∀ b, hasCode s b ↔ s.freqOf b ≠ 0
  prefixFree : s.phase = .coded → CodesPrefixFree s
  length_le : s.phase = .coded → ∀ b, hasCode s b →
    1 ≤ (s.lenOf b).toNat ∧ (s.lenOf b).toNat ≤ max 1 (s.ndist.toNat - 1)

/-- `w` is the word the block's next turn runs out of reset: the one that holds, else the first one
offered. -/
def RunsNext (s : State) (w : Word) : Prop :=
  s.inReset = false ∧ (s.held = some w ∨ (s.held = none ∧ ∃ ws, s.cmdIn = w :: ws))

/-! ### Needs and holds (R150) -/

/-- `need(w)` for the command `i`. -/
def need (i : Instr) (s : State) : Nat :=
  match i with
  | .encode b => (s.lenOf b).toNat
  | .decode cnt _ => cnt.toNat + 1
  | .rdreg _ | .rdfreq _ | .rdnode _ _ | .rdlen _ | .rdchunk _ _ => 1
  | .nop | .clear | .build | .walk | .decend | .wrcfg _ | .count _ | .ldlen _ _ | .ldchunk _ _ _ => 0

/-- The capacity of the queue that the command `i` pushes to; 0 when it pushes to none. -/
def capacity (i : Instr) (s : State) : Nat :=
  match i with
  | .encode _ => s.params.encQDepth
  | .decode _ _ => s.params.decQDepth
  | .rdreg _ | .rdfreq _ | .rdnode _ _ | .rdlen _ | .rdchunk _ _ => s.params.rspQDepth
  | .nop | .clear | .build | .walk | .decend | .wrcfg _ | .count _ | .ldlen _ _ | .ldchunk _ _ _ => 0

/-- The free space of the queue that the command `i` pushes to; 0 when it pushes to none. -/
def room (i : Instr) (s : State) : Nat :=
  match i with
  | .encode _ => s.params.encQDepth - s.encQ.length
  | .decode _ _ => s.params.decQDepth - s.decQ.length
  | .rdreg _ | .rdfreq _ | .rdnode _ _ | .rdlen _ | .rdchunk _ _ =>
    s.params.rspQDepth - s.rspQ.length
  | .nop | .clear | .build | .walk | .decend | .wrcfg _ | .count _ | .ldlen _ _ | .ldchunk _ _ _ => 0

/-! ### Sequences of commands -/

/-- The state a command leaves. Every command of this model answers a next state. -/
def perform (i : Instr) (s : State) : State :=
  match exec i s with
  | .next t => t
  | .fault _ => s
  | .refused _ => s

/-- Commands performed one after the other (R140). -/
def performAll : List Instr → State → State
  | [], s => s
  | i :: is, s => performAll is (perform i s)

/-! ### Code tables and the matcher -/

/-- `b ∈ Match(ds)` (R352): `LEN[b] = |ds|` and `CODE[b][j] = ds_j` for every `j` below `|ds|`. -/
def InMatch (s : State) (ds : Digits) (b : Byte) : Prop :=
  (s.lenOf b).toNat = ds.length ∧ ∀ j, j < ds.length → ds[j]? = some ((s.codeOf b).getLsbD j)

/-- The loop of R360 where no digit raises an error: the digits take the state from the first to the
second. -/
inductive DigitsTakeEffect : Digits → State → State → Prop where
  | done (s : State) : DigitsTakeEffect [] s s
  /-- `|M| = 1`: the symbol is pushed and counted, and the candidate is cleared. -/
  | emit {d : Bool} {ds : Digits} {s t : State} {b : Byte}
      (one : ∀ x, InMatch s (s.candidate ++ [d]) x ↔ x = b)
      (rest : DigitsTakeEffect ds
        { s with decQ := s.decQ ++ [b], decSyms := s.decSyms + 1#32, cand := 0#255, candLen := 0#8 } t) :
      DigitsTakeEffect (d :: ds) s t
  /-- `|M| = 0` and `|c| ≠ 255`: `CAND[CANDLEN] <- d` and CANDLEN grows by 1. -/
  | extend {d : Bool} {ds : Digits} {s t : State} {cand : BitVec 255}
      (unmatched : ∀ x, ¬ InMatch s (s.candidate ++ [d]) x)
      (short : (s.candidate ++ [d]).length ≠ 255)
      (digit : ∀ j, j < 255 →
        cand.getLsbD j = if j = s.candLen.toNat then d else s.cand.getLsbD j)
      (rest : DigitsTakeEffect ds { s with cand := cand, candLen := s.candLen + 1#8 } t) :
      DigitsTakeEffect (d :: ds) s t

/-! ### The merges of BUILD -/

/-- The lexicographic order of keys (R261). -/
def Key.Before (a b : Key) : Prop := a.freq < b.freq ∨ (a.freq = b.freq ∧ a.idx ≤ b.idx)

/-- The loop of R262 on a working set: `MergesTo w nodes result` holds when merging, each time, the
node of least key and then the least of the rest takes the node memory `nodes` to `result`. -/
inductive MergesTo : List Key → List Node → List Node → Prop where
  | done {w : List Key} {nodes : List Node} (few : w.length ≤ 1) : MergesTo w nodes nodes
  | merge {w rest : List Key} {m1 m2 : Key} {nodes result : List Node}
      (members : w.Perm (m1 :: m2 :: rest))
      (least : ∀ x ∈ w, m1.Before x)
      (next : ∀ x ∈ m2 :: rest, m2.Before x)
      (rest : MergesTo (⟨m1.freq + m2.freq, nodes.length⟩ :: rest)
        (nodes ++ [{ freq := m1.freq + m2.freq, leaf := false, sym := 0#8,
                     left := BitVec.ofNat 9 m2.idx, right := BitVec.ofNat 9 m1.idx }]) result) :
      MergesTo w nodes result

/-- The keys of the leaves `0 .. n−1`. -/
def leafKeys (leaves : List Node) : List Key := leaves.zipIdx.map fun ni => ⟨ni.1.freq, ni.2⟩

end Sys2Proof.Machine
end

