-- ==== Sys2Proof/Certificates/Slice0/Obligations.lean ====
section
/-! DEFINITION. The statements for the provers, in the order of the spec's files.

A frame is written `t = { s with f := t.f, … }`: every field of the state but the named ones is
unchanged, the arrays, the queues and the host's side included. -/

open Sys2Proof Sys2Proof.Machine

/-! ### Encoding (spec/30_encoding.md) -/

/-- Decoding the word of any command gives the command back, with every operand at every value. -/
def Obligations.DecodeInvertsEncode : Prop :=
  ∀ i : Instr, decode (encode i) = .instr i

/-- Each legal word has one meaning and each command one word (R195). -/
def Obligations.EncodeInvertsDecode : Prop :=
  ∀ (w : Word) (i : Instr), decode w = .instr i → encode i = w

/-- R195: a word decodes exactly when one row of the table, and only one, has `(w AND mask) = match`; no
two rows match one word, for they differ in `op` or, for `op = 0`, in `func`, and every mask covers those
bits. -/
def Obligations.LegalWordsAreThoseThatDecode : Prop :=
  (∀ w : Word,
    ((∃ i, decode w = .instr i) ↔
      (encodingTable.filter fun row => w &&& row.mask == row.pattern).length = 1) ∧
    (encodingTable.filter fun row => w &&& row.mask == row.pattern).length ≤ 1 ∧
    (legalWord w = true ↔ ∃ i, decode w = .instr i)) ∧
  (∀ row ∈ encodingTable, fieldOp row.mask = 0xF#4 ∧
    (fieldOp row.pattern = 0#4 → fieldFunc row.mask = 0xF#4)) ∧
  encodingTable.Pairwise fun a b => fieldOp a.pattern ≠ fieldOp b.pattern ∨
    (fieldOp a.pattern = 0#4 ∧ fieldFunc a.pattern ≠ fieldFunc b.pattern)

/-- R196, R197 and R198: a reserved opcode, a reserved system function, or a 1 in a bit that a defined
row's mask covers and its match holds at 0, raises ILLEGAL. -/
def Obligations.ReservedWordsRaiseIllegal : Prop :=
  ∀ (w : Word) (s : State), s.err = none →
    (10 ≤ (fieldOp w).toNat ∨
     (fieldOp w = 0#4 ∧ 7 ≤ (fieldFunc w).toNat) ∨
     (∃ row ∈ encodingTable, fieldOp w = fieldOp row.pattern ∧
       (fieldOp w = 0#4 → fieldFunc w = fieldFunc row.pattern) ∧
       ∃ j, j < 32 ∧ w.getLsbD j = true ∧ row.mask.getLsbD j = true ∧
         row.pattern.getLsbD j = false)) →
    (∀ i, decode w ≠ .instr i) ∧
    execute w s = .next { s with err := some .illegal, errCmd := w, errInfo := 0#4 }

/-- One word of every row, written out from the pattern column of R195, decodes to its command. -/
def Obligations.WordsOfEveryRowDecode : Prop :=
  decode 0b0000_0000_0000_0000_0000_0000_0000_0000#32 = .instr .nop ∧
  decode 0b0000_0001_0000_0000_0000_0000_0000_0000#32 = .instr .clear ∧
  decode 0b0000_0010_0000_0000_0000_0000_0000_0000#32 = .instr .build ∧
  decode 0b0000_0011_0000_0000_0000_0000_0000_0000#32 = .instr .walk ∧
  decode 0b0000_0100_0000_0000_0000_0000_0000_0000#32 = .instr .decend ∧
  decode 0b0000_0101_0000_0000_0000_0000_0000_0001#32 = .instr (.wrcfg true) ∧
  decode 0b0000_0110_0000_0000_0000_0000_0000_1011#32 = .instr (.rdreg 11#4) ∧
  decode 0b0001_0110_0001_0000_0000_0000_0000_0000#32 = .instr (.count 0x61#8) ∧
  decode 0b0010_1111_1111_0000_0000_0000_0000_0000#32 = .instr (.encode 0xFF#8) ∧
  decode 0b0011_0000_0000_0011_0000_0000_0000_1000#32 = .instr (.decode 3#4 8#16) ∧
  decode 0b0100_0110_0010_0000_0000_0000_0000_0011#32 = .instr (.ldlen 0x62#8 3#8) ∧
  decode 0b0101_0111_1000_1111_0011_1111_1111_1111#32 = .instr (.ldchunk 0x78#8 15#4 0x3FFF#16) ∧
  decode 0b0110_0110_0010_0000_0000_0000_0000_0000#32 = .instr (.rdlen 0x62#8) ∧
  decode 0b0111_0110_0001_1111_0000_0000_0000_0000#32 = .instr (.rdchunk 0x61#8 15#4) ∧
  decode 0b1000_0110_0001_0000_0000_0000_0000_0000#32 = .instr (.rdfreq 0x61#8) ∧
  decode 0b1001_0000_0000_0000_0000_0010_0000_0010#32 = .instr (.rdnode 2#9 true)

/-! ### Steps: the block's turn and the host's (spec/30_encoding.md R206, spec/20_memory.md R152) -/

/-- A step of the block, out of reset, runs the command whose word holds, or else the one offered on
`cmd_data`, on the state with that word taken from its place. That the block's turn is one step is the
model's (log entry 3). -/
def Obligations.StepRunsTheDecodedCommand : Prop :=
  ∀ (s : State) (w : Word) (i : Instr), decode w = .instr i →
    (s.inReset = false →
      (∀ ws, s.held = none → s.cmdIn = w :: ws → s.hostActs = [] →
        step s = exec i { s with cmdIn := ws }) ∧
      (∀ ws acts, s.held = none → s.cmdIn = w :: ws → s.hostActs = .blockTurn :: acts →
        step s = exec i { s with cmdIn := ws, hostActs := acts }) ∧
      (s.held = some w → s.hostActs = [] → step s = exec i { s with held := none }) ∧
      (∀ acts, s.held = some w → s.hostActs = .blockTurn :: acts →
        step s = exec i { s with held := none, hostActs := acts })) ∧
    step (s.withFetchWord 32 w.toNat) = exec i { s with held := none, inReset := false }

/-- R206 for a word that is no command: ILLEGAL is recorded unless the block is halted, and the word is
gone either way. With no word to run, the block idles (R492). The turn is the block's because the host
lists nothing or because it lists a turn of the block; that it is one step is the model's (log
entry 3). -/
def Obligations.StepRejectsOrIdles : Prop :=
  ∀ (s : State) (acts : List HostAct), s.inReset = false → s.held = none →
    (s.hostActs = [] ∧ acts = [] ∨ s.hostActs = .blockTurn :: acts) →
    (∀ (w : Word) (ws : List Word) (r : Reject), decode w = .reject r → s.cmdIn = w :: ws →
      (s.err = none →
        step s = .next { s with cmdIn := ws, hostActs := acts
                                err := some .illegal, errCmd := w, errInfo := 0#4 }) ∧
      (s.err ≠ none → step s = .next { s with cmdIn := ws, hostActs := acts })) ∧
    (s.cmdIn = [] → step s = .next { s with hostActs := acts })

/-- R152: a pop takes the head item of its queue, whether a command holds or not, and changes nothing
else in the block, ENCBITS and DECSYMS included; an empty queue's `valid` is low and popping it transfers
nothing. That a pop is a turn of its own is the model's (log entry 3), and so are the lists of what the
host has popped (log entry 2). -/
def Obligations.HostPopsTakeTheHead : Prop :=
  ∀ (s : State) (acts : List HostAct),
    (∀ b rest, s.hostActs = .popEnc :: acts → s.encQ = b :: rest →
      step s = .next { s with hostActs := acts, encQ := rest, encOut := s.encOut ++ [b] }) ∧
    (∀ b rest, s.hostActs = .popDec :: acts → s.decQ = b :: rest →
      step s = .next { s with hostActs := acts, decQ := rest, decOut := s.decOut ++ [b] }) ∧
    (∀ v rest, s.hostActs = .popRsp :: acts → s.rspQ = v :: rest →
      step s = .next { s with hostActs := acts, rspQ := rest, rspOut := s.rspOut ++ [v] }) ∧
    (s.hostActs = .popEnc :: acts → s.encQ = [] →
      s.encPort = none ∧ step s = .next { s with hostActs := acts }) ∧
    (s.hostActs = .popDec :: acts → s.decQ = [] →
      s.decPort = none ∧ step s = .next { s with hostActs := acts }) ∧
    (s.hostActs = .popRsp :: acts → s.rspQ = [] →
      s.rspPort = none ∧ step s = .next { s with hostActs := acts })

/-- Every step answers a next state: the spec gives every word an effect in every state (R206). -/
def Obligations.EveryStepAnswersANextState : Prop :=
  (∀ s : State, ∃ t, step s = .next t) ∧ (∀ (i : Instr) (s : State), ∃ t, exec i s = .next t)

/-- R141: what the host has popped from a queue, followed by what the queue holds, only ever grows at
its end, whatever the step, but for a reset, which loses the queues' items (R500). -/
def Obligations.QueuesAreFirstInFirstOut : Prop :=
  ∀ s t : State, (∀ acts, s.hostActs ≠ .assertReset :: acts) → step s = .next t →
    (s.encOut ++ s.encQ) <+: (t.encOut ++ t.encQ) ∧
    (s.decOut ++ s.decQ) <+: (t.decOut ++ t.decQ) ∧
    (s.rspOut ++ s.rspQ) <+: (t.rspOut ++ t.rspQ)

/-! ### Reset (spec/10_state.md R110, spec/70_reset_and_hazards.md R500) -/

/-- R500 and R110: one edge with `rst_n = 0` abandons a command in progress without an error, empties
the queues, gives every register and array its reset value and drives every output to 0, `cmd_ready`
included. That the block's parameters and the host's own side are kept is the model's (log entries 1
and 2). -/
def Obligations.ResetGivesTheResetValues : Prop :=
  ∀ (s : State) (acts : List HostAct), s.hostActs = .assertReset :: acts →
    ∃ t, step s = .next t ∧
      (∀ b, t.freqOf b = 0 ∧ t.lenOf b = 0#8 ∧ t.codeOf b = 0#256) ∧
      t.total = 0 ∧ t.ndist = 0#9 ∧ t.nnodes = 0#10 ∧ t.root = 0#9 ∧ t.rootValid = false ∧
      t.cand = 0#255 ∧ t.candLen = 0#8 ∧ t.phase = .count ∧ t.err = none ∧ t.errCmd = 0#32 ∧
      t.errInfo = 0#4 ∧ t.laxEnd = false ∧ t.encBits = 0#32 ∧ t.decSyms = 0#32 ∧
      t.encQ = [] ∧ t.decQ = [] ∧ t.rspQ = [] ∧ t.held = none ∧ t.irqErr = false ∧
      t.params = s.params ∧ t.cmdIn = s.cmdIn ∧ t.hostActs = acts ∧
      t.encOut = s.encOut ∧ t.decOut = s.decOut ∧ t.rspOut = s.rspOut ∧
      t.regWord 0#4 = 0x48554631#32 ∧ t.regWord 1#4 = s.regWord 1#4 ∧
      t.encPort = none ∧ t.decPort = none ∧ t.rspPort = none ∧ t.busy = false ∧
      t.inReset = true ∧ t.cmdReady = false

/-- R172 and R500: `cmd_ready` is 1 exactly when the block is out of reset and holds no command, and only
then is a word accepted. Only an edge with `rst_n = 0` puts the block in reset; its next turn without one
leaves reset, accepting nothing. That the clearing of R501 takes one turn is the model's (log entry 5). -/
def Obligations.WordsAreAcceptedOnlyWhenReady : Prop :=
  (∀ s : State, s.cmdReady = true ↔ s.inReset = false ∧ s.held = none) ∧
  (∀ s t : State, step s = .next t → t.cmdIn ≠ s.cmdIn →
    s.cmdReady = true ∧ ∃ w, s.cmdIn = w :: t.cmdIn) ∧
  (∀ s t : State, step s = .next t → t.inReset = true →
    s.inReset = true ∨ ∃ acts, s.hostActs = .assertReset :: acts) ∧
  (∀ (s : State) (acts : List HostAct), s.inReset = true →
    (s.hostActs = [] ∧ acts = [] ∨ s.hostActs = .blockTurn :: acts) →
    step s = .next { s with inReset := false, hostActs := acts })

/-! ### Invariants between commands (spec/10_state.md section 6) -/

/-- Every legal block meets the invariants right after reset. -/
def Obligations.ResetMeetsTheInvariant : Prop :=
  (∀ p : Params, p.legal → Invariant (State.resetWith p) ∧ TableAgrees (State.resetWith p)) ∧
  Invariant State.reset ∧ TableAgrees State.reset

/-- R95: the counting invariants hold after every step. -/
def Obligations.StepKeepsCountsAgree : Prop :=
  ∀ s t : State, CountsAgree s → step s = .next t → CountsAgree t

/-- R99: `CANDLEN ≤ 254` after every step, and `CAND[j] = 0` from `CANDLEN` up. -/
def Obligations.StepKeepsCandidateFits : Prop :=
  ∀ s t : State, CandidateFits s → step s = .next t → CandidateFits t

/-- No step puts more into a queue than it holds (R86, R150). -/
def Obligations.StepKeepsQueuesFit : Prop :=
  ∀ s t : State, QueuesFit s → step s = .next t → QueuesFit t

/-- The error record always agrees with the table of R451: it is clear without an error (R59, R60), and
otherwise names a word that raises the recorded code, with ERRINFO 0 unless a DECODE raised it. -/
def Obligations.StepKeepsErrorRecordAgrees : Prop :=
  ∀ s t : State, ErrorRecordAgrees s → step s = .next t → ErrorRecordAgrees t

/-- R96 and R97: every step keeps the phase invariants and the tree invariants, with the counting
invariants they rest on; and while the block is in reset its state stays the one after reset (R500). -/
def Obligations.StepKeepsTheInvariant : Prop :=
  ∀ s t : State, Invariant s → step s = .next t → Invariant t

/-- R98: once WALK has run, the table keeps a codeword for exactly the present symbols, prefix-free and
within the length bounds, under every step but one that runs LDLEN or LDCHUNK. -/
def Obligations.StepKeepsTableAgrees : Prop :=
  ∀ s t : State, Invariant s → TableAgrees s → step s = .next t →
    (∀ w, RunsNext s w → (∀ b n, decode w ≠ .instr (.ldlen b n)) ∧
      (∀ b k d, decode w ≠ .instr (.ldchunk b k d))) →
    TableAgrees t

/-! ### Rules over all commands -/

/-- The table of what each command writes (R135): a state part changes only under the commands named
for it, the error record apart. -/
def Obligations.OnlyTheNamedCommandsWrite : Prop :=
  ∀ (i : Instr) (s t : State), exec i s = .next t →
    ((t.freq ≠ s.freq ∨ t.total ≠ s.total ∨ t.ndist ≠ s.ndist) → i = .clear ∨ ∃ b, i = .count b) ∧
    ((t.node ≠ s.node ∨ t.nnodes ≠ s.nnodes ∨ t.root ≠ s.root ∨ t.rootValid ≠ s.rootValid) →
      i = .clear ∨ i = .build) ∧
    (t.len ≠ s.len → i = .clear ∨ i = .walk ∨ ∃ b n, i = .ldlen b n) ∧
    (t.code ≠ s.code → i = .clear ∨ i = .walk ∨ ∃ b k d, i = .ldchunk b k d) ∧
    ((t.cand ≠ s.cand ∨ t.candLen ≠ s.candLen) →
      i = .clear ∨ i = .decend ∨ ∃ n d, i = .decode n d) ∧
    (t.phase ≠ s.phase → i = .clear ∨ i = .build ∨ i = .walk) ∧
    (t.laxEnd ≠ s.laxEnd → ∃ x, i = .wrcfg x) ∧
    (t.encBits ≠ s.encBits → i = .clear ∨ ∃ b, i = .encode b) ∧
    (t.encQ ≠ s.encQ → ∃ b, i = .encode b) ∧
    (t.decSyms ≠ s.decSyms → i = .clear ∨ ∃ n d, i = .decode n d) ∧
    (t.decQ ≠ s.decQ → ∃ n d, i = .decode n d) ∧
    (t.rspQ ≠ s.rspQ → isRead i = true) ∧
    t.params = s.params ∧ t.inReset = s.inReset ∧ t.cmdIn = s.cmdIn ∧ t.hostActs = s.hostActs ∧
    t.encOut = s.encOut ∧ t.decOut = s.decOut ∧ t.rspOut = s.rspOut

/-- R462: COUNT and BUILD outside phase COUNT, and WALK outside phase BUILT, raise SEQUENCE; no other
command does. -/
def Obligations.PhaseChecksRaiseSequence : Prop :=
  (∀ (b : Byte) (s : State), s.err = none → s.phase ≠ .count →
    exec (.count b) s =
      .next { s with err := some .sequence, errCmd := encode (.count b), errInfo := 0#4 }) ∧
  (∀ s : State, s.err = none → s.phase ≠ .count →
    exec .build s = .next { s with err := some .sequence, errCmd := encode .build, errInfo := 0#4 }) ∧
  (∀ s : State, s.err = none → s.phase ≠ .built →
    exec .walk s = .next { s with err := some .sequence, errCmd := encode .walk, errInfo := 0#4 }) ∧
  (∀ (i : Instr) (s t : State), s.err = none → exec i s = .next t → t.err = some .sequence →
    ((∃ b, i = .count b) ∧ s.phase ≠ .count) ∨ (i = .build ∧ s.phase ≠ .count) ∨
      (i = .walk ∧ s.phase ≠ .built))

/-- R465: a command that raises an error has no effect but the record, except that DECODE keeps the
effects of the digits before the failing one, `k`. -/
def Obligations.ErrorsArePrecise : Prop :=
  ∀ (i : Instr) (s t : State) (code : ErrCode), s.err = none → exec i s = .next t →
    t.err = some code →
    ((∀ n d, i ≠ .decode n d) →
      t = { s with err := some code, errCmd := encode i, errInfo := 0#4 }) ∧
    (∀ n d, i = .decode n d → ∃ k u, k ≤ n.toNat ∧
      DigitsTakeEffect ((digitsOf d (n.toNat + 1)).take k) s u ∧ u.err = none ∧
      t = { u with err := some code, errCmd := encode i, errInfo := BitVec.ofNat 4 k })

/-- R456: while halted, the block discards every mutating command and every illegal word: no state
changes, nothing is pushed, and the word does not hold. The command the error halted on is not kept to be
tried again. -/
def Obligations.HaltedBlockDiscards : Prop :=
  (∀ s : State, s.err ≠ none →
    (∀ i, isMutating i = true → exec i s = .next s) ∧
    (∀ w, (∀ i, decode w ≠ .instr i) → execute w s = .next s)) ∧
  (∀ (i : Instr) (s t : State), s.err = none → exec i s = .next t → t.err ≠ none → t.held = s.held)

/-- R457: while halted, NOP, CLEAR and the read commands run; a read still holds for space. The answer
is the one the same state without the error record's halt would give, the STATUS word apart. -/
def Obligations.HaltedBlockAnswersReads : Prop :=
  ∀ s : State, s.err ≠ none →
    exec .nop s = .next s ∧
    exec .nop { s with err := none } = .next { s with err := none } ∧
    exec .clear s = exec .clear { s with err := none } ∧ (∃ t, exec .clear s = .next t ∧ t.err = none) ∧
    (∀ i, isRead i = true → s.rspQ.length < s.params.rspQDepth →
      ∃ v, exec i s = .next { s with rspQ := s.rspQ ++ [v] } ∧
        (i ≠ .rdreg 2#4 →
          exec i { s with err := none } = .next { s with err := none, rspQ := s.rspQ ++ [v] })) ∧
    (∀ i, isRead i = true → s.params.rspQDepth ≤ s.rspQ.length →
      exec i s = .next { s with held := some (encode i) })

/-- R455 and R461: once an error is recorded, no step changes the record but CLEAR and reset. -/
def Obligations.ErrorRecordStaysUntilClearOrReset : Prop :=
  ∀ s t : State, s.err ≠ none → step s = .next t →
    (t.err = s.err ∧ t.errCmd = s.errCmd ∧ t.errInfo = s.errInfo) ∨
    (∃ acts, s.hostActs = .assertReset :: acts) ∨ RunsNext s (encode .clear)

/-- R80 and R306: once BUILD has run, no step changes the counts or the tree but CLEAR and reset. -/
def Obligations.CountsAndTreeStayUntilClear : Prop :=
  ∀ s t : State, s.phase ≠ .count → step s = .next t →
    (t.freq = s.freq ∧ t.total = s.total ∧ t.ndist = s.ndist ∧ t.node = s.node ∧
      t.nnodes = s.nnodes ∧ t.root = s.root ∧ t.rootValid = s.rootValid) ∨
    (∃ acts, s.hostActs = .assertReset :: acts) ∨ RunsNext s (encode .clear)

/-- R138: a read changes nothing but RSP_Q, and repeating it pushes an equal word again; LDLEN, LDCHUNK,
WRCFG and NOP repeated leave the same state. -/
def Obligations.ReadsAndLoadsAreIdempotent : Prop :=
  (∀ (i : Instr) (s : State), isRead i = true → s.rspQ.length + 2 ≤ s.params.rspQDepth →
    ∃ v, performAll [i] s = { s with rspQ := s.rspQ ++ [v] } ∧
      performAll [i, i] s = { s with rspQ := s.rspQ ++ [v, v] }) ∧
  (∀ (i : Instr) (s : State),
    (i = .nop ∨ (∃ x, i = .wrcfg x) ∨ (∃ b n, i = .ldlen b n) ∨ (∃ b k d, i = .ldchunk b k d)) →
    performAll [i, i] s = performAll [i] s)

/-! ### Holds (spec/20_memory.md section 6) -/

/-- R150: a command that needs more space than its queue has free does not start: no state changes but
that the command is held, and no error is raised. With enough space it does not hold, and a command
discarded while halted never holds. -/
def Obligations.CommandsHoldForQueueSpace : Prop :=
  ∀ (i : Instr) (s : State),
    ((s.err = none ∨ isMutating i = false) → room i s < need i s →
      exec i s = .next { s with held := some (encode i) }) ∧
    (need i s ≤ room i s → ∀ t, exec i s = .next t → t.held = s.held) ∧
    (s.err ≠ none → isMutating i = true → ∀ t, exec i s = .next t → t.held = s.held)

/-- R532: if the host never pops (and does not reset), a command that holds for space holds for ever:
however many steps are taken, the block accepts no other command and `busy` stays 1. -/
def Obligations.AHoldWithoutPopsLastsForEver : Prop :=
  ∀ (s : State) (i : Instr), s.inReset = false → s.held = some (encode i) → s.hostActs = [] →
    (s.err = none ∨ isMutating i = false) → room i s < need i s →
    ∀ k, Host.Core.run Sys2Proof.core k s = .next s ∧ s.busy = true ∧ s.cmdReady = false

/-- R151: in a legal block every command's need fits its queue when that is empty, so no hold outlasts
draining the queue. -/
def Obligations.EveryNeedFitsAnEmptyQueue : Prop :=
  ∀ (i : Instr) (s : State), s.params.legal →
    need i s ≤ capacity i s ∧
    (s.encQ = [] → s.decQ = [] → s.rspQ = [] → s.held = none →
      ∃ t, exec i s = .next t ∧ t.held = none)

/-! ### The frequency counter (spec/40_frequency_counter.md) -/

/-- COUNT in phase COUNT, below the greatest total, counts one occurrence (R232, R233). -/
def Obligations.CountAddsOneOccurrence : Prop :=
  ∀ (b : Byte) (s : State), s.err = none → s.phase = .count → s.total ≠ 2 ^ s.params.freqW - 1 →
    ∃ t, exec (.count b) s = .next t ∧
      t.freqOf b = s.freqOf b + 1 ∧ (∀ c, c ≠ b → t.freqOf c = s.freqOf c) ∧
      t.total = s.total + 1 ∧
      (s.freqOf b = 0 → t.ndist = s.ndist + 1#9) ∧ (s.freqOf b ≠ 0 → t.ndist = s.ndist) ∧
      t = { s with freq := t.freq, total := t.total, ndist := t.ndist }

/-- COUNT with `TOTAL = 2^FREQ_W − 1` raises COUNT_OVERFLOW and changes no count (R232, R465). -/
def Obligations.CountAtTheGreatestTotalOverflows : Prop :=
  ∀ (b : Byte) (s : State), s.err = none → s.phase = .count → s.total = 2 ^ s.params.freqW - 1 →
    exec (.count b) s =
      .next { s with err := some .countOverflow, errCmd := encode (.count b), errInfo := 0#4 }

/-- R234: what is counted depends on the multiset of bytes counted and not on their order. -/
def Obligations.CountingIgnoresOrder : Prop :=
  ∀ (s : State) (xs ys : List Byte), xs.Perm ys → s.err = none → s.phase = .count →
    s.total + xs.length ≤ 2 ^ s.params.freqW - 1 →
    performAll (xs.map .count) s = performAll (ys.map .count) s ∧
    ∀ b, (performAll (xs.map .count) s).freqOf b = s.freqOf b + xs.count b

/-- RDFREQ and RDLEN answer the named entry, zero-extended (R240, R400). -/
def Obligations.RdfreqAndRdlenAnswerTheEntry : Prop :=
  ∀ (b : Byte) (s : State), s.rspQ.length < s.params.rspQDepth →
    exec (.rdfreq b) s = .next { s with rspQ := s.rspQ ++ [BitVec.ofNat 32 (s.freqOf b)] } ∧
    (∃ v, exec (.rdlen b) s = .next { s with rspQ := s.rspQ ++ [v] } ∧ v.toNat = (s.lenOf b).toNat)

/-! ### The tree builder (spec/41_tree_builder.md) -/

/-- R261, R262 and R263: the node memory BUILD makes is the one that merging the two least keys, again
and again, makes from the leaves, and it is the only such. -/
def Obligations.BuildMergesTheLeastKeys : Prop :=
  ∀ s : State, s.err = none → s.phase = .count →
    ∃ t, exec .build s = .next t ∧
      MergesTo (leafKeys s.leafNodes) s.leafNodes t.node ∧
      (∀ nodes, MergesTo (leafKeys s.leafNodes) s.leafNodes nodes → nodes = t.node) ∧
      t.phase = .built ∧
      t = { s with node := t.node, nnodes := t.nnodes, root := t.root, rootValid := t.rootValid,
                   phase := t.phase }

/-- R266: for `n ≥ 1` present symbols BUILD makes `2n − 1` nodes with the last as ROOT: leaves first in
ascending symbol order, then internal nodes above their children, each node but the root the child of
exactly one; no path from the root is longer than `n − 1`. -/
def Obligations.BuildMakesAStrictBinaryTree : Prop :=
  ∀ (s : State) (n : Nat), s.err = none → s.phase = .count → s.present.length = n → 1 ≤ n →
    ∃ t, exec .build s = .next t ∧
      t.node.length = 2 * n - 1 ∧ t.nnodes.toNat = 2 * n - 1 ∧ t.root.toNat = 2 * n - 2 ∧
      t.rootValid = true ∧
      t.node.take n = s.leafNodes ∧
      (∀ i m, n ≤ i → t.node[i]? = some m → InternalNode t.node i m) ∧
      (childIndices t.node).Perm (List.range (2 * n - 2)) ∧
      (∀ b p, PathTo t.node t.root.toNat p b → p.length ≤ n - 1 ∧ n - 1 ≤ 255)

/-- R264 and R265: with no present symbol BUILD makes no node and still moves to BUILT; with one, its
leaf is the root. -/
def Obligations.BuildOfNoneOrOneSymbol : Prop :=
  ∀ s : State, s.err = none → s.phase = .count →
    (s.present = [] →
      exec .build s = .next { s with node := [], nnodes := 0#10, root := 0#9, rootValid := false,
                                     phase := .built }) ∧
    (∀ b, s.present = [b] →
      exec .build s = .next { s with
        node := [{ freq := s.freqOf b, leaf := true, sym := b, left := 0#9, right := 0#9 }]
        nnodes := 1#10, root := 0#9, rootValid := true, phase := .built })

/-- R268: BUILD is a function of FREQ alone. -/
def Obligations.BuildDependsOnTheCountsAlone : Prop :=
  ∀ s s' : State, s.err = none → s'.err = none → s.phase = .count → s'.phase = .count →
    (∀ b, s.freqOf b = s'.freqOf b) →
    ∃ t t', exec .build s = .next t ∧ exec .build s' = .next t' ∧
      t.node = t'.node ∧ t.nnodes = t'.nnodes ∧ t.root = t'.root ∧ t.rootValid = t'.rootValid

/-- RDNODE answers 0 from NNODES up, else the frequency word or the link word with its four fields
(R280). -/
def Obligations.RdnodeAnswersTheNode : Prop :=
  ∀ (idx : BitVec 9) (ws : Bool) (s : State), s.rspQ.length < s.params.rspQDepth →
    (s.nnodes.toNat ≤ idx.toNat →
      exec (.rdnode idx ws) s = .next { s with rspQ := s.rspQ ++ [0#32] }) ∧
    (∀ n, idx.toNat < s.nnodes.toNat → s.node[idx.toNat]? = some n →
      exec (.rdnode idx false) s = .next { s with rspQ := s.rspQ ++ [BitVec.ofNat 32 n.freq] } ∧
      ∃ v : Word, exec (.rdnode idx true) s = .next { s with rspQ := s.rspQ ++ [v] } ∧
        v.extractLsb' 0 8 = n.sym ∧ v.getLsbD 8 = n.leaf ∧ v.extractLsb' 9 9 = n.left ∧
        v.extractLsb' 18 9 = n.right ∧ v.extractLsb' 27 5 = 0#5)

/-! ### The code tree walker (spec/42_code_tree_walker.md) -/

/-- WALK in phase BUILT rewrites the whole table and moves to CODED (R300): an empty tree gives the
empty table (R302), a leaf at the root gets the codeword "0" (R303), and otherwise the symbol of every
leaf is given the path from the root to it, 0 to the left and 1 to the right (R301), every symbol
without a leaf is left without a codeword, and the bits above a codeword are 0. -/
def Obligations.WalkWritesThePaths : Prop :=
  ∀ s : State, s.err = none → s.phase = .built → (s.rootValid = true → TreeAgrees s) →
    ∃ t, exec .walk s = .next t ∧ t.phase = .coded ∧
      t = { s with len := t.len, code := t.code, phase := t.phase } ∧
      (s.rootValid = false → ∀ b, t.lenOf b = 0#8 ∧ t.codeOf b = 0#256) ∧
      (∀ n, s.rootValid = true → s.node[s.root.toNat]? = some n → n.leaf = true →
        t.codeword n.sym = [false] ∧ t.codeOf n.sym = 0#256 ∧
        ∀ b, b ≠ n.sym → t.lenOf b = 0#8 ∧ t.codeOf b = 0#256) ∧
      (∀ n, s.rootValid = true → s.node[s.root.toNat]? = some n → n.leaf = false →
        (∀ b p, PathTo s.node s.root.toNat p b →
          t.codeword b = p ∧ ∀ j, p.length ≤ j → (t.codeOf b).getLsbD j = false) ∧
        (∀ b, (∀ p, ¬ PathTo s.node s.root.toNat p b) → t.lenOf b = 0#8 ∧ t.codeOf b = 0#256))

/-- R304: the table WALK writes has a codeword for exactly the present symbols, is prefix-free and
bijective, has no empty codeword and none longer than `max(1, NDIST − 1)`, and its Kraft sum is 1, or
1/2 for a single symbol (here scaled by `2^255`). -/
def Obligations.WalkedTablesArePrefixFree : Prop :=
  ∀ s : State, Invariant s → s.err = none → s.phase = .built →
    ∃ t, exec .walk s = .next t ∧
      (∀ b, t.lenOf b ≠ 0#8 ↔ s.freqOf b ≠ 0) ∧
      CodesPrefixFree t ∧
      (∀ b, hasCode t b → 1 ≤ (t.codeword b).length ∧
        (t.codeword b).length ≤ max 1 (s.ndist.toNat - 1) ∧ max 1 (s.ndist.toNat - 1) ≤ 255) ∧
      (2 ≤ s.ndist.toNat → (s.present.map fun b => 2 ^ (255 - (t.lenOf b).toNat)).sum = 2 ^ 255) ∧
      (s.ndist.toNat = 1 → (s.present.map fun b => 2 ^ (255 - (t.lenOf b).toNat)).sum = 2 ^ 254) ∧
      (∀ a b, hasCode t a → hasCode t b → t.codeword a = t.codeword b → a = b)

/-! ### The encoder (spec/43_encoder.md) -/

/-- ENCODE of a symbol with a codeword pushes its digits in stream order, once ENC_Q has room for them,
and ENCBITS grows by their number modulo 2^32; without a codeword it raises NO_CODE and pushes nothing
(R332). -/
def Obligations.EncodePushesTheCodeword : Prop :=
  ∀ (b : Byte) (s : State), s.err = none →
    (s.lenOf b ≠ 0#8 → (s.lenOf b).toNat ≤ s.params.encQDepth - s.encQ.length →
      ∃ ds : Digits, exec (.encode b) s =
          .next { s with encQ := s.encQ ++ ds
                         encBits := s.encBits + BitVec.ofNat 32 (s.lenOf b).toNat } ∧
        ds.length = (s.lenOf b).toNat ∧
        ∀ j, j < ds.length → ds[j]? = some ((s.codeOf b).getLsbD j)) ∧
    (s.lenOf b = 0#8 → exec (.encode b) s =
      .next { s with err := some .noCode, errCmd := encode (.encode b), errInfo := 0#4 })

/-- R333: the stream of a byte sequence is the concatenation of its bytes' codewords. -/
def Obligations.EncodedStreamIsTheConcatenation : Prop :=
  ∀ (s : State) (text : List Byte), s.err = none → (∀ b ∈ text, hasCode s b) →
    s.encQ.length + (text.flatMap s.codeword).length ≤ s.params.encQDepth →
    performAll (text.map .encode) s =
      { s with encQ := s.encQ ++ text.flatMap s.codeword
               encBits := s.encBits + BitVec.ofNat 32 (text.map fun b => (s.lenOf b).toNat).sum }

/-- R334: what ENCODE pushes is read from LEN and CODE of its own symbol and from nothing else. -/
def Obligations.EncodeReadsItsOwnEntryAlone : Prop :=
  ∀ (b : Byte) (s s' : State), s.err = none → s'.err = none →
    s.lenOf b = s'.lenOf b → s.codeOf b = s'.codeOf b →
    (s.lenOf b).toNat ≤ s.params.encQDepth - s.encQ.length →
    (s'.lenOf b).toNat ≤ s'.params.encQDepth - s'.encQ.length →
    ∃ t t' c, exec (.encode b) s = .next t ∧ exec (.encode b) s' = .next t' ∧
      t.encQ = s.encQ ++ c ∧ t'.encQ = s'.encQ ++ c ∧ t.err = t'.err

/-! ### The decoder (spec/44_decoder.md) -/

/-- R360, R364 and R366: DECODE feeds its `cnt + 1` digits one by one. Where no digit raises an error it
leaves what the digits leave; a digit with two matches raises AMBIGUOUS, and one that brings the
candidate to 255 digits without a match raises NO_MATCH, with the digit's number in ERRINFO and the
effects of the digits before it kept. -/
def Obligations.DecodeFeedsDigitByDigit : Prop :=
  ∀ (cnt : BitVec 4) (data : BitVec 16) (s : State), s.err = none →
    cnt.toNat + 1 ≤ s.params.decQDepth - s.decQ.length →
    (∀ t, DigitsTakeEffect (digitsOf data (cnt.toNat + 1)) s t →
      exec (.decode cnt data) s = .next t) ∧
    (∀ k u, k ≤ cnt.toNat → DigitsTakeEffect ((digitsOf data (cnt.toNat + 1)).take k) s u →
      ((∃ a b, a ≠ b ∧ InMatch u (u.candidate ++ [data.getLsbD k]) a ∧
          InMatch u (u.candidate ++ [data.getLsbD k]) b) →
        exec (.decode cnt data) s = .next { u with
          err := some .ambiguous, errCmd := encode (.decode cnt data)
          errInfo := BitVec.ofNat 4 k }) ∧
      ((∀ x, ¬ InMatch u (u.candidate ++ [data.getLsbD k]) x) →
          (u.candidate ++ [data.getLsbD k]).length = 255 →
        exec (.decode cnt data) s = .next { u with
          err := some .noMatch, errCmd := encode (.decode cnt data)
          errInfo := BitVec.ofNat 4 k })) ∧
    ((∃ t, DigitsTakeEffect (digitsOf data (cnt.toNat + 1)) s t) ∨
      ∃ t, exec (.decode cnt data) s = .next t ∧ (t.err = some .ambiguous ∨ t.err = some .noMatch))

/-- R199: DECODE ignores the data bits above the `cnt + 1` that it carries; only the recorded command
word, when there is an error, shows them. -/
def Obligations.DecodeIgnoresUncarriedBits : Prop :=
  ∀ (cnt : BitVec 4) (data data' : BitVec 16) (s : State),
    (∀ j, j ≤ cnt.toNat → data.getLsbD j = data'.getLsbD j) →
    cnt.toNat + 1 ≤ s.params.decQDepth - s.decQ.length →
    ∃ t t', exec (.decode cnt data) s = .next t ∧ exec (.decode cnt data') s = .next t' ∧
      t' = { t with errCmd := t'.errCmd } ∧ (t.err = none → t' = t)

/-- R354: with a prefix-free table the matcher finds at most one entry for any candidate, so that no
DECODE records AMBIGUOUS, and a codeword that begins a stream is the only one that does. -/
def Obligations.PrefixFreeTablesMatchOnce : Prop :=
  ∀ s : State, CodesPrefixFree s →
    (∀ c : Digits, 1 ≤ c.length → (s.matches c).length ≤ 1) ∧
    (s.err = none → ∀ cnt data t, exec (.decode cnt data) s = .next t → t.err ≠ some .ambiguous) ∧
    (∀ (c : Digits) (a b : Byte), 1 ≤ c.length → InMatch s c a → InMatch s c b → a = b) ∧
    (∀ (stream : Digits) (a b : Byte), hasCode s a → hasCode s b →
      s.codeword a <+: stream → s.codeword b <+: stream → a = b)

/-- R368: fed the digits of any codeword from an empty candidate, the matcher emits the shortest
codeword that is a prefix of it, so that a codeword with another as a proper prefix is never matched.
Here `p`, the codeword of `a`, is a prefix of the digits fed and no codeword is a proper prefix of `p`
or equal to it. -/
def Obligations.TheShorterCodewordWins : Prop :=
  ∀ (s : State) (a : Byte) (ds : Digits), s.candLen = 0#8 → hasCode s a →
    (∀ b, hasCode s b → s.codeword b <+: s.codeword a → b = a) →
    ∀ t, DigitsTakeEffect (s.codeword a ++ ds) s t →
      DigitsTakeEffect ds
        { s with decQ := s.decQ ++ [a], decSyms := s.decSyms + 1#32, cand := 0#255, candLen := 0#8 } t

/-- With a prefix-free table, DECODE commands fed the codewords of a byte sequence give back exactly
that sequence, wherever the codewords fall across the commands (R350, R354, R360). -/
def Obligations.DecodingReadsBackTheSymbols : Prop :=
  ∀ (s : State) (text : List Byte), s.err = none → CandidateFits s → s.candLen = 0#8 →
    CodesPrefixFree s → (∀ b ∈ text, hasCode s b) →
    s.decQ.length + text.length + 16 ≤ s.params.decQDepth →
    performAll (decodeAll (text.flatMap s.codeword)) s =
      { s with decQ := s.decQ ++ text, decSyms := s.decSyms + BitVec.ofNat 32 text.length }

/-- R372: counting, building, walking and encoding a byte sequence and then decoding the stream in the
same block gives back the sequence, and raises no error. The queues are empty before and deep enough
that no command holds. -/
def Obligations.RoundTripRestoresTheInput : Prop :=
  ∀ (s : State) (text : List Byte), text.length ≤ 2 ^ s.params.freqW - 1 →
    s.encQ = [] → s.decQ = [] → 255 * text.length ≤ s.params.encQDepth →
    text.length + 16 ≤ s.params.decQDepth →
    ∀ t u, t = performAll (buildTableRun text ++ encodeAll text) s →
      u = performAll (decodeAll t.encQ ++ [.decend]) t →
      t.err = none ∧ u.err = none ∧ u.decQ = text ∧ u.candLen = 0#8

/-- DECEND with an empty candidate does nothing; else it discards the candidate when LAX_END is 1 and
raises TRUNCATED, keeping the candidate, when it is 0 (R370). -/
def Obligations.DecendEndsTheStream : Prop :=
  ∀ s : State, s.err = none →
    (s.candLen = 0#8 → exec .decend s = .next s) ∧
    (s.candLen ≠ 0#8 → s.laxEnd = true →
      exec .decend s = .next { s with cand := 0#255, candLen := 0#8 }) ∧
    (s.candLen ≠ 0#8 → s.laxEnd = false →
      exec .decend s =
        .next { s with err := some .truncated, errCmd := encode .decend, errInfo := 0#4 })

/-! ### Code-table access (spec/45_code_table_access.md) -/

/-- LDLEN writes one length, and LDCHUNK the sixteen bits of one chunk, and nothing else (R392, R394,
R128). -/
def Obligations.LoadsWriteOneEntry : Prop :=
  ∀ (b : Byte) (s : State), s.err = none →
    (∀ n, ∃ t, exec (.ldlen b n) s = .next t ∧ t.lenOf b = n ∧
      (∀ c, c ≠ b → t.lenOf c = s.lenOf c) ∧ t = { s with len := t.len }) ∧
    (∀ k data, ∃ t, exec (.ldchunk b k data) s = .next t ∧
      (∀ j, j < 256 → (t.codeOf b).getLsbD j =
        if 16 * k.toNat ≤ j ∧ j < 16 * k.toNat + 16 then data.getLsbD (j - 16 * k.toNat)
        else (s.codeOf b).getLsbD j) ∧
      (∀ c, c ≠ b → t.codeOf c = s.codeOf c) ∧ t = { s with code := t.code })

/-- RDCHUNK answers the sixteen bits of the chunk, zero-extended (R402, R128). -/
def Obligations.RdchunkAnswersTheChunk : Prop :=
  ∀ (b : Byte) (k : BitVec 4) (s : State), s.rspQ.length < s.params.rspQDepth →
    ∃ v : Word, exec (.rdchunk b k) s = .next { s with rspQ := s.rspQ ++ [v] } ∧
      (∀ j, j < 16 → v.getLsbD j = (s.codeOf b).getLsbD (16 * k.toNat + j)) ∧
      (∀ j, 16 ≤ j → v.getLsbD j = false)

/-- R214: the commands of `LDCODE b, "c"` give `b` the codeword `c` and touch no other symbol's entry
and nothing else. -/
def Obligations.LdcodeLoadsTheCodeword : Prop :=
  ∀ (b : Byte) (c : Digits) (s : State), s.err = none → 1 ≤ c.length → c.length ≤ 255 →
    ∃ t, performAll (loadCode b c) s = t ∧ t.codeword b = c ∧ hasCode t b ∧
      (∀ a, a ≠ b → t.lenOf a = s.lenOf a ∧ t.codeOf a = s.codeOf a) ∧
      (∀ j, 16 * ((c.length + 15) / 16) ≤ j → (t.codeOf b).getLsbD j = (s.codeOf b).getLsbD j) ∧
      t = { s with len := t.len, code := t.code }

/-- R215: the seventeen responses to `RDCODE b` are the length and the sixteen chunks, from which digit
`16k + j` of the codeword is bit `j` of response `k + 1`. -/
def Obligations.RdcodeReadsTheCodeword : Prop :=
  ∀ (b : Byte) (s : State), s.rspQ.length + 17 ≤ s.params.rspQDepth →
    ∃ vs : List Word, performAll (readCode b) s = { s with rspQ := s.rspQ ++ vs } ∧
      vs.length = 17 ∧ (vs.map BitVec.toNat).head? = some (s.codeword b).length ∧
      ∀ k j v, k < 16 → j < 16 → vs[k + 1]? = some v → 16 * k + j < (s.codeword b).length →
        (s.codeword b)[16 * k + j]? = some (v.getLsbD j)

/-! ### Control (spec/46_control.md), registers and flags (spec/10_state.md) -/

/-- NOP does nothing and WRCFG writes `CFG.LAX_END` alone (R420, R426). -/
def Obligations.NopAndWrcfgComplete : Prop :=
  ∀ s : State, exec .nop s = .next s ∧
    (∀ x, s.err = none → exec (.wrcfg x) s = .next { s with laxEnd := x })

/-- CLEAR returns all run state to its reset value and leaves CFG, the queues, the parameters and the
host's side as they are, halted or not (R422, R502). -/
def Obligations.ClearStartsANewRun : Prop :=
  ∀ s : State, ∃ t, exec .clear s = .next t ∧
    (∀ b, t.freqOf b = 0 ∧ t.lenOf b = 0#8 ∧ t.codeOf b = 0#256) ∧
    t.total = 0 ∧ t.ndist = 0#9 ∧ t.nnodes = 0#10 ∧ t.root = 0#9 ∧ t.rootValid = false ∧
    t.cand = 0#255 ∧ t.candLen = 0#8 ∧ t.phase = .count ∧ t.err = none ∧ t.errCmd = 0#32 ∧
    t.errInfo = 0#4 ∧ t.encBits = 0#32 ∧ t.decSyms = 0#32 ∧
    t = { s with freq := t.freq, len := t.len, code := t.code, total := t.total, ndist := t.ndist
                 node := t.node, nnodes := t.nnodes, root := t.root, rootValid := t.rootValid
                 cand := t.cand, candLen := t.candLen, phase := t.phase
                 err := t.err, errCmd := t.errCmd, errInfo := t.errInfo
                 encBits := t.encBits, decSyms := t.decSyms }

/-- RDREG answers the register of R54, zero-extended; ROOT reads 0 without a tree (R64), and the
reserved numbers 13 to 15 read 0 (R68). -/
def Obligations.RdregAnswersTheRegister : Prop :=
  ∀ (r : BitVec 4) (s : State), s.rspQ.length < s.params.rspQDepth →
    ∃ v : Word, exec (.rdreg r) s = .next { s with rspQ := s.rspQ ++ [v] } ∧
      (r = 0#4 → v = 0x48554631#32) ∧
      (r = 1#4 → s.params.legal → v.toNat = s.params.freqW) ∧
      (r = 2#4 → v.getLsbD 8 = s.rootValid ∧ v.extractLsb' 0 2 = s.phase.bits ∧
        v.extractLsb' 4 4 = s.errBits ∧ v.extractLsb' 2 2 = 0#2 ∧ v.extractLsb' 9 23 = 0#23) ∧
      (r = 3#4 → v = if s.laxEnd then 1#32 else 0#32) ∧
      (r = 4#4 → v = s.errCmd) ∧
      (r = 5#4 → v.toNat = s.errInfo.toNat) ∧
      (r = 6#4 → v = BitVec.ofNat 32 s.total) ∧
      (r = 7#4 → v.toNat = s.ndist.toNat) ∧
      (r = 8#4 → v.toNat = s.nnodes.toNat) ∧
      (r = 9#4 → v.toNat = if s.rootValid then s.root.toNat else 0) ∧
      (r = 10#4 → v.toNat = s.candLen.toNat) ∧
      (r = 11#4 → v = s.encBits) ∧
      (r = 12#4 → v = s.decSyms) ∧
      (13 ≤ r.toNat → v = 0#32)

/-- The error codes are those of R451, PHASE reads 0, 1 and 2 (R57), and `irq_err` is 1 exactly when
ERR is not 0, which is when the block is halted (R455, R470). -/
def Obligations.StatusFieldsHaveTheirValues : Prop :=
  (∀ s : State, (s.irqErr = true ↔ s.errBits ≠ 0#4) ∧ (s.irqErr = true ↔ s.err ≠ none) ∧
    (s.halted = true ↔ s.err ≠ none) ∧ s.errBits.toNat ≤ 7 ∧ s.phase.bits.toNat ≤ 2) ∧
  ([ErrCode.illegal, .sequence, .countOverflow, .noCode, .noMatch, .ambiguous, .truncated].map
    ErrCode.bits = [1#4, 2#4, 3#4, 4#4, 5#4, 6#4, 7#4]) ∧
  ([Phase.count, .built, .coded].map Phase.bits = [0#2, 1#2, 2#2])
end

