-- ==== Sys2Proof/Laws/State.lean ====
section
/-! SUPPORT. One lemma per field of the state per update: what the update leaves in that field.

Fields an update does not write come out unchanged. The fields it writes are given by the update's own
lemmas in the other files of this folder. -/

namespace Sys2Proof.Machine

/-! ### `setFreq` (FREQ[b] <- v) -/

section

variable (s : State) (b : Byte) (v : Nat)

@[simp] theorem State.setFreq_params : (s.setFreq b v).params = s.params := rfl
@[simp] theorem State.setFreq_total : (s.setFreq b v).total = s.total := rfl
@[simp] theorem State.setFreq_ndist : (s.setFreq b v).ndist = s.ndist := rfl
@[simp] theorem State.setFreq_node : (s.setFreq b v).node = s.node := rfl
@[simp] theorem State.setFreq_nnodes : (s.setFreq b v).nnodes = s.nnodes := rfl
@[simp] theorem State.setFreq_root : (s.setFreq b v).root = s.root := rfl
@[simp] theorem State.setFreq_rootValid : (s.setFreq b v).rootValid = s.rootValid := rfl
@[simp] theorem State.setFreq_len : (s.setFreq b v).len = s.len := rfl
@[simp] theorem State.setFreq_code : (s.setFreq b v).code = s.code := rfl
@[simp] theorem State.setFreq_cand : (s.setFreq b v).cand = s.cand := rfl
@[simp] theorem State.setFreq_candLen : (s.setFreq b v).candLen = s.candLen := rfl
@[simp] theorem State.setFreq_phase : (s.setFreq b v).phase = s.phase := rfl
@[simp] theorem State.setFreq_err : (s.setFreq b v).err = s.err := rfl
@[simp] theorem State.setFreq_errCmd : (s.setFreq b v).errCmd = s.errCmd := rfl
@[simp] theorem State.setFreq_errInfo : (s.setFreq b v).errInfo = s.errInfo := rfl
@[simp] theorem State.setFreq_laxEnd : (s.setFreq b v).laxEnd = s.laxEnd := rfl
@[simp] theorem State.setFreq_encBits : (s.setFreq b v).encBits = s.encBits := rfl
@[simp] theorem State.setFreq_decSyms : (s.setFreq b v).decSyms = s.decSyms := rfl
@[simp] theorem State.setFreq_encQ : (s.setFreq b v).encQ = s.encQ := rfl
@[simp] theorem State.setFreq_decQ : (s.setFreq b v).decQ = s.decQ := rfl
@[simp] theorem State.setFreq_rspQ : (s.setFreq b v).rspQ = s.rspQ := rfl
@[simp] theorem State.setFreq_held : (s.setFreq b v).held = s.held := rfl
@[simp] theorem State.setFreq_inReset : (s.setFreq b v).inReset = s.inReset := rfl
@[simp] theorem State.setFreq_cmdIn : (s.setFreq b v).cmdIn = s.cmdIn := rfl
@[simp] theorem State.setFreq_hostActs : (s.setFreq b v).hostActs = s.hostActs := rfl
@[simp] theorem State.setFreq_encOut : (s.setFreq b v).encOut = s.encOut := rfl
@[simp] theorem State.setFreq_decOut : (s.setFreq b v).decOut = s.decOut := rfl
@[simp] theorem State.setFreq_rspOut : (s.setFreq b v).rspOut = s.rspOut := rfl

end

/-! ### `setLen` (LEN[b] <- v) -/

section

variable (s : State) (b : Byte) (v : BitVec 8)

@[simp] theorem State.setLen_params : (s.setLen b v).params = s.params := rfl
@[simp] theorem State.setLen_freq : (s.setLen b v).freq = s.freq := rfl
@[simp] theorem State.setLen_total : (s.setLen b v).total = s.total := rfl
@[simp] theorem State.setLen_ndist : (s.setLen b v).ndist = s.ndist := rfl
@[simp] theorem State.setLen_node : (s.setLen b v).node = s.node := rfl
@[simp] theorem State.setLen_nnodes : (s.setLen b v).nnodes = s.nnodes := rfl
@[simp] theorem State.setLen_root : (s.setLen b v).root = s.root := rfl
@[simp] theorem State.setLen_rootValid : (s.setLen b v).rootValid = s.rootValid := rfl
@[simp] theorem State.setLen_code : (s.setLen b v).code = s.code := rfl
@[simp] theorem State.setLen_cand : (s.setLen b v).cand = s.cand := rfl
@[simp] theorem State.setLen_candLen : (s.setLen b v).candLen = s.candLen := rfl
@[simp] theorem State.setLen_phase : (s.setLen b v).phase = s.phase := rfl
@[simp] theorem State.setLen_err : (s.setLen b v).err = s.err := rfl
@[simp] theorem State.setLen_errCmd : (s.setLen b v).errCmd = s.errCmd := rfl
@[simp] theorem State.setLen_errInfo : (s.setLen b v).errInfo = s.errInfo := rfl
@[simp] theorem State.setLen_laxEnd : (s.setLen b v).laxEnd = s.laxEnd := rfl
@[simp] theorem State.setLen_encBits : (s.setLen b v).encBits = s.encBits := rfl
@[simp] theorem State.setLen_decSyms : (s.setLen b v).decSyms = s.decSyms := rfl
@[simp] theorem State.setLen_encQ : (s.setLen b v).encQ = s.encQ := rfl
@[simp] theorem State.setLen_decQ : (s.setLen b v).decQ = s.decQ := rfl
@[simp] theorem State.setLen_rspQ : (s.setLen b v).rspQ = s.rspQ := rfl
@[simp] theorem State.setLen_held : (s.setLen b v).held = s.held := rfl
@[simp] theorem State.setLen_inReset : (s.setLen b v).inReset = s.inReset := rfl
@[simp] theorem State.setLen_cmdIn : (s.setLen b v).cmdIn = s.cmdIn := rfl
@[simp] theorem State.setLen_hostActs : (s.setLen b v).hostActs = s.hostActs := rfl
@[simp] theorem State.setLen_encOut : (s.setLen b v).encOut = s.encOut := rfl
@[simp] theorem State.setLen_decOut : (s.setLen b v).decOut = s.decOut := rfl
@[simp] theorem State.setLen_rspOut : (s.setLen b v).rspOut = s.rspOut := rfl

end

/-! ### `setCode` (CODE[b] <- v) -/

section

variable (s : State) (b : Byte) (v : BitVec 256)

@[simp] theorem State.setCode_params : (s.setCode b v).params = s.params := rfl
@[simp] theorem State.setCode_freq : (s.setCode b v).freq = s.freq := rfl
@[simp] theorem State.setCode_total : (s.setCode b v).total = s.total := rfl
@[simp] theorem State.setCode_ndist : (s.setCode b v).ndist = s.ndist := rfl
@[simp] theorem State.setCode_node : (s.setCode b v).node = s.node := rfl
@[simp] theorem State.setCode_nnodes : (s.setCode b v).nnodes = s.nnodes := rfl
@[simp] theorem State.setCode_root : (s.setCode b v).root = s.root := rfl
@[simp] theorem State.setCode_rootValid : (s.setCode b v).rootValid = s.rootValid := rfl
@[simp] theorem State.setCode_len : (s.setCode b v).len = s.len := rfl
@[simp] theorem State.setCode_cand : (s.setCode b v).cand = s.cand := rfl
@[simp] theorem State.setCode_candLen : (s.setCode b v).candLen = s.candLen := rfl
@[simp] theorem State.setCode_phase : (s.setCode b v).phase = s.phase := rfl
@[simp] theorem State.setCode_err : (s.setCode b v).err = s.err := rfl
@[simp] theorem State.setCode_errCmd : (s.setCode b v).errCmd = s.errCmd := rfl
@[simp] theorem State.setCode_errInfo : (s.setCode b v).errInfo = s.errInfo := rfl
@[simp] theorem State.setCode_laxEnd : (s.setCode b v).laxEnd = s.laxEnd := rfl
@[simp] theorem State.setCode_encBits : (s.setCode b v).encBits = s.encBits := rfl
@[simp] theorem State.setCode_decSyms : (s.setCode b v).decSyms = s.decSyms := rfl
@[simp] theorem State.setCode_encQ : (s.setCode b v).encQ = s.encQ := rfl
@[simp] theorem State.setCode_decQ : (s.setCode b v).decQ = s.decQ := rfl
@[simp] theorem State.setCode_rspQ : (s.setCode b v).rspQ = s.rspQ := rfl
@[simp] theorem State.setCode_held : (s.setCode b v).held = s.held := rfl
@[simp] theorem State.setCode_inReset : (s.setCode b v).inReset = s.inReset := rfl
@[simp] theorem State.setCode_cmdIn : (s.setCode b v).cmdIn = s.cmdIn := rfl
@[simp] theorem State.setCode_hostActs : (s.setCode b v).hostActs = s.hostActs := rfl
@[simp] theorem State.setCode_encOut : (s.setCode b v).encOut = s.encOut := rfl
@[simp] theorem State.setCode_decOut : (s.setCode b v).decOut = s.decOut := rfl
@[simp] theorem State.setCode_rspOut : (s.setCode b v).rspOut = s.rspOut := rfl

end

/-! ### `respond` (respond) -/

section

variable (s : State) (v : Word)

@[simp] theorem State.respond_params : (s.respond v).params = s.params := rfl
@[simp] theorem State.respond_freq : (s.respond v).freq = s.freq := rfl
@[simp] theorem State.respond_total : (s.respond v).total = s.total := rfl
@[simp] theorem State.respond_ndist : (s.respond v).ndist = s.ndist := rfl
@[simp] theorem State.respond_node : (s.respond v).node = s.node := rfl
@[simp] theorem State.respond_nnodes : (s.respond v).nnodes = s.nnodes := rfl
@[simp] theorem State.respond_root : (s.respond v).root = s.root := rfl
@[simp] theorem State.respond_rootValid : (s.respond v).rootValid = s.rootValid := rfl
@[simp] theorem State.respond_len : (s.respond v).len = s.len := rfl
@[simp] theorem State.respond_code : (s.respond v).code = s.code := rfl
@[simp] theorem State.respond_cand : (s.respond v).cand = s.cand := rfl
@[simp] theorem State.respond_candLen : (s.respond v).candLen = s.candLen := rfl
@[simp] theorem State.respond_phase : (s.respond v).phase = s.phase := rfl
@[simp] theorem State.respond_err : (s.respond v).err = s.err := rfl
@[simp] theorem State.respond_errCmd : (s.respond v).errCmd = s.errCmd := rfl
@[simp] theorem State.respond_errInfo : (s.respond v).errInfo = s.errInfo := rfl
@[simp] theorem State.respond_laxEnd : (s.respond v).laxEnd = s.laxEnd := rfl
@[simp] theorem State.respond_encBits : (s.respond v).encBits = s.encBits := rfl
@[simp] theorem State.respond_decSyms : (s.respond v).decSyms = s.decSyms := rfl
@[simp] theorem State.respond_encQ : (s.respond v).encQ = s.encQ := rfl
@[simp] theorem State.respond_decQ : (s.respond v).decQ = s.decQ := rfl
@[simp] theorem State.respond_held : (s.respond v).held = s.held := rfl
@[simp] theorem State.respond_inReset : (s.respond v).inReset = s.inReset := rfl
@[simp] theorem State.respond_cmdIn : (s.respond v).cmdIn = s.cmdIn := rfl
@[simp] theorem State.respond_hostActs : (s.respond v).hostActs = s.hostActs := rfl
@[simp] theorem State.respond_encOut : (s.respond v).encOut = s.encOut := rfl
@[simp] theorem State.respond_decOut : (s.respond v).decOut = s.decOut := rfl
@[simp] theorem State.respond_rspOut : (s.respond v).rspOut = s.rspOut := rfl

end

/-! ### `countSymbol` (COUNT) -/

section

variable (s : State) (b : Byte)

@[simp] theorem State.countSymbol_params : (s.countSymbol b).params = s.params := rfl
@[simp] theorem State.countSymbol_node : (s.countSymbol b).node = s.node := rfl
@[simp] theorem State.countSymbol_nnodes : (s.countSymbol b).nnodes = s.nnodes := rfl
@[simp] theorem State.countSymbol_root : (s.countSymbol b).root = s.root := rfl
@[simp] theorem State.countSymbol_rootValid : (s.countSymbol b).rootValid = s.rootValid := rfl
@[simp] theorem State.countSymbol_len : (s.countSymbol b).len = s.len := rfl
@[simp] theorem State.countSymbol_code : (s.countSymbol b).code = s.code := rfl
@[simp] theorem State.countSymbol_cand : (s.countSymbol b).cand = s.cand := rfl
@[simp] theorem State.countSymbol_candLen : (s.countSymbol b).candLen = s.candLen := rfl
@[simp] theorem State.countSymbol_phase : (s.countSymbol b).phase = s.phase := rfl
@[simp] theorem State.countSymbol_err : (s.countSymbol b).err = s.err := rfl
@[simp] theorem State.countSymbol_errCmd : (s.countSymbol b).errCmd = s.errCmd := rfl
@[simp] theorem State.countSymbol_errInfo : (s.countSymbol b).errInfo = s.errInfo := rfl
@[simp] theorem State.countSymbol_laxEnd : (s.countSymbol b).laxEnd = s.laxEnd := rfl
@[simp] theorem State.countSymbol_encBits : (s.countSymbol b).encBits = s.encBits := rfl
@[simp] theorem State.countSymbol_decSyms : (s.countSymbol b).decSyms = s.decSyms := rfl
@[simp] theorem State.countSymbol_encQ : (s.countSymbol b).encQ = s.encQ := rfl
@[simp] theorem State.countSymbol_decQ : (s.countSymbol b).decQ = s.decQ := rfl
@[simp] theorem State.countSymbol_rspQ : (s.countSymbol b).rspQ = s.rspQ := rfl
@[simp] theorem State.countSymbol_held : (s.countSymbol b).held = s.held := rfl
@[simp] theorem State.countSymbol_inReset : (s.countSymbol b).inReset = s.inReset := rfl
@[simp] theorem State.countSymbol_cmdIn : (s.countSymbol b).cmdIn = s.cmdIn := rfl
@[simp] theorem State.countSymbol_hostActs : (s.countSymbol b).hostActs = s.hostActs := rfl
@[simp] theorem State.countSymbol_encOut : (s.countSymbol b).encOut = s.encOut := rfl
@[simp] theorem State.countSymbol_decOut : (s.countSymbol b).decOut = s.decOut := rfl
@[simp] theorem State.countSymbol_rspOut : (s.countSymbol b).rspOut = s.rspOut := rfl

end

/-! ### `buildTree` (BUILD) -/

section

variable (s : State)

@[simp] theorem State.buildTree_params : (s.buildTree).params = s.params := rfl
@[simp] theorem State.buildTree_freq : (s.buildTree).freq = s.freq := rfl
@[simp] theorem State.buildTree_total : (s.buildTree).total = s.total := rfl
@[simp] theorem State.buildTree_ndist : (s.buildTree).ndist = s.ndist := rfl
@[simp] theorem State.buildTree_len : (s.buildTree).len = s.len := rfl
@[simp] theorem State.buildTree_code : (s.buildTree).code = s.code := rfl
@[simp] theorem State.buildTree_cand : (s.buildTree).cand = s.cand := rfl
@[simp] theorem State.buildTree_candLen : (s.buildTree).candLen = s.candLen := rfl
@[simp] theorem State.buildTree_err : (s.buildTree).err = s.err := rfl
@[simp] theorem State.buildTree_errCmd : (s.buildTree).errCmd = s.errCmd := rfl
@[simp] theorem State.buildTree_errInfo : (s.buildTree).errInfo = s.errInfo := rfl
@[simp] theorem State.buildTree_laxEnd : (s.buildTree).laxEnd = s.laxEnd := rfl
@[simp] theorem State.buildTree_encBits : (s.buildTree).encBits = s.encBits := rfl
@[simp] theorem State.buildTree_decSyms : (s.buildTree).decSyms = s.decSyms := rfl
@[simp] theorem State.buildTree_encQ : (s.buildTree).encQ = s.encQ := rfl
@[simp] theorem State.buildTree_decQ : (s.buildTree).decQ = s.decQ := rfl
@[simp] theorem State.buildTree_rspQ : (s.buildTree).rspQ = s.rspQ := rfl
@[simp] theorem State.buildTree_held : (s.buildTree).held = s.held := rfl
@[simp] theorem State.buildTree_inReset : (s.buildTree).inReset = s.inReset := rfl
@[simp] theorem State.buildTree_cmdIn : (s.buildTree).cmdIn = s.cmdIn := rfl
@[simp] theorem State.buildTree_hostActs : (s.buildTree).hostActs = s.hostActs := rfl
@[simp] theorem State.buildTree_encOut : (s.buildTree).encOut = s.encOut := rfl
@[simp] theorem State.buildTree_decOut : (s.buildTree).decOut = s.decOut := rfl
@[simp] theorem State.buildTree_rspOut : (s.buildTree).rspOut = s.rspOut := rfl

end

/-! ### `writeCodes` (WALK) -/

section

variable (s : State)

@[simp] theorem State.writeCodes_params : (s.writeCodes).params = s.params := rfl
@[simp] theorem State.writeCodes_freq : (s.writeCodes).freq = s.freq := rfl
@[simp] theorem State.writeCodes_total : (s.writeCodes).total = s.total := rfl
@[simp] theorem State.writeCodes_ndist : (s.writeCodes).ndist = s.ndist := rfl
@[simp] theorem State.writeCodes_node : (s.writeCodes).node = s.node := rfl
@[simp] theorem State.writeCodes_nnodes : (s.writeCodes).nnodes = s.nnodes := rfl
@[simp] theorem State.writeCodes_root : (s.writeCodes).root = s.root := rfl
@[simp] theorem State.writeCodes_rootValid : (s.writeCodes).rootValid = s.rootValid := rfl
@[simp] theorem State.writeCodes_cand : (s.writeCodes).cand = s.cand := rfl
@[simp] theorem State.writeCodes_candLen : (s.writeCodes).candLen = s.candLen := rfl
@[simp] theorem State.writeCodes_err : (s.writeCodes).err = s.err := rfl
@[simp] theorem State.writeCodes_errCmd : (s.writeCodes).errCmd = s.errCmd := rfl
@[simp] theorem State.writeCodes_errInfo : (s.writeCodes).errInfo = s.errInfo := rfl
@[simp] theorem State.writeCodes_laxEnd : (s.writeCodes).laxEnd = s.laxEnd := rfl
@[simp] theorem State.writeCodes_encBits : (s.writeCodes).encBits = s.encBits := rfl
@[simp] theorem State.writeCodes_decSyms : (s.writeCodes).decSyms = s.decSyms := rfl
@[simp] theorem State.writeCodes_encQ : (s.writeCodes).encQ = s.encQ := rfl
@[simp] theorem State.writeCodes_decQ : (s.writeCodes).decQ = s.decQ := rfl
@[simp] theorem State.writeCodes_rspQ : (s.writeCodes).rspQ = s.rspQ := rfl
@[simp] theorem State.writeCodes_held : (s.writeCodes).held = s.held := rfl
@[simp] theorem State.writeCodes_inReset : (s.writeCodes).inReset = s.inReset := rfl
@[simp] theorem State.writeCodes_cmdIn : (s.writeCodes).cmdIn = s.cmdIn := rfl
@[simp] theorem State.writeCodes_hostActs : (s.writeCodes).hostActs = s.hostActs := rfl
@[simp] theorem State.writeCodes_encOut : (s.writeCodes).encOut = s.encOut := rfl
@[simp] theorem State.writeCodes_decOut : (s.writeCodes).decOut = s.decOut := rfl
@[simp] theorem State.writeCodes_rspOut : (s.writeCodes).rspOut = s.rspOut := rfl

end

/-! ### `pushCodeword` (ENCODE) -/

section

variable (s : State) (b : Byte)

@[simp] theorem State.pushCodeword_params : (s.pushCodeword b).params = s.params := rfl
@[simp] theorem State.pushCodeword_freq : (s.pushCodeword b).freq = s.freq := rfl
@[simp] theorem State.pushCodeword_total : (s.pushCodeword b).total = s.total := rfl
@[simp] theorem State.pushCodeword_ndist : (s.pushCodeword b).ndist = s.ndist := rfl
@[simp] theorem State.pushCodeword_node : (s.pushCodeword b).node = s.node := rfl
@[simp] theorem State.pushCodeword_nnodes : (s.pushCodeword b).nnodes = s.nnodes := rfl
@[simp] theorem State.pushCodeword_root : (s.pushCodeword b).root = s.root := rfl
@[simp] theorem State.pushCodeword_rootValid : (s.pushCodeword b).rootValid = s.rootValid := rfl
@[simp] theorem State.pushCodeword_len : (s.pushCodeword b).len = s.len := rfl
@[simp] theorem State.pushCodeword_code : (s.pushCodeword b).code = s.code := rfl
@[simp] theorem State.pushCodeword_cand : (s.pushCodeword b).cand = s.cand := rfl
@[simp] theorem State.pushCodeword_candLen : (s.pushCodeword b).candLen = s.candLen := rfl
@[simp] theorem State.pushCodeword_phase : (s.pushCodeword b).phase = s.phase := rfl
@[simp] theorem State.pushCodeword_err : (s.pushCodeword b).err = s.err := rfl
@[simp] theorem State.pushCodeword_errCmd : (s.pushCodeword b).errCmd = s.errCmd := rfl
@[simp] theorem State.pushCodeword_errInfo : (s.pushCodeword b).errInfo = s.errInfo := rfl
@[simp] theorem State.pushCodeword_laxEnd : (s.pushCodeword b).laxEnd = s.laxEnd := rfl
@[simp] theorem State.pushCodeword_decSyms : (s.pushCodeword b).decSyms = s.decSyms := rfl
@[simp] theorem State.pushCodeword_decQ : (s.pushCodeword b).decQ = s.decQ := rfl
@[simp] theorem State.pushCodeword_rspQ : (s.pushCodeword b).rspQ = s.rspQ := rfl
@[simp] theorem State.pushCodeword_held : (s.pushCodeword b).held = s.held := rfl
@[simp] theorem State.pushCodeword_inReset : (s.pushCodeword b).inReset = s.inReset := rfl
@[simp] theorem State.pushCodeword_cmdIn : (s.pushCodeword b).cmdIn = s.cmdIn := rfl
@[simp] theorem State.pushCodeword_hostActs : (s.pushCodeword b).hostActs = s.hostActs := rfl
@[simp] theorem State.pushCodeword_encOut : (s.pushCodeword b).encOut = s.encOut := rfl
@[simp] theorem State.pushCodeword_decOut : (s.pushCodeword b).decOut = s.decOut := rfl
@[simp] theorem State.pushCodeword_rspOut : (s.pushCodeword b).rspOut = s.rspOut := rfl

end

/-! ### `emitSymbol` (a match of DECODE) -/

section

variable (s : State) (b : Byte)

@[simp] theorem State.emitSymbol_params : (s.emitSymbol b).params = s.params := rfl
@[simp] theorem State.emitSymbol_freq : (s.emitSymbol b).freq = s.freq := rfl
@[simp] theorem State.emitSymbol_total : (s.emitSymbol b).total = s.total := rfl
@[simp] theorem State.emitSymbol_ndist : (s.emitSymbol b).ndist = s.ndist := rfl
@[simp] theorem State.emitSymbol_node : (s.emitSymbol b).node = s.node := rfl
@[simp] theorem State.emitSymbol_nnodes : (s.emitSymbol b).nnodes = s.nnodes := rfl
@[simp] theorem State.emitSymbol_root : (s.emitSymbol b).root = s.root := rfl
@[simp] theorem State.emitSymbol_rootValid : (s.emitSymbol b).rootValid = s.rootValid := rfl
@[simp] theorem State.emitSymbol_len : (s.emitSymbol b).len = s.len := rfl
@[simp] theorem State.emitSymbol_code : (s.emitSymbol b).code = s.code := rfl
@[simp] theorem State.emitSymbol_phase : (s.emitSymbol b).phase = s.phase := rfl
@[simp] theorem State.emitSymbol_err : (s.emitSymbol b).err = s.err := rfl
@[simp] theorem State.emitSymbol_errCmd : (s.emitSymbol b).errCmd = s.errCmd := rfl
@[simp] theorem State.emitSymbol_errInfo : (s.emitSymbol b).errInfo = s.errInfo := rfl
@[simp] theorem State.emitSymbol_laxEnd : (s.emitSymbol b).laxEnd = s.laxEnd := rfl
@[simp] theorem State.emitSymbol_encBits : (s.emitSymbol b).encBits = s.encBits := rfl
@[simp] theorem State.emitSymbol_encQ : (s.emitSymbol b).encQ = s.encQ := rfl
@[simp] theorem State.emitSymbol_rspQ : (s.emitSymbol b).rspQ = s.rspQ := rfl
@[simp] theorem State.emitSymbol_held : (s.emitSymbol b).held = s.held := rfl
@[simp] theorem State.emitSymbol_inReset : (s.emitSymbol b).inReset = s.inReset := rfl
@[simp] theorem State.emitSymbol_cmdIn : (s.emitSymbol b).cmdIn = s.cmdIn := rfl
@[simp] theorem State.emitSymbol_hostActs : (s.emitSymbol b).hostActs = s.hostActs := rfl
@[simp] theorem State.emitSymbol_encOut : (s.emitSymbol b).encOut = s.encOut := rfl
@[simp] theorem State.emitSymbol_decOut : (s.emitSymbol b).decOut = s.decOut := rfl
@[simp] theorem State.emitSymbol_rspOut : (s.emitSymbol b).rspOut = s.rspOut := rfl

end

/-! ### `extendCandidate` (a digit of DECODE without a match) -/

section

variable (s : State) (d : Bool)

@[simp] theorem State.extendCandidate_params : (s.extendCandidate d).params = s.params := rfl
@[simp] theorem State.extendCandidate_freq : (s.extendCandidate d).freq = s.freq := rfl
@[simp] theorem State.extendCandidate_total : (s.extendCandidate d).total = s.total := rfl
@[simp] theorem State.extendCandidate_ndist : (s.extendCandidate d).ndist = s.ndist := rfl
@[simp] theorem State.extendCandidate_node : (s.extendCandidate d).node = s.node := rfl
@[simp] theorem State.extendCandidate_nnodes : (s.extendCandidate d).nnodes = s.nnodes := rfl
@[simp] theorem State.extendCandidate_root : (s.extendCandidate d).root = s.root := rfl
@[simp] theorem State.extendCandidate_rootValid : (s.extendCandidate d).rootValid = s.rootValid := rfl
@[simp] theorem State.extendCandidate_len : (s.extendCandidate d).len = s.len := rfl
@[simp] theorem State.extendCandidate_code : (s.extendCandidate d).code = s.code := rfl
@[simp] theorem State.extendCandidate_phase : (s.extendCandidate d).phase = s.phase := rfl
@[simp] theorem State.extendCandidate_err : (s.extendCandidate d).err = s.err := rfl
@[simp] theorem State.extendCandidate_errCmd : (s.extendCandidate d).errCmd = s.errCmd := rfl
@[simp] theorem State.extendCandidate_errInfo : (s.extendCandidate d).errInfo = s.errInfo := rfl
@[simp] theorem State.extendCandidate_laxEnd : (s.extendCandidate d).laxEnd = s.laxEnd := rfl
@[simp] theorem State.extendCandidate_encBits : (s.extendCandidate d).encBits = s.encBits := rfl
@[simp] theorem State.extendCandidate_decSyms : (s.extendCandidate d).decSyms = s.decSyms := rfl
@[simp] theorem State.extendCandidate_encQ : (s.extendCandidate d).encQ = s.encQ := rfl
@[simp] theorem State.extendCandidate_decQ : (s.extendCandidate d).decQ = s.decQ := rfl
@[simp] theorem State.extendCandidate_rspQ : (s.extendCandidate d).rspQ = s.rspQ := rfl
@[simp] theorem State.extendCandidate_held : (s.extendCandidate d).held = s.held := rfl
@[simp] theorem State.extendCandidate_inReset : (s.extendCandidate d).inReset = s.inReset := rfl
@[simp] theorem State.extendCandidate_cmdIn : (s.extendCandidate d).cmdIn = s.cmdIn := rfl
@[simp] theorem State.extendCandidate_hostActs : (s.extendCandidate d).hostActs = s.hostActs := rfl
@[simp] theorem State.extendCandidate_encOut : (s.extendCandidate d).encOut = s.encOut := rfl
@[simp] theorem State.extendCandidate_decOut : (s.extendCandidate d).decOut = s.decOut := rfl
@[simp] theorem State.extendCandidate_rspOut : (s.extendCandidate d).rspOut = s.rspOut := rfl

end

/-! ### `dropCandidate` (DECEND in lax mode) -/

section

variable (s : State)

@[simp] theorem State.dropCandidate_params : (s.dropCandidate).params = s.params := rfl
@[simp] theorem State.dropCandidate_freq : (s.dropCandidate).freq = s.freq := rfl
@[simp] theorem State.dropCandidate_total : (s.dropCandidate).total = s.total := rfl
@[simp] theorem State.dropCandidate_ndist : (s.dropCandidate).ndist = s.ndist := rfl
@[simp] theorem State.dropCandidate_node : (s.dropCandidate).node = s.node := rfl
@[simp] theorem State.dropCandidate_nnodes : (s.dropCandidate).nnodes = s.nnodes := rfl
@[simp] theorem State.dropCandidate_root : (s.dropCandidate).root = s.root := rfl
@[simp] theorem State.dropCandidate_rootValid : (s.dropCandidate).rootValid = s.rootValid := rfl
@[simp] theorem State.dropCandidate_len : (s.dropCandidate).len = s.len := rfl
@[simp] theorem State.dropCandidate_code : (s.dropCandidate).code = s.code := rfl
@[simp] theorem State.dropCandidate_phase : (s.dropCandidate).phase = s.phase := rfl
@[simp] theorem State.dropCandidate_err : (s.dropCandidate).err = s.err := rfl
@[simp] theorem State.dropCandidate_errCmd : (s.dropCandidate).errCmd = s.errCmd := rfl
@[simp] theorem State.dropCandidate_errInfo : (s.dropCandidate).errInfo = s.errInfo := rfl
@[simp] theorem State.dropCandidate_laxEnd : (s.dropCandidate).laxEnd = s.laxEnd := rfl
@[simp] theorem State.dropCandidate_encBits : (s.dropCandidate).encBits = s.encBits := rfl
@[simp] theorem State.dropCandidate_decSyms : (s.dropCandidate).decSyms = s.decSyms := rfl
@[simp] theorem State.dropCandidate_encQ : (s.dropCandidate).encQ = s.encQ := rfl
@[simp] theorem State.dropCandidate_decQ : (s.dropCandidate).decQ = s.decQ := rfl
@[simp] theorem State.dropCandidate_rspQ : (s.dropCandidate).rspQ = s.rspQ := rfl
@[simp] theorem State.dropCandidate_held : (s.dropCandidate).held = s.held := rfl
@[simp] theorem State.dropCandidate_inReset : (s.dropCandidate).inReset = s.inReset := rfl
@[simp] theorem State.dropCandidate_cmdIn : (s.dropCandidate).cmdIn = s.cmdIn := rfl
@[simp] theorem State.dropCandidate_hostActs : (s.dropCandidate).hostActs = s.hostActs := rfl
@[simp] theorem State.dropCandidate_encOut : (s.dropCandidate).encOut = s.encOut := rfl
@[simp] theorem State.dropCandidate_decOut : (s.dropCandidate).decOut = s.decOut := rfl
@[simp] theorem State.dropCandidate_rspOut : (s.dropCandidate).rspOut = s.rspOut := rfl

end

/-! ### `clearRun` (CLEAR) -/

section

variable (s : State)

@[simp] theorem State.clearRun_params : (s.clearRun).params = s.params := rfl
@[simp] theorem State.clearRun_laxEnd : (s.clearRun).laxEnd = s.laxEnd := rfl
@[simp] theorem State.clearRun_encQ : (s.clearRun).encQ = s.encQ := rfl
@[simp] theorem State.clearRun_decQ : (s.clearRun).decQ = s.decQ := rfl
@[simp] theorem State.clearRun_rspQ : (s.clearRun).rspQ = s.rspQ := rfl
@[simp] theorem State.clearRun_held : (s.clearRun).held = s.held := rfl
@[simp] theorem State.clearRun_inReset : (s.clearRun).inReset = s.inReset := rfl
@[simp] theorem State.clearRun_cmdIn : (s.clearRun).cmdIn = s.cmdIn := rfl
@[simp] theorem State.clearRun_hostActs : (s.clearRun).hostActs = s.hostActs := rfl
@[simp] theorem State.clearRun_encOut : (s.clearRun).encOut = s.encOut := rfl
@[simp] theorem State.clearRun_decOut : (s.clearRun).decOut = s.decOut := rfl
@[simp] theorem State.clearRun_rspOut : (s.clearRun).rspOut = s.rspOut := rfl

end

/-! ### `leaveReset` (the end of reset) -/

section

variable (s : State)

@[simp] theorem State.leaveReset_params : s.leaveReset.params = s.params := rfl
@[simp] theorem State.leaveReset_freq : s.leaveReset.freq = s.freq := rfl
@[simp] theorem State.leaveReset_total : s.leaveReset.total = s.total := rfl
@[simp] theorem State.leaveReset_ndist : s.leaveReset.ndist = s.ndist := rfl
@[simp] theorem State.leaveReset_node : s.leaveReset.node = s.node := rfl
@[simp] theorem State.leaveReset_nnodes : s.leaveReset.nnodes = s.nnodes := rfl
@[simp] theorem State.leaveReset_root : s.leaveReset.root = s.root := rfl
@[simp] theorem State.leaveReset_rootValid : s.leaveReset.rootValid = s.rootValid := rfl
@[simp] theorem State.leaveReset_len : s.leaveReset.len = s.len := rfl
@[simp] theorem State.leaveReset_code : s.leaveReset.code = s.code := rfl
@[simp] theorem State.leaveReset_cand : s.leaveReset.cand = s.cand := rfl
@[simp] theorem State.leaveReset_candLen : s.leaveReset.candLen = s.candLen := rfl
@[simp] theorem State.leaveReset_phase : s.leaveReset.phase = s.phase := rfl
@[simp] theorem State.leaveReset_err : s.leaveReset.err = s.err := rfl
@[simp] theorem State.leaveReset_errCmd : s.leaveReset.errCmd = s.errCmd := rfl
@[simp] theorem State.leaveReset_errInfo : s.leaveReset.errInfo = s.errInfo := rfl
@[simp] theorem State.leaveReset_laxEnd : s.leaveReset.laxEnd = s.laxEnd := rfl
@[simp] theorem State.leaveReset_encBits : s.leaveReset.encBits = s.encBits := rfl
@[simp] theorem State.leaveReset_decSyms : s.leaveReset.decSyms = s.decSyms := rfl
@[simp] theorem State.leaveReset_encQ : s.leaveReset.encQ = s.encQ := rfl
@[simp] theorem State.leaveReset_decQ : s.leaveReset.decQ = s.decQ := rfl
@[simp] theorem State.leaveReset_rspQ : s.leaveReset.rspQ = s.rspQ := rfl
@[simp] theorem State.leaveReset_held : s.leaveReset.held = s.held := rfl
@[simp] theorem State.leaveReset_inReset : s.leaveReset.inReset = false := rfl
@[simp] theorem State.leaveReset_cmdIn : s.leaveReset.cmdIn = s.cmdIn := rfl
@[simp] theorem State.leaveReset_hostActs : s.leaveReset.hostActs = s.hostActs := rfl
@[simp] theorem State.leaveReset_encOut : s.leaveReset.encOut = s.encOut := rfl
@[simp] theorem State.leaveReset_decOut : s.leaveReset.decOut = s.decOut := rfl
@[simp] theorem State.leaveReset_rspOut : s.leaveReset.rspOut = s.rspOut := rfl

end

/-! ### `applyReset` (an edge with `rst_n = 0`) -/

section

variable (s : State)

@[simp] theorem State.applyReset_params : s.applyReset.params = s.params := rfl
@[simp] theorem State.applyReset_inReset : s.applyReset.inReset = true := rfl
@[simp] theorem State.applyReset_cmdIn : s.applyReset.cmdIn = s.cmdIn := rfl
@[simp] theorem State.applyReset_hostActs : s.applyReset.hostActs = s.hostActs := rfl
@[simp] theorem State.applyReset_encOut : s.applyReset.encOut = s.encOut := rfl
@[simp] theorem State.applyReset_decOut : s.applyReset.decOut = s.decOut := rfl
@[simp] theorem State.applyReset_rspOut : s.applyReset.rspOut = s.rspOut := rfl

end

/-! ### `raise` -/

section

variable (s : State) (code : ErrCode) (info : BitVec 4) (w : Word)

@[simp] theorem State.raise_params : (s.raise code info w).params = s.params := by
  unfold State.raise; split <;> rfl
@[simp] theorem State.raise_freq : (s.raise code info w).freq = s.freq := by
  unfold State.raise; split <;> rfl
@[simp] theorem State.raise_total : (s.raise code info w).total = s.total := by
  unfold State.raise; split <;> rfl
@[simp] theorem State.raise_ndist : (s.raise code info w).ndist = s.ndist := by
  unfold State.raise; split <;> rfl
@[simp] theorem State.raise_node : (s.raise code info w).node = s.node := by
  unfold State.raise; split <;> rfl
@[simp] theorem State.raise_nnodes : (s.raise code info w).nnodes = s.nnodes := by
  unfold State.raise; split <;> rfl
@[simp] theorem State.raise_root : (s.raise code info w).root = s.root := by
  unfold State.raise; split <;> rfl
@[simp] theorem State.raise_rootValid : (s.raise code info w).rootValid = s.rootValid := by
  unfold State.raise; split <;> rfl
@[simp] theorem State.raise_len : (s.raise code info w).len = s.len := by
  unfold State.raise; split <;> rfl
@[simp] theorem State.raise_code : (s.raise code info w).code = s.code := by
  unfold State.raise; split <;> rfl
@[simp] theorem State.raise_cand : (s.raise code info w).cand = s.cand := by
  unfold State.raise; split <;> rfl
@[simp] theorem State.raise_candLen : (s.raise code info w).candLen = s.candLen := by
  unfold State.raise; split <;> rfl
@[simp] theorem State.raise_phase : (s.raise code info w).phase = s.phase := by
  unfold State.raise; split <;> rfl
@[simp] theorem State.raise_laxEnd : (s.raise code info w).laxEnd = s.laxEnd := by
  unfold State.raise; split <;> rfl
@[simp] theorem State.raise_encBits : (s.raise code info w).encBits = s.encBits := by
  unfold State.raise; split <;> rfl
@[simp] theorem State.raise_decSyms : (s.raise code info w).decSyms = s.decSyms := by
  unfold State.raise; split <;> rfl
@[simp] theorem State.raise_encQ : (s.raise code info w).encQ = s.encQ := by
  unfold State.raise; split <;> rfl
@[simp] theorem State.raise_decQ : (s.raise code info w).decQ = s.decQ := by
  unfold State.raise; split <;> rfl
@[simp] theorem State.raise_rspQ : (s.raise code info w).rspQ = s.rspQ := by
  unfold State.raise; split <;> rfl
@[simp] theorem State.raise_held : (s.raise code info w).held = s.held := by
  unfold State.raise; split <;> rfl
@[simp] theorem State.raise_cmdIn : (s.raise code info w).cmdIn = s.cmdIn := by
  unfold State.raise; split <;> rfl
@[simp] theorem State.raise_hostActs : (s.raise code info w).hostActs = s.hostActs := by
  unfold State.raise; split <;> rfl
@[simp] theorem State.raise_encOut : (s.raise code info w).encOut = s.encOut := by
  unfold State.raise; split <;> rfl
@[simp] theorem State.raise_decOut : (s.raise code info w).decOut = s.decOut := by
  unfold State.raise; split <;> rfl
@[simp] theorem State.raise_rspOut : (s.raise code info w).rspOut = s.rspOut := by
  unfold State.raise; split <;> rfl

end

end Sys2Proof.Machine
end

