-- ==== Sys2Proof/Laws/Bits.lean ====
section
/-! SUPPORT. Digit strings, registers read and written digit by digit, and the list of all symbols. -/

namespace Sys2Proof.Machine

/-! ### All symbols -/

theorem mem_allSymbols (b : Byte) : b ∈ allSymbols := by
  refine List.mem_map.mpr ⟨b.toNat, List.mem_range.mpr b.isLt, ?_⟩
  simp

theorem allSymbols_length : allSymbols.length = 256 := by simp [allSymbols]

theorem allSymbols_nodup : allSymbols.Nodup := by
  refine List.Nodup.map_on ?_ List.nodup_range
  intro x hx y hy h
  have := congrArg BitVec.toNat h
  simp only [BitVec.toNat_ofNat, List.mem_range] at this hx hy
  omega

/-- A function that differs from another at one symbol only, there by one, has a sum greater by one. -/
theorem sum_map_bump {l : List Byte} (hl : l.Nodup) {b : Byte} (hb : b ∈ l) {f g : Byte → Nat}
    (hgb : g b = f b + 1) (hg : ∀ x, x ≠ b → g x = f x) : (l.map g).sum = (l.map f).sum + 1 := by
  induction l with
  | nil => simp at hb
  | cons x xs ih =>
    rw [List.nodup_cons] at hl
    simp only [List.map_cons, List.sum_cons]
    by_cases hx : x = b
    · subst hx
      have : xs.map g = xs.map f := List.map_congr_left fun y hy => hg y fun h => hl.1 (h ▸ hy)
      rw [this, hgb]; omega
    · have hmem : b ∈ xs := by
        rcases List.mem_cons.mp hb with h | h
        · exact absurd h.symm hx
        · exact h
      rw [ih hl.2 hmem, hg x hx]; omega

/-! ### Digits and numbers -/

@[simp] theorem digitsToNat_nil : digitsToNat [] = 0 := rfl

theorem digitsToNat_testBit (ds : Digits) (j : Nat) :
    (digitsToNat ds).testBit j = (ds[j]?).getD false := by
  induction ds generalizing j with
  | nil => simp
  | cons d ds ih =>
    cases j with
    | zero => cases d <;> simp [digitsToNat]
    | succ j =>
      have : digitsToNat (d :: ds) / 2 = digitsToNat ds := by
        cases d <;> simp [digitsToNat]; omega
      rw [Nat.testBit_succ, this, ih]; simp

theorem digitsToNat_lt (ds : Digits) : digitsToNat ds < 2 ^ ds.length := by
  induction ds with
  | nil => simp
  | cons d ds ih => cases d <;> simp [digitsToNat, Nat.pow_succ] <;> omega

@[simp] theorem digitsOf_length {w : Nat} (v : BitVec w) (n : Nat) : (digitsOf v n).length = n := by
  simp [digitsOf]

theorem digitsOf_getElem? {w : Nat} (v : BitVec w) (n j : Nat) :
    (digitsOf v n)[j]? = if j < n then some (v.getLsbD j) else none := by
  unfold digitsOf
  split
  · next h => simp [h]
  · next h => simp [Nat.le_of_not_lt h]

/-- A digit string equals a register's first digits when they agree digit by digit. -/
theorem eq_digitsOf_iff {w : Nat} (v : BitVec w) (ds : Digits) :
    ds = digitsOf v ds.length ↔ ∀ j, j < ds.length → ds[j]? = some (v.getLsbD j) := by
  constructor
  · intro h j hj
    rw [h, digitsOf_getElem?, if_pos hj]
  · intro h
    apply List.ext_getElem?
    intro j
    rw [digitsOf_getElem?]
    split
    · next hj => exact h j hj
    · next hj => exact List.getElem?_eq_none (Nat.le_of_not_lt hj)

/-- Reading back a digit string stored in a register. -/
theorem digitsOf_ofNat {w : Nat} (ds : Digits) (h : ds.length ≤ w) :
    digitsOf (BitVec.ofNat w (digitsToNat ds)) ds.length = ds := by
  symm
  rw [eq_digitsOf_iff]
  intro j hj
  rw [BitVec.getLsbD_ofNat, digitsToNat_testBit]
  simp [hj, Nat.lt_of_lt_of_le hj h]

/-- The register that holds a digit string has 0 above it. -/
theorem getLsbD_ofNat_digitsToNat_above {w : Nat} (ds : Digits) (j : Nat) (h : ds.length ≤ j) :
    (BitVec.ofNat w (digitsToNat ds)).getLsbD j = false := by
  rw [BitVec.getLsbD_ofNat, digitsToNat_testBit, List.getElem?_eq_none h]; simp

theorem digitsOf_succ {w : Nat} (v : BitVec w) (n : Nat) :
    digitsOf v (n + 1) = digitsOf v n ++ [v.getLsbD n] := by
  simp [digitsOf, List.range_succ]

theorem digitsOf_congr {w : Nat} {u v : BitVec w} {n : Nat}
    (h : ∀ j, j < n → u.getLsbD j = v.getLsbD j) : digitsOf u n = digitsOf v n :=
  List.map_congr_left fun j hj => h j (List.mem_range.mp hj)

/-! ### Writing a digit and a chunk -/

theorem setDigit_getLsbD {w : Nat} (v : BitVec w) (i j : Nat) (d : Bool) (hj : j < w) :
    (setDigit v i d).getLsbD j = if j = i then d else v.getLsbD j := by
  unfold setDigit
  by_cases h : j = i
  · subst h
    simp [hj]
  · by_cases hlt : j < i
    · simp [h, hlt]; omega
    · have : j - i ≠ 0 := by omega
      cases d <;> simp [h, hlt, hj, this]

theorem setChunk_getLsbD (v : BitVec 256) (k : BitVec 4) (data : BitVec 16) (j : Nat) (hj : j < 256) :
    (setChunk v k data).getLsbD j =
      if 16 * k.toNat ≤ j ∧ j < 16 * k.toNat + 16 then data.getLsbD (j - 16 * k.toNat)
      else v.getLsbD j := by
  have ones : ∀ m, (0xFFFF#256).getLsbD m = decide (m < 16) := by
    intro m
    rw [BitVec.getLsbD_ofNat, show (0xFFFF : Nat) = 2 ^ 16 - 1 from rfl, Nat.testBit_two_pow_sub_one]
    by_cases h : m < 16 <;> simp [h]; omega
  unfold setChunk
  simp only [BitVec.getLsbD_or, BitVec.getLsbD_and, BitVec.getLsbD_not, BitVec.getLsbD_shiftLeft,
    BitVec.getLsbD_setWidth, ones, hj, decide_true, Bool.true_and]
  by_cases h1 : j < 16 * k.toNat
  · have : ¬ (16 * k.toNat ≤ j ∧ j < 16 * k.toNat + 16) := by omega
    simp [h1, this]
  · by_cases h2 : j - 16 * k.toNat < 16
    · have : 16 * k.toNat ≤ j ∧ j < 16 * k.toNat + 16 := by omega
      have h3 : j - 16 * k.toNat < 256 := by omega
      simp [h1, h2, this, h3]
    · have : ¬ (16 * k.toNat ≤ j ∧ j < 16 * k.toNat + 16) := by omega
      rw [if_neg this]
      simp [h1, h2, BitVec.getLsbD_of_ge data (j - 16 * k.toNat) (by omega)]

theorem chunkOf_getLsbD (v : BitVec 256) (k : BitVec 4) (j : Nat) (hj : j < 16) :
    (chunkOf v k).getLsbD j = v.getLsbD (16 * k.toNat + j) := by
  simp [chunkOf, hj]

end Sys2Proof.Machine
end

