-- ==== Sys2Proof/Laws/Ops.lean ====
section
/-! SUPPORT. What each shared operation can do, said once: array access, the error record, the halt
filter, the hold, answers, and taking a word. -/

namespace Sys2Proof.Machine

/-! ### Arrays -/

theorem byte_toNat_ne {b c : Byte} (h : c ≠ b) : b.toNat ≠ c.toNat := fun e =>
  h (BitVec.eq_of_toNat_eq e.symm)

@[simp] theorem setFreq_freqOf (s : State) (b : Byte) (v : Nat) (c : Byte) :
    (s.setFreq b v).freqOf c = if c = b then v else s.freqOf c := by
  unfold State.setFreq State.freqOf
  split
  · next h => subst h; simp
  · next h => rw [Vector.getElem_set_ne _ _ (byte_toNat_ne h)]

@[simp] theorem setLen_lenOf (s : State) (b : Byte) (v : BitVec 8) (c : Byte) :
    (s.setLen b v).lenOf c = if c = b then v else s.lenOf c := by
  unfold State.setLen State.lenOf
  split
  · next h => subst h; simp
  · next h => rw [Vector.getElem_set_ne _ _ (byte_toNat_ne h)]

@[simp] theorem setCode_codeOf (s : State) (b : Byte) (v : BitVec 256) (c : Byte) :
    (s.setCode b v).codeOf c = if c = b then v else s.codeOf c := by
  unfold State.setCode State.codeOf
  split
  · next h => subst h; simp
  · next h => rw [Vector.getElem_set_ne _ _ (byte_toNat_ne h)]

/-- Two count arrays with equal entries are equal. -/
theorem freq_ext {s t : State} (h : ∀ b, s.freqOf b = t.freqOf b) : s.freq = t.freq := by
  ext i hi
  simpa [State.freqOf, Nat.mod_eq_of_lt hi] using h (BitVec.ofNat 8 i)

theorem freqOf_congr {s t : State} (h : s.freq = t.freq) (b : Byte) : s.freqOf b = t.freqOf b := by
  unfold State.freqOf; simp [h]

theorem lenOf_congr {s t : State} (h : s.len = t.len) (b : Byte) : s.lenOf b = t.lenOf b := by
  unfold State.lenOf; simp [h]

theorem codeOf_congr {s t : State} (h : s.code = t.code) (b : Byte) : s.codeOf b = t.codeOf b := by
  unfold State.codeOf; simp [h]

theorem codeword_congr {s t : State} (hl : s.len = t.len) (hc : s.code = t.code) (b : Byte) :
    s.codeword b = t.codeword b := by
  unfold State.codeword; rw [lenOf_congr hl, codeOf_congr hc]

theorem candidate_congr {s t : State} (hc : s.cand = t.cand) (hl : s.candLen = t.candLen) :
    s.candidate = t.candidate := by
  unfold State.candidate; rw [hc, hl]

@[simp] theorem codeword_length (s : State) (b : Byte) :
    (s.codeword b).length = (s.lenOf b).toNat := digitsOf_length _ _

@[simp] theorem candidate_length (s : State) : s.candidate.length = s.candLen.toNat :=
  digitsOf_length _ _

/-! ### The error record -/

theorem raise_of_none {s : State} (h : s.err = none) (code : ErrCode) (info : BitVec 4) (w : Word) :
    s.raise code info w = { s with err := some code, errCmd := w, errInfo := info } := by
  simp [State.raise, h]

theorem raise_of_some {s : State} (h : s.err ≠ none) (code : ErrCode) (info : BitVec 4) (w : Word) :
    s.raise code info w = s := by
  cases he : s.err with
  | none => exact absurd he h
  | some c => simp [State.raise, he]

theorem halted_iff (s : State) : s.halted = true ↔ s.err ≠ none := by
  cases h : s.err <;> simp [State.halted, h]

theorem unlessHalted_of_none {s : State} (h : s.err = none) (act : State → State) :
    s.unlessHalted act = act s := by
  simp [State.unlessHalted, State.halted, h]

theorem unlessHalted_of_some {s : State} (h : s.err ≠ none) (act : State → State) :
    s.unlessHalted act = s := by
  simp [State.unlessHalted, (halted_iff s).mpr h]

/-! ### The hold and answers -/

theorem startWhen_of_le {need free : Nat} (h : need ≤ free) (s : State) (w : Word)
    (act : State → State) : s.startWhen need free w act = act s := by
  simp [State.startWhen, h]

theorem startWhen_of_lt {need free : Nat} (h : free < need) (s : State) (w : Word)
    (act : State → State) : s.startWhen need free w act = { s with held := some w } := by
  simp [State.startWhen, Nat.not_le.mpr h]

theorem answer_of_room {s : State} (h : s.rspQ.length < s.params.rspQDepth) (w : Word)
    (value : State → Word) : s.answer w value = { s with rspQ := s.rspQ ++ [value s] } := by
  unfold State.answer State.rspFree
  rw [startWhen_of_le (by omega)]; rfl

theorem answer_of_full {s : State} (h : s.params.rspQDepth ≤ s.rspQ.length) (w : Word)
    (value : State → Word) : s.answer w value = { s with held := some w } := by
  unfold State.answer State.rspFree
  rw [startWhen_of_lt (by omega)]

/-- A read either pushes one word or holds. -/
theorem answer_cases (s : State) (w : Word) (value : State → Word) :
    (s.rspQ.length < s.params.rspQDepth ∧
      s.answer w value = { s with rspQ := s.rspQ ++ [value s] }) ∨
    (s.params.rspQDepth ≤ s.rspQ.length ∧ s.answer w value = { s with held := some w }) := by
  rcases Nat.lt_or_ge s.rspQ.length s.params.rspQDepth with h | h
  · exact .inl ⟨h, answer_of_room h w value⟩
  · exact .inr ⟨h, answer_of_full h w value⟩

/-! ### Steps -/

/-- What a step can do: the block leaves reset, idles, runs the word it takes, or lets the host act. -/
theorem step_cases {s t : State} (h : step s = .next t) :
    (∃ acts, (s.hostActs = acts ∨ s.hostActs = .blockTurn :: acts) ∧
      (s.inReset = true ∧ t = { s with hostActs := acts, inReset := false } ∨
       s.inReset = false ∧
        (State.takeWord { s with hostActs := acts } = none ∧ t = { s with hostActs := acts } ∨
         ∃ w u, State.takeWord { s with hostActs := acts } = some (w, u) ∧ execute w u = .next t))) ∨
    (∃ act acts, s.hostActs = act :: acts ∧ act ≠ .blockTurn ∧
      t = State.hostTurn { s with hostActs := acts } act) := by
  have block : ∀ v : State, blockStep v = .next t →
      v.inReset = true ∧ t = { v with inReset := false } ∨
      v.inReset = false ∧
        (v.takeWord = none ∧ t = v ∨ ∃ w u, v.takeWord = some (w, u) ∧ execute w u = .next t) := by
    intro v hv
    unfold blockStep at hv
    split at hv
    · next hr => exact .inl ⟨hr, by simpa [State.leaveReset] using hv.symm⟩
    · next hr =>
      refine .inr ⟨by simpa using hr, ?_⟩
      split at hv
      · next ht => exact .inl ⟨ht, by simpa using hv.symm⟩
      · next w u ht => exact .inr ⟨w, u, ht, hv⟩
  unfold step at h
  split at h
  · next hs =>
    refine .inl ⟨[], .inl hs, ?_⟩
    have hv : ({ s with hostActs := [] } : State) = s := by rw [← hs]
    rw [hv]
    rcases block s h with ⟨hr, ht⟩ | hb
    · exact .inl ⟨hr, by rw [ht, ← hs]⟩
    · exact .inr hb
  · next acts hs => exact .inl ⟨acts, .inr hs, block _ h⟩
  · next act acts hne hs =>
    exact .inr ⟨act, acts, hs, fun e => hne e, by simpa using h.symm⟩

/-- Where a word comes from: the command that holds, else the first word offered. -/
theorem takeWord_cases {s u : State} {w : Word} (h : s.takeWord = some (w, u)) :
    (s.held = some w ∧ u = { s with held := none }) ∨
    (s.held = none ∧ ∃ ws, s.cmdIn = w :: ws ∧ u = { s with cmdIn := ws }) := by
  unfold State.takeWord at h
  split at h
  · next w' hw =>
    simp only [Option.some.injEq, Prod.mk.injEq] at h
    obtain ⟨rfl, rfl⟩ := h
    exact .inl ⟨hw, rfl⟩
  · next hn =>
    split at h
    · simp at h
    · next w' ws hc =>
      simp only [Option.some.injEq, Prod.mk.injEq] at h
      obtain ⟨rfl, rfl⟩ := h
      exact .inr ⟨hn, ws, hc, rfl⟩

/-- Running a word performs its command, or raises ILLEGAL. -/
theorem execute_cases {w : Word} {s t : State} (h : execute w s = .next t) :
    (∃ i, decode w = .instr i ∧ exec i s = .next t) ∨
    (∃ r, decode w = .reject r ∧ t = s.raise .illegal 0#4 w) := by
  unfold execute at h
  split at h
  · next i hi => exact .inl ⟨i, hi, h⟩
  · next r hr => exact .inr ⟨r, hr, by simpa [State.raiseIllegal] using h.symm⟩

/-- Every command answers a next state. -/
theorem exec_next (i : Instr) (s : State) : exec i s = .next (perform i s) := by
  cases i <;> rfl

theorem perform_of_exec {i : Instr} {s t : State} (h : exec i s = .next t) : perform i s = t := by
  simp [perform, h]

@[simp] theorem performAll_nil (s : State) : performAll [] s = s := rfl

@[simp] theorem performAll_cons (i : Instr) (is : List Instr) (s : State) :
    performAll (i :: is) s = performAll is (perform i s) := rfl

theorem performAll_append (is js : List Instr) (s : State) :
    performAll (is ++ js) s = performAll js (performAll is s) := by
  induction is generalizing s with
  | nil => rfl
  | cons i is ih => exact ih _

end Sys2Proof.Machine
end

