-- ==== Sys2Proof/Laws/Matcher.lean ====
section
/-! SUPPORT. The bit-serial matcher: the match set, one digit, and a run of digits. -/

namespace Sys2Proof.Machine

/-! ### The match set -/

/-- `matches` is the set R352 spells out. -/
theorem mem_matches {s : State} {ds : Digits} {b : Byte} : b ∈ s.matches ds ↔ InMatch s ds b := by
  unfold State.matches InMatch
  rw [List.mem_filter, and_iff_right (mem_allSymbols b)]
  simp only [Bool.and_eq_true, beq_iff_eq]
  refine and_congr_right fun hlen => ?_
  rw [← eq_digitsOf_iff, State.codeword, hlen]
  exact eq_comm

theorem matches_nodup (s : State) (ds : Digits) : (s.matches ds).Nodup :=
  allSymbols_nodup.filter _

/-- The match set in terms of whole codewords. -/
theorem inMatch_iff_codeword {s : State} {ds : Digits} {b : Byte} :
    InMatch s ds b ↔ s.codeword b = ds := by
  constructor
  · rintro ⟨hlen, h⟩
    rw [State.codeword, hlen]
    exact ((eq_digitsOf_iff _ _).mpr h).symm
  · intro h
    have hlen : (s.lenOf b).toNat = ds.length := by rw [← h, codeword_length]
    refine ⟨hlen, (eq_digitsOf_iff _ _).mp ?_⟩
    rw [← hlen, ← h]; rfl

theorem inMatch_congr {s t : State} (hl : s.len = t.len) (hc : s.code = t.code) {ds : Digits}
    {b : Byte} : InMatch s ds b ↔ InMatch t ds b := by
  rw [inMatch_iff_codeword, inMatch_iff_codeword, codeword_congr hl hc]

/-! ### One digit -/

theorem feedDigit_emit {s : State} {d : Bool} {b : Byte}
    (h : ∀ x, InMatch s (s.candidate ++ [d]) x ↔ x = b) : s.feedDigit d = .done (s.emitSymbol b) := by
  have : s.matches (s.candidate ++ [d]) = [b] := by
    have hp : (s.matches (s.candidate ++ [d])).Perm [b] :=
      (List.perm_ext_iff_of_nodup (matches_nodup _ _) (List.nodup_singleton b)).mpr fun x => by
        rw [mem_matches, h, List.mem_singleton]
    exact List.perm_singleton.mp hp
  simp [State.feedDigit, this]

theorem matches_eq_nil {s : State} {ds : Digits} (h : ∀ x, ¬ InMatch s ds x) : s.matches ds = [] :=
  List.eq_nil_iff_forall_not_mem.mpr fun x hx => h x (mem_matches.mp hx)

theorem feedDigit_extend {s : State} {d : Bool} (h : ∀ x, ¬ InMatch s (s.candidate ++ [d]) x)
    (short : (s.candidate ++ [d]).length ≠ 255) : s.feedDigit d = .done (s.extendCandidate d) := by
  unfold State.feedDigit
  rw [matches_eq_nil h]
  exact if_neg short

theorem feedDigit_noMatch {s : State} {d : Bool} (h : ∀ x, ¬ InMatch s (s.candidate ++ [d]) x)
    (long : (s.candidate ++ [d]).length = 255) : s.feedDigit d = .failed .noMatch := by
  unfold State.feedDigit
  rw [matches_eq_nil h]
  exact if_pos long

theorem feedDigit_ambiguous {s : State} {d : Bool} {a b : Byte} (hab : a ≠ b)
    (ha : InMatch s (s.candidate ++ [d]) a) (hb : InMatch s (s.candidate ++ [d]) b) :
    s.feedDigit d = .failed .ambiguous := by
  rw [← mem_matches] at ha hb
  unfold State.feedDigit
  match hm : s.matches (s.candidate ++ [d]) with
  | [] => simp [hm] at ha
  | [c] =>
    rw [hm, List.mem_singleton] at ha hb
    exact absurd (ha.trans hb.symm) hab
  | _ :: _ :: _ => rfl

/-- Everything one digit can do (R360). -/
theorem feedDigit_cases (s : State) (d : Bool) :
    (∃ b, (∀ x, InMatch s (s.candidate ++ [d]) x ↔ x = b) ∧
      s.feedDigit d = .done (s.emitSymbol b)) ∨
    ((∀ x, ¬ InMatch s (s.candidate ++ [d]) x) ∧ (s.candidate ++ [d]).length ≠ 255 ∧
      s.feedDigit d = .done (s.extendCandidate d)) ∨
    ((∀ x, ¬ InMatch s (s.candidate ++ [d]) x) ∧ (s.candidate ++ [d]).length = 255 ∧
      s.feedDigit d = .failed .noMatch) ∨
    ((∃ a b, a ≠ b ∧ InMatch s (s.candidate ++ [d]) a ∧ InMatch s (s.candidate ++ [d]) b) ∧
      s.feedDigit d = .failed .ambiguous) := by
  by_cases hne : ∃ a, InMatch s (s.candidate ++ [d]) a
  · obtain ⟨a, ha⟩ := hne
    by_cases htwo : ∃ b, b ≠ a ∧ InMatch s (s.candidate ++ [d]) b
    · obtain ⟨b, hba, hb⟩ := htwo
      exact .inr (.inr (.inr ⟨⟨b, a, hba, hb, ha⟩, feedDigit_ambiguous hba hb ha⟩))
    · have h : ∀ x, InMatch s (s.candidate ++ [d]) x ↔ x = a := fun x =>
        ⟨fun hx => by_contra fun hxa => htwo ⟨x, hxa, hx⟩, fun hx => hx ▸ ha⟩
      exact .inl ⟨a, h, feedDigit_emit h⟩
  · have h : ∀ x, ¬ InMatch s (s.candidate ++ [d]) x := fun x hx => hne ⟨x, hx⟩
    by_cases hl : (s.candidate ++ [d]).length = 255
    · exact .inr (.inr (.inl ⟨h, hl, feedDigit_noMatch h hl⟩))
    · exact .inr (.inl ⟨h, hl, feedDigit_extend h hl⟩)

/-! ### A run of digits -/

/-- The step of `DigitsTakeEffect` that a digit without an error takes. -/
theorem digitsTakeEffect_cons {s u t : State} {d : Bool} {ds : Digits}
    (h : s.feedDigit d = .done u) (rest : DigitsTakeEffect ds u t) : DigitsTakeEffect (d :: ds) s t := by
  rcases feedDigit_cases s d with ⟨b, hone, he⟩ | ⟨hno, hs, he⟩ | ⟨-, -, he⟩ | ⟨-, he⟩
  · rw [h, DigitOutcome.done.injEq] at he
    subst he
    exact .emit hone rest
  · rw [h, DigitOutcome.done.injEq] at he
    subst he
    exact .extend hno hs (fun j hj => setDigit_getLsbD _ _ _ _ hj) rest
  · rw [h] at he; cases he
  · rw [h] at he; cases he

/-- What a step of `DigitsTakeEffect` says of the matcher. -/
theorem digitsTakeEffect_uncons {s t : State} {d : Bool} {ds : Digits}
    (h : DigitsTakeEffect (d :: ds) s t) : ∃ u, s.feedDigit d = .done u ∧ DigitsTakeEffect ds u t := by
  cases h with
  | emit one rest => exact ⟨_, feedDigit_emit one, rest⟩
  | @extend _ _ _ _ cand unmatched short digit rest =>
    refine ⟨_, feedDigit_extend unmatched short, ?_⟩
    have : cand = setDigit s.cand s.candLen.toNat d := by
      apply BitVec.eq_of_getLsbD_eq
      intro j hj
      rw [digit j hj, setDigit_getLsbD _ _ _ _ hj]
    rw [this] at rest
    exact rest

/-- Digits take the state to one state only. -/
theorem digitsTakeEffect_unique {ds : Digits} {s t u : State} (ht : DigitsTakeEffect ds s t)
    (hu : DigitsTakeEffect ds s u) : t = u := by
  induction ds generalizing s with
  | nil => cases ht; cases hu; rfl
  | cons d ds ih =>
    obtain ⟨v, hv, ht'⟩ := digitsTakeEffect_uncons ht
    obtain ⟨v', hv', hu'⟩ := digitsTakeEffect_uncons hu
    rw [hv, DigitOutcome.done.injEq] at hv'
    subst hv'
    exact ih ht' hu'

theorem digitsTakeEffect_append {ds es : Digits} {s t u : State} (h : DigitsTakeEffect ds s t)
    (h' : DigitsTakeEffect es t u) : DigitsTakeEffect (ds ++ es) s u := by
  induction ds generalizing s with
  | nil => cases h; exact h'
  | cons d ds ih =>
    obtain ⟨v, hv, ht⟩ := digitsTakeEffect_uncons h
    exact digitsTakeEffect_cons hv (ih ht)

theorem digitsTakeEffect_split {ds es : Digits} {s u : State} (h : DigitsTakeEffect (ds ++ es) s u) :
    ∃ t, DigitsTakeEffect ds s t ∧ DigitsTakeEffect es t u := by
  induction ds generalizing s with
  | nil => exact ⟨s, .done s, h⟩
  | cons d ds ih =>
    obtain ⟨v, hv, ht⟩ := digitsTakeEffect_uncons h
    obtain ⟨t, h1, h2⟩ := ih ht
    exact ⟨t, digitsTakeEffect_cons hv h1, h2⟩

/-- The matcher's loop passes over digits that take effect. -/
theorem feedDigits_of_takeEffect {ds : Digits} {s t : State} (h : DigitsTakeEffect ds s t) (w : Word)
    (i : Nat) (es : Digits) :
    State.feedDigits w i (ds ++ es) s = State.feedDigits w (i + ds.length) es t := by
  induction ds generalizing s i with
  | nil => cases h; rfl
  | cons d ds ih =>
    obtain ⟨v, hv, ht⟩ := digitsTakeEffect_uncons h
    simp only [List.cons_append, State.feedDigits, hv]
    rw [ih ht, List.length_cons, show i + 1 + ds.length = i + (ds.length + 1) by omega]

/-- Everything a run of digits can do: all take effect, or one fails after those before it took
effect. -/
theorem feedDigits_cases (ds : Digits) (s : State) :
    (∃ t, DigitsTakeEffect ds s t) ∨
    (∃ pre d post u code, ds = pre ++ d :: post ∧ DigitsTakeEffect pre s u ∧
      u.feedDigit d = .failed code) := by
  induction ds generalizing s with
  | nil => exact .inl ⟨s, .done s⟩
  | cons d ds ih =>
    cases hd : s.feedDigit d with
    | failed code => exact .inr ⟨[], d, ds, s, code, rfl, .done s, hd⟩
    | done v =>
      rcases ih v with ⟨t, ht⟩ | ⟨pre, e, post, u, code, hds, hu, he⟩
      · exact .inl ⟨t, digitsTakeEffect_cons hd ht⟩
      · exact .inr ⟨d :: pre, e, post, u, code, by rw [hds]; rfl, digitsTakeEffect_cons hd hu, he⟩

/-- A failing digit ends the run: the effects before it stay, and its number is recorded. -/
theorem feedDigits_of_failed {pre post : Digits} {d : Bool} {s u : State} {code : ErrCode}
    (h : DigitsTakeEffect pre s u) (hd : u.feedDigit d = .failed code) (w : Word) :
    State.feedDigits w 0 (pre ++ d :: post) s = u.raise code (BitVec.ofNat 4 pre.length) w := by
  rw [feedDigits_of_takeEffect h, Nat.zero_add]
  simp [State.feedDigits, hd]

/-- A property that every emitted symbol and every digit without a match keep is kept by a run. -/
theorem digitsTakeEffect_induct {P : State → Prop} {ds : Digits} {s t : State}
    (h : DigitsTakeEffect ds s t) (hs : P s)
    (emit : ∀ u b, P u → P (u.emitSymbol b))
    (extend : ∀ u d, P u → (u.candidate ++ [d]).length ≠ 255 → P (u.extendCandidate d)) : P t := by
  induction ds generalizing s with
  | nil => cases h; exact hs
  | cons d ds ih =>
    obtain ⟨v, hv, ht⟩ := digitsTakeEffect_uncons h
    refine ih ht ?_
    rcases feedDigit_cases s d with ⟨b, -, he⟩ | ⟨-, hl, he⟩ | ⟨-, -, he⟩ | ⟨-, he⟩ <;> rw [hv] at he
    · rw [DigitOutcome.done.injEq] at he
      exact he ▸ emit s b hs
    · rw [DigitOutcome.done.injEq] at he
      exact he ▸ extend s d hs hl
    · cases he
    · cases he

/-- Which codes a digit can fail with. -/
theorem feedDigit_failed_code {s : State} {d : Bool} {code : ErrCode}
    (h : s.feedDigit d = .failed code) : code = .noMatch ∨ code = .ambiguous := by
  rcases feedDigit_cases s d with ⟨b, -, he⟩ | ⟨-, -, he⟩ | ⟨-, -, he⟩ | ⟨-, he⟩ <;> rw [h] at he
  · cases he
  · cases he
  · exact .inl (by simpa using he)
  · exact .inr (by simpa using he)

/-- What a run of digits leaves alone: everything but the candidate, DEC_Q and DECSYMS. -/
theorem digitsTakeEffect_frame {ds : Digits} {s t : State} (h : DigitsTakeEffect ds s t) :
    t = { s with cand := t.cand, candLen := t.candLen, decQ := t.decQ, decSyms := t.decSyms } :=
  digitsTakeEffect_induct
    (P := fun t => t = { s with cand := t.cand, candLen := t.candLen, decQ := t.decQ, decSyms := t.decSyms })
    h rfl
    (fun u b hu => by unfold State.emitSymbol; rw [hu])
    (fun u d hu _ => by unfold State.extendCandidate; rw [hu])

/-- A run of digits pushes at most one symbol a digit. -/
theorem digitsTakeEffect_pushes {ds : Digits} {s t : State} (h : DigitsTakeEffect ds s t) :
    ∃ out : List Byte, t.decQ = s.decQ ++ out ∧ out.length ≤ ds.length := by
  induction ds generalizing s with
  | nil => cases h; exact ⟨[], by simp, by simp⟩
  | cons d ds ih =>
    obtain ⟨v, hv, ht⟩ := digitsTakeEffect_uncons h
    obtain ⟨out, ho, hl⟩ := ih ht
    rcases feedDigit_cases s d with ⟨b, -, he⟩ | ⟨-, -, he⟩ | ⟨-, -, he⟩ | ⟨-, he⟩ <;> rw [hv] at he
    · rw [DigitOutcome.done.injEq] at he
      subst he
      exact ⟨b :: out, by rw [ho]; simp [State.emitSymbol], by simp; omega⟩
    · rw [DigitOutcome.done.injEq] at he
      subst he
      exact ⟨out, by rw [ho]; rfl, by simp; omega⟩
    · cases he
    · cases he

end Sys2Proof.Machine
end

