-- ==== Sys2Proof/Laws/Effects.lean ====
section
/-! SUPPORT. Everything a command can do, said once: `exec_effect` is the inversion lemma that statements
about all commands cite instead of unfolding the meanings. -/

namespace Sys2Proof.Machine

/-- The value a read command answers. -/
def readValue (i : Instr) (s : State) : Word :=
  match i with
  | .rdreg reg => s.regWord reg
  | .rdlen b => (s.lenOf b).setWidth 32
  | .rdchunk b k => (chunkOf (s.codeOf b) k).setWidth 32
  | .rdfreq b => BitVec.ofNat 32 (s.freqOf b)
  | .rdnode idx ws => s.nodeWord idx ws
  | .nop | .clear | .build | .walk | .decend | .wrcfg _ | .count _ | .encode _ | .decode _ _
  | .ldlen _ _ | .ldchunk _ _ _ => 0#32

theorem exec_read {i : Instr} (h : isRead i = true) (s : State) :
    exec i s = .next (s.answer (encode i) (readValue i)) := by
  cases i <;> first | rfl | cases h

/-- A command raises an error that has no effect but the record. -/
inductive Raises : Instr → State → ErrCode → Prop where
  | countSequence {b : Byte} {s : State} (h : s.phase ≠ .count) : Raises (.count b) s .sequence
  | countOverflow {b : Byte} {s : State} (h : s.phase = .count)
      (max : s.total = 2 ^ s.params.freqW - 1) : Raises (.count b) s .countOverflow
  | buildSequence {s : State} (h : s.phase ≠ .count) : Raises .build s .sequence
  | walkSequence {s : State} (h : s.phase ≠ .built) : Raises .walk s .sequence
  | noCode {b : Byte} {s : State} (h : s.lenOf b = 0#8) : Raises (.encode b) s .noCode
  | truncated {s : State} (h : s.candLen ≠ 0#8) (lax : s.laxEnd = false) :
      Raises .decend s .truncated

/-- Every next state a command can answer. -/
inductive Effect : Instr → State → State → Prop where
  /-- Discarded while halted (R456). -/
  | discarded {i : Instr} {s : State} (err : s.err ≠ none) (mutating : isMutating i = true) : Effect i s s
  /-- Held for queue space (R150). -/
  | holds {i : Instr} {s : State} (run : s.err = none ∨ isMutating i = false)
      (full : room i s < need i s) : Effect i s { s with held := some (encode i) }
  | nop {s : State} : Effect .nop s s
  | clear {s : State} : Effect .clear s s.clearRun
  | reads {i : Instr} {s : State} (read : isRead i = true) (space : s.rspQ.length < s.params.rspQDepth) :
      Effect i s { s with rspQ := s.rspQ ++ [readValue i s] }
  | raises {i : Instr} {s : State} {code : ErrCode} (err : s.err = none) (why : Raises i s code) :
      Effect i s { s with err := some code, errCmd := encode i, errInfo := 0#4 }
  | counts {b : Byte} {s : State} (err : s.err = none) (phase : s.phase = .count)
      (below : s.total ≠ 2 ^ s.params.freqW - 1) : Effect (.count b) s (s.countSymbol b)
  | builds {s : State} (err : s.err = none) (phase : s.phase = .count) : Effect .build s s.buildTree
  | walks {s : State} (err : s.err = none) (phase : s.phase = .built) : Effect .walk s s.writeCodes
  | ends {s : State} (err : s.err = none) (empty : s.candLen = 0#8) : Effect .decend s s
  | drops {s : State} (err : s.err = none) (digits : s.candLen ≠ 0#8) (lax : s.laxEnd = true) :
      Effect .decend s s.dropCandidate
  | configures {x : Bool} {s : State} (err : s.err = none) : Effect (.wrcfg x) s { s with laxEnd := x }
  | encodes {b : Byte} {s : State} (err : s.err = none) (code : s.lenOf b ≠ 0#8)
      (space : (s.lenOf b).toNat ≤ s.params.encQDepth - s.encQ.length) :
      Effect (.encode b) s (s.pushCodeword b)
  | loadsLen {b : Byte} {n : BitVec 8} {s : State} (err : s.err = none) :
      Effect (.ldlen b n) s (s.setLen b n)
  | loadsChunk {b : Byte} {k : BitVec 4} {data : BitVec 16} {s : State} (err : s.err = none) :
      Effect (.ldchunk b k data) s (s.setCode b (setChunk (s.codeOf b) k data))
  | decodes {cnt : BitVec 4} {data : BitVec 16} {s t : State} (err : s.err = none)
      (space : cnt.toNat + 1 ≤ s.params.decQDepth - s.decQ.length)
      (digits : DigitsTakeEffect (digitsOf data (cnt.toNat + 1)) s t) : Effect (.decode cnt data) s t
  /-- Digit `k` fails, after the digits before it took the state to `u` (R366). -/
  | decodeFails {cnt : BitVec 4} {data : BitVec 16} {s u : State} {k : Nat} {code : ErrCode}
      (err : s.err = none) (space : cnt.toNat + 1 ≤ s.params.decQDepth - s.decQ.length)
      (le : k ≤ cnt.toNat) (digits : DigitsTakeEffect ((digitsOf data (cnt.toNat + 1)).take k) s u)
      (fails : u.feedDigit (data.getLsbD k) = .failed code) :
      Effect (.decode cnt data) s
        { u with err := some code, errCmd := encode (.decode cnt data), errInfo := BitVec.ofNat 4 k }

/-- DECODE that starts, digit by digit. -/
theorem decode_effect {s : State} (err : s.err = none) (cnt : BitVec 4) (data : BitVec 16)
    (space : cnt.toNat + 1 ≤ s.params.decQDepth - s.decQ.length) :
    Effect (.decode cnt data) s
      (State.feedDigits (encode (.decode cnt data)) 0 (digitsOf data (digitCount cnt)) s) := by
  rcases feedDigits_cases (digitsOf data (digitCount cnt)) s with ⟨t, ht⟩ |
    ⟨pre, d, post, u, code, hds, hu, hf⟩
  · have := feedDigits_of_takeEffect ht (encode (.decode cnt data)) 0 []
    rw [List.append_nil] at this
    rw [this]
    exact .decodes err space ht
  · have hlen := congrArg List.length hds
    rw [digitsOf_length] at hlen
    simp only [digitCount, List.length_append, List.length_cons] at hlen
    have hd : d = data.getLsbD pre.length := by
      have := congrArg (fun l => l[pre.length]?) hds
      simp only [digitsOf_getElem?, List.getElem?_append_right (Nat.le_refl _), Nat.sub_self,
        List.getElem?_cons_zero] at this
      rw [if_pos (by simp only [digitCount]; omega)] at this
      exact (Option.some.inj this).symm
    have hpre : pre = (digitsOf data (cnt.toNat + 1)).take pre.length := by
      have : digitsOf data (cnt.toNat + 1) = pre ++ d :: post := hds
      rw [this, List.take_left]
    have hu' : u.err = none := by rw [digitsTakeEffect_frame hu]; exact err
    rw [hds, feedDigits_of_failed hu hf, raise_of_none hu']
    refine .decodeFails err space (by omega) ?_ (hd ▸ hf)
    rw [← hpre]; exact hu

/-- The inversion of `exec`: what a command answers is one of its effects. -/
theorem exec_effect {i : Instr} {s t : State} (h : exec i s = .next t) : Effect i s t := by
  by_cases hr : isRead i = true
  · rw [exec_read hr, Host.Outcome.next.injEq] at h
    subst h
    have hm : isMutating i = false := by cases i <;> first | rfl | cases hr
    have hroom : room i s = s.params.rspQDepth - s.rspQ.length := by cases i <;> first | rfl | cases hr
    have hneed : need i s = 1 := by cases i <;> first | rfl | cases hr
    rcases answer_cases s (encode i) (readValue i) with ⟨hlt, he⟩ | ⟨hge, he⟩ <;> rw [he]
    · exact .reads hr hlt
    · exact .holds (.inr hm) (by rw [hroom, hneed]; omega)
  · by_cases hm : isMutating i = true
    · by_cases herr : s.err = none
      swap
      · have : exec i s = .next s := by
          cases i <;> first | (cases hm; done) | exact congrArg _ (unlessHalted_of_some herr _)
        rw [this, Host.Outcome.next.injEq] at h
        subst h
        exact .discarded herr hm
      cases i with
      | nop => cases hm
      | clear => cases hm
      | rdreg _ => cases hm
      | rdlen _ => cases hm
      | rdchunk _ _ => cases hm
      | rdfreq _ => cases hm
      | rdnode _ _ => cases hm
      | wrcfg x =>
        simp only [exec, execWrcfg, unlessHalted_of_none herr, Host.Outcome.next.injEq] at h
        exact h ▸ .configures herr
      | ldlen b n =>
        simp only [exec, execLdlen, unlessHalted_of_none herr, Host.Outcome.next.injEq] at h
        exact h ▸ .loadsLen herr
      | ldchunk b k data =>
        simp only [exec, execLdchunk, unlessHalted_of_none herr, Host.Outcome.next.injEq] at h
        exact h ▸ .loadsChunk herr
      | build =>
        simp only [exec, execBuild, unlessHalted_of_none herr, Host.Outcome.next.injEq] at h
        subst h
        split
        · next hp => rw [raise_of_none herr]; exact .raises herr (.buildSequence hp)
        · next hp => exact .builds herr (Classical.not_not.mp hp)
      | walk =>
        simp only [exec, execWalk, unlessHalted_of_none herr, Host.Outcome.next.injEq] at h
        subst h
        split
        · next hp => rw [raise_of_none herr]; exact .raises herr (.walkSequence hp)
        · next hp => exact .walks herr (Classical.not_not.mp hp)
      | count b =>
        simp only [exec, execCount, unlessHalted_of_none herr, Host.Outcome.next.injEq] at h
        subst h
        split
        · next hp => rw [raise_of_none herr]; exact .raises herr (.countSequence hp)
        · next hp =>
          split
          · next ht => rw [raise_of_none herr]; exact .raises herr (.countOverflow (Classical.not_not.mp hp) ht)
          · next ht => exact .counts herr (Classical.not_not.mp hp) ht
      | decend =>
        simp only [exec, execDecend, unlessHalted_of_none herr, Host.Outcome.next.injEq] at h
        subst h
        split
        · next hc => exact .ends herr hc
        · next hc =>
          split
          · next hl => exact .drops herr hc hl
          · next hl => rw [raise_of_none herr]; exact .raises herr (.truncated hc (by simpa using hl))
      | encode b =>
        simp only [exec, execEncode, unlessHalted_of_none herr, Host.Outcome.next.injEq] at h
        subst h
        rcases Nat.lt_or_ge s.encFree (s.lenOf b).toNat with hlt | hge
        · rw [startWhen_of_lt hlt]; exact .holds (.inl herr) hlt
        · rw [startWhen_of_le hge]
          split
          · next hl => rw [raise_of_none herr]; exact .raises herr (.noCode hl)
          · next hl => exact .encodes herr hl hge
      | decode cnt data =>
        simp only [exec, execDecode, unlessHalted_of_none herr, Host.Outcome.next.injEq] at h
        subst h
        rcases Nat.lt_or_ge s.decFree (digitCount cnt) with hlt | hge
        · rw [startWhen_of_lt hlt]; exact .holds (.inl herr) hlt
        · rw [startWhen_of_le hge]; exact decode_effect herr cnt data hge
    · cases i with
      | nop => rw [show exec .nop s = .next s from rfl, Host.Outcome.next.injEq] at h; exact h ▸ .nop
      | clear =>
        rw [show exec .clear s = .next s.clearRun from rfl, Host.Outcome.next.injEq] at h
        exact h ▸ .clear
      | build => exact absurd rfl hm
      | walk => exact absurd rfl hm
      | decend => exact absurd rfl hm
      | wrcfg _ => exact absurd rfl hm
      | count _ => exact absurd rfl hm
      | encode _ => exact absurd rfl hm
      | decode _ _ => exact absurd rfl hm
      | ldlen _ _ => exact absurd rfl hm
      | ldchunk _ _ _ => exact absurd rfl hm
      | rdreg _ => exact absurd rfl hr
      | rdlen _ => exact absurd rfl hr
      | rdchunk _ _ => exact absurd rfl hr
      | rdfreq _ => exact absurd rfl hr
      | rdnode _ _ => exact absurd rfl hr

/-- No command touches the parameters, the reset or the host's side. -/
theorem Effect.outside {i : Instr} {s t : State} (h : Effect i s t) :
    t.params = s.params ∧ t.inReset = s.inReset ∧ t.cmdIn = s.cmdIn ∧ t.hostActs = s.hostActs ∧
      t.encOut = s.encOut ∧ t.decOut = s.decOut ∧ t.rspOut = s.rspOut := by
  cases h with
  | decodes err space digits => rw [digitsTakeEffect_frame digits]; simp
  | decodeFails err space le digits fails => rw [digitsTakeEffect_frame digits]; simp
  | _ => exact ⟨rfl, rfl, rfl, rfl, rfl, rfl, rfl⟩

/-- Every step of the block or of the host, with the effect of the command it runs. -/
inductive StepEffect (s t : State) : Prop where
  /-- The host acts. -/
  | host (act : HostAct) (acts : List HostAct) (h : s.hostActs = act :: acts) (ne : act ≠ .blockTurn)
      (eq : t = State.hostTurn { s with hostActs := acts } act)
  /-- The block leaves reset; no word is taken (R172). -/
  | leavesReset (acts : List HostAct) (h : s.hostActs = acts ∨ s.hostActs = .blockTurn :: acts)
      (reset : s.inReset = true) (eq : t = { s with hostActs := acts, inReset := false })
  /-- The block has no word to run. -/
  | idle (acts : List HostAct) (h : s.hostActs = acts ∨ s.hostActs = .blockTurn :: acts)
      (out : s.inReset = false) (eq : t = { s with hostActs := acts })
  /-- The block runs a command on the state with its word taken. -/
  | command (held : Option Word) (ws : List Word) (acts : List HostAct) (w : Word) (i : Instr)
      (out : s.inReset = false) (decoded : decode w = .instr i)
      (taken : s.held = some w ∧ held = none ∧ ws = s.cmdIn ∨
        s.held = none ∧ held = none ∧ s.cmdIn = w :: ws)
      (effect : Effect i { s with hostActs := acts, held := held, cmdIn := ws } t)
  /-- The block rejects a word. -/
  | reject (held : Option Word) (ws : List Word) (acts : List HostAct) (w : Word) (r : Reject)
      (out : s.inReset = false) (decoded : decode w = .reject r)
      (taken : s.held = some w ∧ held = none ∧ ws = s.cmdIn ∨
        s.held = none ∧ held = none ∧ s.cmdIn = w :: ws)
      (eq : t = State.raise .illegal 0#4 w { s with hostActs := acts, held := held, cmdIn := ws })

theorem step_effect {s t : State} (h : step s = .next t) : StepEffect s t := by
  rcases step_cases h with ⟨acts, ha, ⟨hr, ht⟩ | ⟨hr, ⟨-, ht⟩ | ⟨w, u, hw, hx⟩⟩⟩ |
    ⟨act, acts, hs, hne, ht⟩
  · exact .leavesReset acts ha hr ht
  · exact .idle acts ha hr ht
  · rcases execute_cases hx with ⟨i, hd, he⟩ | ⟨r, hd, ht⟩
    · rcases takeWord_cases hw with ⟨hh, rfl⟩ | ⟨hh, ws, hc, rfl⟩
      · exact .command none s.cmdIn acts w i hr hd (.inl ⟨hh, rfl, rfl⟩) (exec_effect he)
      · refine .command none ws acts w i hr hd (.inr ⟨hh, rfl, hc⟩) ?_
        have : ({ s with hostActs := acts, held := none, cmdIn := ws } : State) =
            { { s with hostActs := acts } with cmdIn := ws } := by
          have hh' : s.held = none := hh
          rw [← hh']
        rw [this]; exact exec_effect he
    · rcases takeWord_cases hw with ⟨hh, rfl⟩ | ⟨hh, ws, hc, rfl⟩
      · exact .reject none s.cmdIn acts w r hr hd (.inl ⟨hh, rfl, rfl⟩) ht
      · refine .reject none ws acts w r hr hd (.inr ⟨hh, rfl, hc⟩) ?_
        have hh' : s.held = none := hh
        rw [← hh']; exact ht
  · exact .host act acts hs hne ht

end Sys2Proof.Machine
end

