-- ==== Sys2Proof/Laws/Tree.lean ====
section
/-! SUPPORT. Extraction, the merge loop of BUILD, and the walk. -/

namespace Sys2Proof.Machine

/-! ### The least key -/

theorem Key.le_iff (a b : Key) : a.le b = true ↔ a.Before b := by
  simp [Key.le, Key.Before]

theorem Key.before_refl (a : Key) : a.Before a := .inr ⟨rfl, Nat.le_refl _⟩

theorem Key.before_trans {a b c : Key} (h : a.Before b) (h' : b.Before c) : a.Before c := by
  unfold Key.Before at *; omega

theorem Key.before_total (a b : Key) : a.Before b ∨ b.Before a := by
  unfold Key.Before; omega

theorem Key.before_antisymm {a b : Key} (h : a.Before b) (h' : b.Before a) : a = b := by
  cases a; cases b
  simp only [Key.Before, Key.mk.injEq] at *; omega

theorem leastKey_spec (k : Key) (ks : List Key) :
    leastKey k ks ∈ k :: ks ∧ ∀ x ∈ k :: ks, (leastKey k ks).Before x := by
  induction ks generalizing k with
  | nil => simp [leastKey, Key.before_refl]
  | cons x ks ih =>
    have step : leastKey k (x :: ks) = leastKey (if k.le x then k else x) ks := rfl
    obtain ⟨hmem, hle⟩ := ih (if k.le x then k else x)
    rw [step]
    by_cases hk : k.le x = true
    · rw [if_pos hk] at hmem hle ⊢
      refine ⟨by simp only [List.mem_cons] at hmem ⊢; tauto, fun y hy => ?_⟩
      rcases List.mem_cons.mp hy with rfl | hy
      · exact hle _ (by simp)
      · rcases List.mem_cons.mp hy with rfl | hy
        · exact Key.before_trans (hle k (by simp)) ((Key.le_iff _ _).mp hk)
        · exact hle y (by simp [hy])
    · rw [if_neg hk] at hmem hle ⊢
      have hxk : x.Before k := by
        rcases Key.before_total k x with h | h
        · exact absurd ((Key.le_iff _ _).mpr h) hk
        · exact h
      refine ⟨List.mem_cons_of_mem _ hmem, fun y hy => ?_⟩
      rcases List.mem_cons.mp hy with rfl | hy
      · exact Key.before_trans (hle x (by simp)) hxk
      · exact hle y hy

/-- Extraction takes the least key out of the working set (R261). -/
theorem extractLeast_spec {w rest : List Key} {m : Key} (h : extractLeast w = some (m, rest)) :
    w.Perm (m :: rest) ∧ ∀ x ∈ w, m.Before x := by
  cases w with
  | nil => simp [extractLeast] at h
  | cons k ks =>
    simp only [extractLeast, Option.some.injEq, Prod.mk.injEq] at h
    obtain ⟨rfl, rfl⟩ := h
    exact ⟨List.perm_cons_erase (leastKey_spec k ks).1, (leastKey_spec k ks).2⟩

theorem extractLeast_eq_none {w : List Key} (h : extractLeast w = none) : w = [] := by
  cases w with
  | nil => rfl
  | cons k ks => simp [extractLeast] at h

/-! ### The merge loop -/

/-- An invariant of the merge loop that each merge keeps holds of its result with a working set of at
most one key. -/
theorem mergeLoop_induct {P : List Key → List Node → Prop}
    (merge : ∀ w nodes m1 m2 rest, P w nodes → w.Perm (m1 :: m2 :: rest) → (∀ x ∈ w, m1.Before x) →
      (∀ x ∈ m2 :: rest, m2.Before x) →
      P (⟨m1.freq + m2.freq, nodes.length⟩ :: rest) (nodes ++ [mergeNode m1 m2]))
    (fuel : Nat) (w : List Key) (nodes : List Node) (h : P w nodes) (hfuel : w.length ≤ fuel + 1) :
    ∃ w', P w' (mergeLoop fuel w nodes) ∧ w'.length ≤ 1 := by
  induction fuel generalizing w nodes with
  | zero => exact ⟨w, h, hfuel⟩
  | succ fuel ih =>
    unfold mergeLoop
    split
    · next he => exact ⟨w, h, by simp [extractLeast_eq_none he]⟩
    · next m1 w1 h1 =>
      obtain ⟨p1, l1⟩ := extractLeast_spec h1
      split
      · next he =>
        refine ⟨w, h, ?_⟩
        rw [p1.length_eq, extractLeast_eq_none he]; simp
      · next m2 w2 h2 =>
        obtain ⟨p2, l2⟩ := extractLeast_spec h2
        have hp : w.Perm (m1 :: m2 :: w2) := p1.trans (p2.cons m1)
        refine ih _ _ (merge w nodes m1 m2 w2 h hp l1 fun x hx => l2 x (p2.mem_iff.mpr hx)) ?_
        have := hp.length_eq
        simp only [List.length_cons] at this ⊢
        omega

/-- The merge loop follows the merges of R262. -/
theorem mergeLoop_mergesTo (fuel : Nat) (w : List Key) (nodes : List Node)
    (hfuel : w.length ≤ fuel + 1) : MergesTo w nodes (mergeLoop fuel w nodes) := by
  induction fuel generalizing w nodes with
  | zero => exact .done hfuel
  | succ fuel ih =>
    unfold mergeLoop
    split
    · next he => exact .done (by simp [extractLeast_eq_none he])
    · next m1 w1 h1 =>
      obtain ⟨p1, l1⟩ := extractLeast_spec h1
      split
      · next he => exact .done (by rw [p1.length_eq, extractLeast_eq_none he]; simp)
      · next m2 w2 h2 =>
        obtain ⟨p2, l2⟩ := extractLeast_spec h2
        have hp : w.Perm (m1 :: m2 :: w2) := p1.trans (p2.cons m1)
        refine .merge hp l1 (fun x hx => l2 x (p2.mem_iff.mpr hx)) (ih _ _ ?_)
        have := hp.length_eq
        simp only [List.length_cons] at this ⊢
        omega

/-- The merges of R262 leave one result, whatever the order in which the working set is held. -/
theorem mergesTo_unique {w w' : List Key} {nodes a b : List Node} (h : MergesTo w nodes a)
    (h' : MergesTo w' nodes b) (hw : w.Perm w') : a = b := by
  induction h generalizing w' b with
  | done few =>
    cases h' with
    | done _ => rfl
    | merge p _ _ _ =>
      have := hw.length_eq.symm.trans_le few
      rw [p.length_eq] at this
      simp at this
  | @merge w rest m1 m2 nodes result p l1 l2 _ ih =>
    cases h' with
    | done few =>
      have := hw.length_eq.trans_le few
      rw [p.length_eq] at this
      simp at this
    | @merge _ rest' m1' m2' _ _ p' l1' l2' next' =>
      have e1 : m1 = m1' := by
        refine Key.before_antisymm (l1 m1' ?_) (l1' m1 ?_)
        · exact hw.mem_iff.mpr (p'.mem_iff.mpr (by simp))
        · exact hw.mem_iff.mp (p.mem_iff.mpr (by simp))
      subst e1
      have ps : (m2 :: rest).Perm (m2' :: rest') :=
        (List.perm_cons m1).mp (p.symm.trans (hw.trans p'))
      have e2 : m2 = m2' := by
        refine Key.before_antisymm (l2 m2' (ps.mem_iff.mpr (by simp))) (l2' m2 (ps.mem_iff.mp (by simp)))
      subst e2
      exact ih next' (((List.perm_cons m2).mp ps).cons _)

/-! ### The leaves and their keys -/

theorem leaves_eq_leafNodes (s : State) : s.leaves = s.leafNodes := by
  simp only [State.leaves, State.leafNodes, State.present, leafNode]
  generalize allSymbols = l
  induction l with
  | nil => rfl
  | cons b l ih =>
    by_cases h : s.freqOf b = 0
    · simp [h, ih]
    · simp [h, ih]

theorem keysFrom_eq (i : Nat) (nodes : List Node) :
    keysFrom i nodes = (nodes.zipIdx i).map fun ni => ⟨ni.1.freq, ni.2⟩ := by
  induction nodes generalizing i with
  | nil => rfl
  | cons n nodes ih => simp [keysFrom, ih]

@[simp] theorem keysFrom_length (i : Nat) (nodes : List Node) :
    (keysFrom i nodes).length = nodes.length := by
  simp [keysFrom_eq]

theorem leafNodes_length (s : State) : s.leafNodes.length = s.present.length := by
  simp [State.leafNodes]

theorem present_length_le (s : State) : s.present.length ≤ 256 := by
  have := List.length_filter_le (fun b => s.freqOf b != 0) allSymbols
  rwa [allSymbols_length] at this

theorem mem_present {s : State} {b : Byte} : b ∈ s.present ↔ s.freqOf b ≠ 0 := by
  simp [State.present, mem_allSymbols]

theorem present_nodup (s : State) : s.present.Nodup := allSymbols_nodup.filter _

end Sys2Proof.Machine
end

