-- ==== Sys2Proof/Laws/Counting.lean ====
section
/-! SUPPORT. Counting: what one COUNT does to the counts, the present symbols and the total. -/

namespace Sys2Proof.Machine

@[simp] theorem countSymbol_freqOf (s : State) (b c : Byte) :
    (s.countSymbol b).freqOf c = if c = b then s.freqOf b + 1 else s.freqOf c :=
  setFreq_freqOf s b _ c

theorem countSymbol_frame (s : State) (b : Byte) :
    s.countSymbol b = { s with
      freq := (s.countSymbol b).freq, total := (s.countSymbol b).total
      ndist := (s.countSymbol b).ndist } := rfl

theorem freqSum_countSymbol (s : State) (b : Byte) : (s.countSymbol b).freqSum = s.freqSum + 1 := by
  unfold State.freqSum
  exact sum_map_bump allSymbols_nodup (mem_allSymbols b) (by simp) fun x hx => by simp [hx]

theorem present_length_eq_sum (s : State) :
    s.present.length = (allSymbols.map fun b => if s.freqOf b = 0 then 0 else 1).sum := by
  unfold State.present
  generalize allSymbols = l
  induction l with
  | nil => rfl
  | cons b l ih =>
    by_cases h : s.freqOf b = 0
    · simp [h, ih]
    · simp [h, ih]; omega

/-- A first occurrence adds one present symbol; a later one adds none. -/
theorem present_length_countSymbol (s : State) (b : Byte) :
    (s.countSymbol b).present.length =
      if s.freqOf b = 0 then s.present.length + 1 else s.present.length := by
  rw [present_length_eq_sum, present_length_eq_sum]
  split
  · next h =>
    exact sum_map_bump allSymbols_nodup (mem_allSymbols b) (by simp [h]) fun x hx => by simp [hx]
  · next h =>
    congr 1
    refine List.map_congr_left fun x _ => ?_
    by_cases hx : x = b
    · subst hx; simp [h]
    · simp [hx]

theorem present_length_lt_of_absent {s : State} {b : Byte} (h : s.freqOf b = 0) :
    s.present.length < 256 := by
  have := present_length_countSymbol s b
  rw [if_pos h] at this
  have := present_length_le (s.countSymbol b)
  omega

/-- The counting invariants read FREQ, TOTAL, NDIST and the parameters alone. -/
theorem countsAgree_congr {s t : State} (h : CountsAgree s) (hf : t.freq = s.freq)
    (ht : t.total = s.total) (hn : t.ndist = s.ndist) (hp : t.params = s.params) : CountsAgree t := by
  have hfreq : ∀ b, t.freqOf b = s.freqOf b := freqOf_congr hf
  have hmap : t.freqOf = s.freqOf := funext hfreq
  obtain ⟨h1, h2, h3, h4⟩ := h
  refine ⟨?_, ?_, ?_, ?_⟩
  · unfold State.freqSum at *; rw [ht, hmap]; exact h1
  · unfold State.present at *; rw [hn, hmap]; exact h2
  · intro b; rw [hfreq, ht]; exact h3 b
  · unfold State.maxCount at *; rw [ht, hp]; exact h4

/-- No count at all meets the counting invariants. -/
theorem countsAgree_of_zero {s : State} (hf : s.freq = Vector.replicate 256 0) (ht : s.total = 0)
    (hn : s.ndist = 0#9) : CountsAgree s := by
  have h0 : ∀ b, s.freqOf b = 0 := fun b => by simp [State.freqOf, hf]
  refine ⟨?_, ?_, fun b => by rw [h0]; exact Nat.zero_le _, by rw [ht]; exact Nat.zero_le _⟩
  · rw [ht, State.freqSum, List.map_congr_left fun b _ => h0 b]; simp
  · simp [State.present, h0, hn]

/-- Counting keeps the counting invariants. -/
theorem countsAgree_countSymbol {s : State} (h : CountsAgree s) (below : s.total ≠ s.maxCount)
    (b : Byte) : CountsAgree (s.countSymbol b) := by
  obtain ⟨h1, h2, h3, h4⟩ := h
  refine ⟨?_, ?_, ?_, ?_⟩
  · rw [freqSum_countSymbol, ← h1]; rfl
  · rw [present_length_countSymbol]
    by_cases hb : s.freqOf b = 0
    · have hlt := present_length_lt_of_absent hb
      have : (s.countSymbol b).ndist = s.ndist + 1#9 := if_pos hb
      rw [if_pos hb, this, BitVec.toNat_add, h2]
      simp; omega
    · have : (s.countSymbol b).ndist = s.ndist := if_neg hb
      rw [if_neg hb, this, h2]
  · intro c
    have := h3 c
    have hb := h3 b
    rw [countSymbol_freqOf]
    change _ ≤ s.total + 1
    split <;> omega
  · change s.total + 1 ≤ s.maxCount
    omega

/-- What a run of COUNT commands leaves when the total stays in range (R234). -/
theorem performAll_count {s : State} (xs : List Byte) (err : s.err = none) (phase : s.phase = .count)
    (room : s.total + xs.length ≤ 2 ^ s.params.freqW - 1) :
    performAll (xs.map .count) s = xs.foldl State.countSymbol s := by
  induction xs generalizing s with
  | nil => rfl
  | cons b xs ih =>
    simp only [List.length_cons] at room
    have : perform (.count b) s = s.countSymbol b := by
      refine perform_of_exec ?_
      simp only [exec, execCount, unlessHalted_of_none err]
      rw [if_neg (by simp [phase]), if_neg (by unfold State.maxCount; omega)]
    rw [List.map_cons, performAll_cons, this, List.foldl_cons]
    exact ih err phase (by change s.total + 1 + xs.length ≤ 2 ^ s.params.freqW - 1; omega)

theorem countSymbol_comm (s : State) (a b : Byte) :
    (s.countSymbol a).countSymbol b = (s.countSymbol b).countSymbol a := by
  have hfreq : ((s.countSymbol a).countSymbol b).freq = ((s.countSymbol b).countSymbol a).freq := by
    refine freq_ext fun c => ?_
    simp only [countSymbol_freqOf]
    by_cases h1 : c = a <;> by_cases h2 : c = b <;> by_cases h3 : a = b <;> simp_all
  have hndist : ((s.countSymbol a).countSymbol b).ndist = ((s.countSymbol b).countSymbol a).ndist := by
    change (if (s.countSymbol a).freqOf b = 0 then _ else _) =
      (if (s.countSymbol b).freqOf a = 0 then _ else _)
    change (if (s.countSymbol a).freqOf b = 0 then (if s.freqOf a = 0 then s.ndist + 1#9 else s.ndist) + 1#9
        else (if s.freqOf a = 0 then s.ndist + 1#9 else s.ndist)) =
      (if (s.countSymbol b).freqOf a = 0 then (if s.freqOf b = 0 then s.ndist + 1#9 else s.ndist) + 1#9
        else (if s.freqOf b = 0 then s.ndist + 1#9 else s.ndist))
    simp only [countSymbol_freqOf]
    by_cases h : a = b
    · subst h; rfl
    · have h' : b ≠ a := fun e => h e.symm
      by_cases h1 : s.freqOf a = 0 <;> by_cases h2 : s.freqOf b = 0 <;> simp [h, h', h1, h2]
  rw [countSymbol_frame (s.countSymbol a) b, countSymbol_frame (s.countSymbol b) a, hfreq, hndist]
  rfl

/-- Counting does not depend on the order of the bytes (R234). -/
theorem foldl_countSymbol_perm {xs ys : List Byte} (h : xs.Perm ys) (s : State) :
    xs.foldl State.countSymbol s = ys.foldl State.countSymbol s := by
  induction h generalizing s with
  | nil => rfl
  | cons b _ ih => exact ih _
  | swap a b l => simp only [List.foldl_cons]; rw [countSymbol_comm]
  | trans _ _ ih1 ih2 => rw [ih1, ih2]

theorem foldl_countSymbol_freqOf (xs : List Byte) (s : State) (b : Byte) :
    (xs.foldl State.countSymbol s).freqOf b = s.freqOf b + xs.count b := by
  induction xs generalizing s with
  | nil => simp
  | cons x xs ih =>
    rw [List.foldl_cons, ih, countSymbol_freqOf, List.count_cons]
    by_cases h : b = x
    · subst h; simp; omega
    · simp [h, Ne.symm h]

theorem foldl_countSymbol_frame (xs : List Byte) (s : State) :
    xs.foldl State.countSymbol s = { s with
      freq := (xs.foldl State.countSymbol s).freq, total := s.total + xs.length
      ndist := (xs.foldl State.countSymbol s).ndist } := by
  induction xs generalizing s with
  | nil => rfl
  | cons x xs ih =>
    rw [List.foldl_cons, ih]
    simp only [List.length_cons]
    rw [show s.total + (xs.length + 1) = (s.countSymbol x).total + xs.length from by
      change _ = s.total + 1 + xs.length; omega]
    rfl

end Sys2Proof.Machine
end

