-- ==== Sys2Proof/Laws/Walk.lean ====
section
/-! SUPPORT. The walk of a tree: paths, the depth bound, and what the codewords it gives are like. -/

namespace Sys2Proof.Machine

/-- Every internal node's children stand below it in the node memory. -/
def Closed (nodes : List Node) : Prop :=
  ∀ (i : Nat) (m : Node), nodes[i]? = some m → m.leaf = false → m.left.toNat < i ∧ m.right.toNat < i

theorem walkFrom_leaf {nodes : List Node} {i : Nat} {m : Node} (h : nodes[i]? = some m)
    (hl : m.leaf = true) (depth : Nat) (p : Digits) :
    walkFrom nodes (depth + 1) i p = [(m.sym, p)] := by
  simp [walkFrom, h, hl]

theorem walkFrom_internal {nodes : List Node} {i : Nat} {m : Node} (h : nodes[i]? = some m)
    (hl : m.leaf = false) (depth : Nat) (p : Digits) :
    walkFrom nodes (depth + 1) i p =
      walkFrom nodes depth m.left.toNat (p ++ [false]) ++
        walkFrom nodes depth m.right.toNat (p ++ [true]) := by
  simp [walkFrom, h, hl]

theorem walkFrom_none {nodes : List Node} {i : Nat} (h : nodes[i]? = none) (depth : Nat)
    (p : Digits) : walkFrom nodes depth i p = [] := by
  cases depth <;> simp [walkFrom, h]

/-- A walk's paths all begin with the path it starts with. -/
theorem walkFrom_path (nodes : List Node) (depth i : Nat) (p : Digits) :
    walkFrom nodes depth i p = (walkFrom nodes depth i []).map fun bq => (bq.1, p ++ bq.2) := by
  induction depth generalizing i p with
  | zero => rfl
  | succ depth ih =>
    match h : nodes[i]? with
    | none => simp [walkFrom_none h]
    | some m =>
      cases hl : m.leaf with
      | true => simp [walkFrom_leaf h hl]
      | false =>
        rw [walkFrom_internal h hl, walkFrom_internal h hl, ih _ (p ++ [false]), ih _ (p ++ [true]),
          ih _ ([] ++ [false]), ih _ ([] ++ [true])]
        simp [Function.comp_def]

/-- In a closed tree a depth above the node's index is enough. -/
theorem walkFrom_depth {nodes : List Node} (hc : Closed nodes) {d d' i : Nat} (p : Digits)
    (h : i < d) (h' : i < d') : walkFrom nodes d i p = walkFrom nodes d' i p := by
  induction d generalizing d' i p with
  | zero => omega
  | succ d ih =>
    obtain ⟨e, rfl⟩ : ∃ e, d' = e + 1 := ⟨d' - 1, by omega⟩
    match hm : nodes[i]? with
    | none => simp [walkFrom_none hm]
    | some m =>
      cases hl : m.leaf with
      | true => rw [walkFrom_leaf hm hl, walkFrom_leaf hm hl]
      | false =>
        have := hc i m hm hl
        rw [walkFrom_internal hm hl, walkFrom_internal hm hl,
          ih (p ++ [false]) (by omega) (show m.left.toNat < e by omega),
          ih (p ++ [true]) (by omega) (show m.right.toNat < e by omega)]

/-- Appending a node changes no walk from the nodes before it. -/
theorem walkFrom_append {nodes : List Node} (hc : Closed nodes) (x : Node) (d : Nat) {i : Nat}
    (p : Digits) (hi : i < nodes.length) :
    walkFrom (nodes ++ [x]) d i p = walkFrom nodes d i p := by
  induction d generalizing i p with
  | zero => rfl
  | succ d ih =>
    have hget : (nodes ++ [x])[i]? = nodes[i]? := List.getElem?_append_left hi
    match hm : nodes[i]? with
    | none => rw [walkFrom_none hm, walkFrom_none (hget.trans hm)]
    | some m =>
      cases hl : m.leaf with
      | true => rw [walkFrom_leaf hm hl, walkFrom_leaf (hget.trans hm) hl]
      | false =>
        have := hc i m hm hl
        rw [walkFrom_internal hm hl, walkFrom_internal (hget.trans hm) hl,
          ih (p ++ [false]) (by omega), ih (p ++ [true]) (by omega)]

/-- In a closed tree the walk finds exactly the paths of R301. -/
theorem mem_walkFrom {nodes : List Node} (hc : Closed nodes) {d i : Nat} (hi : i < d) {b : Byte}
    {p : Digits} : (b, p) ∈ walkFrom nodes d i [] ↔ PathTo nodes i p b := by
  induction d generalizing i p with
  | zero => omega
  | succ d ih =>
    match hm : nodes[i]? with
    | none =>
      rw [walkFrom_none hm]
      refine ⟨fun h => by simp at h, fun h => ?_⟩
      cases h with
      | leaf h => rw [hm] at h; cases h
      | left h => rw [hm] at h; cases h
      | right h => rw [hm] at h; cases h
    | some m =>
      cases hl : m.leaf with
      | true =>
        rw [walkFrom_leaf hm hl, List.mem_singleton, Prod.mk.injEq]
        constructor
        · rintro ⟨rfl, rfl⟩; exact .leaf hm hl
        · intro h
          cases h with
          | leaf h => rw [hm, Option.some.injEq] at h; subst h; exact ⟨rfl, rfl⟩
          | left h h' => rw [hm, Option.some.injEq] at h; subst h; rw [hl] at h'; cases h'
          | right h h' => rw [hm, Option.some.injEq] at h; subst h; rw [hl] at h'; cases h'
      | false =>
        have hlt := hc i m hm hl
        rw [walkFrom_internal hm hl, walkFrom_path _ _ _ ([] ++ [false]),
          walkFrom_path _ _ _ ([] ++ [true])]
        simp only [List.nil_append, List.mem_append, List.mem_map, Prod.mk.injEq, Prod.exists]
        constructor
        · rintro (⟨b', q, hq, rfl, rfl⟩ | ⟨b', q, hq, rfl, rfl⟩)
          · exact .left hm hl ((ih (by omega)).mp hq)
          · exact .right hm hl ((ih (by omega)).mp hq)
        · intro h
          cases h with
          | leaf h h' => rw [hm, Option.some.injEq] at h; subst h; rw [hl] at h'; cases h'
          | left h h' hr =>
            rw [hm, Option.some.injEq] at h; subst h
            exact .inl ⟨_, _, (ih (by omega)).mpr hr, rfl, rfl⟩
          | right h h' hr =>
            rw [hm, Option.some.injEq] at h; subst h
            exact .inr ⟨_, _, (ih (by omega)).mpr hr, rfl, rfl⟩

/-- A tree whose internal nodes have both their children in the node memory, below themselves. -/
def Strict (nodes : List Node) : Prop :=
  ∀ (i : Nat) (m : Node), nodes[i]? = some m → m.leaf = false →
    m.left.toNat < i ∧ m.right.toNat < i ∧ m.left.toNat < nodes.length ∧ m.right.toNat < nodes.length

theorem Strict.closed {nodes : List Node} (h : Strict nodes) : Closed nodes := fun i m hm hl =>
  ⟨(h i m hm hl).1, (h i m hm hl).2.1⟩

/-- In a strict tree a leaf at depth `d` comes with at least `d` other leaves. -/
theorem walkFrom_depth_le {nodes : List Node} (hs : Strict nodes) (d : Nat) {i : Nat} (hi : i < d)
    (hlt : i < nodes.length) :
    1 ≤ (walkFrom nodes d i []).length ∧
      ∀ b q, (b, q) ∈ walkFrom nodes d i [] → q.length + 1 ≤ (walkFrom nodes d i []).length := by
  induction d generalizing i with
  | zero => omega
  | succ d ih =>
    have hm : nodes[i]? = some nodes[i] := List.getElem?_eq_getElem hlt
    cases hl : nodes[i].leaf with
    | true =>
      rw [walkFrom_leaf hm hl]
      refine ⟨by simp, fun b q hq => ?_⟩
      simp only [List.mem_singleton, Prod.mk.injEq] at hq
      simp [hq.2]
    | false =>
      obtain ⟨l1, l2, l3, l4⟩ := hs i _ hm hl
      obtain ⟨a1, a2⟩ := ih (by omega) l3
      obtain ⟨b1, b2⟩ := ih (by omega) l4
      rw [walkFrom_internal hm hl, walkFrom_path _ _ _ ([] ++ [false]),
        walkFrom_path _ _ _ ([] ++ [true])]
      refine ⟨by simp; omega, fun b q hq => ?_⟩
      simp only [List.nil_append, List.mem_append, List.mem_map, Prod.mk.injEq, Prod.exists] at hq
      simp only [List.nil_append, List.length_append, List.length_map]
      rcases hq with ⟨b', q', hmem, -, rfl⟩ | ⟨b', q', hmem, -, rfl⟩
      · have := a2 _ _ hmem
        simp; omega
      · have := b2 _ _ hmem
        simp; omega

/-- No path of a walk is a prefix of another's. -/
theorem walkFrom_pairwise (nodes : List Node) (d i : Nat) :
    (walkFrom nodes d i []).Pairwise fun x y => ¬ x.2 <+: y.2 ∧ ¬ y.2 <+: x.2 := by
  induction d generalizing i with
  | zero => exact .nil
  | succ d ih =>
    match hm : nodes[i]? with
    | none => rw [walkFrom_none hm]; exact .nil
    | some m =>
      cases hl : m.leaf with
      | true => rw [walkFrom_leaf hm hl]; exact List.pairwise_singleton _ _
      | false =>
        rw [walkFrom_internal hm hl, walkFrom_path _ _ _ ([] ++ [false]),
          walkFrom_path _ _ _ ([] ++ [true]), List.pairwise_append]
        refine ⟨?_, ?_, ?_⟩
        · exact List.pairwise_map.mpr ((ih _).imp fun h => by simpa using h)
        · exact List.pairwise_map.mpr ((ih _).imp fun h => by simpa using h)
        · simp only [List.mem_map, Prod.exists]
          rintro _ ⟨b, q, -, rfl⟩ _ ⟨b', q', -, rfl⟩
          simp

theorem walkFrom_nodup (nodes : List Node) (d i : Nat) : (walkFrom nodes d i []).Nodup :=
  (walkFrom_pairwise nodes d i).imp fun {x y} h (e : x = y) => h.1 (by rw [e])

/-- The Kraft sum of a strict tree's paths, scaled by `2^k` (R304). -/
theorem walkFrom_kraft {nodes : List Node} (hs : Strict nodes) (d : Nat) {i : Nat} (hi : i < d)
    (hlt : i < nodes.length) (k : Nat) (hk : ∀ b q, (b, q) ∈ walkFrom nodes d i [] → q.length ≤ k) :
    ((walkFrom nodes d i []).map fun bq => 2 ^ (k - bq.2.length)).sum = 2 ^ k := by
  induction d generalizing i k with
  | zero => omega
  | succ d ih =>
    have hm : nodes[i]? = some nodes[i] := List.getElem?_eq_getElem hlt
    cases hl : nodes[i].leaf with
    | true => rw [walkFrom_leaf hm hl]; simp
    | false =>
      obtain ⟨l1, l2, l3, l4⟩ := hs i _ hm hl
      rw [walkFrom_internal hm hl, walkFrom_path _ _ _ ([] ++ [false]),
        walkFrom_path _ _ _ ([] ++ [true])] at hk ⊢
      have hk1 : ∀ b q, (b, q) ∈ walkFrom nodes d nodes[i].left.toNat [] → q.length + 1 ≤ k := by
        intro b q hq
        have := hk b ([] ++ [false] ++ q)
          (List.mem_append_left _ (List.mem_map.mpr ⟨(b, q), hq, rfl⟩))
        simpa using this
      have hk2 : ∀ b q, (b, q) ∈ walkFrom nodes d nodes[i].right.toNat [] → q.length + 1 ≤ k := by
        intro b q hq
        have := hk b ([] ++ [true] ++ q)
          (List.mem_append_right _ (List.mem_map.mpr ⟨(b, q), hq, rfl⟩))
        simpa using this
      have hpos : 1 ≤ k := by
        have h1 := (walkFrom_depth_le hs d (show nodes[i].left.toNat < d by omega) l3).1
        match hw : walkFrom nodes d nodes[i].left.toNat [] with
        | [] => simp [hw] at h1
        | (b, q) :: _ =>
          have := hk1 b q (by simp [hw])
          omega
      obtain ⟨k, rfl⟩ : ∃ j, k = j + 1 := ⟨k - 1, by omega⟩
      have e : ∀ (x : Bool) (l : List (Byte × Digits)), (∀ b q, (b, q) ∈ l → q.length + 1 ≤ k + 1) →
          ((l.map fun bq => (bq.1, [] ++ [x] ++ bq.2)).map fun bq => 2 ^ (k + 1 - bq.2.length)).sum =
            (l.map fun bq => 2 ^ (k - bq.2.length)).sum := by
        intro x l _
        rw [List.map_map]
        congr 1
        refine List.map_congr_left fun bq _ => ?_
        simp
      rw [List.map_append, List.sum_append, e _ _ hk1, e _ _ hk2,
        ih (by omega) l3 k (fun b q hq => by have := hk1 b q hq; omega),
        ih (by omega) l4 k (fun b q hq => by have := hk2 b q hq; omega), Nat.pow_succ]
      omega

end Sys2Proof.Machine
end

