-- ==== Sys2Proof/Laws/Forest.lean ====
section
/-! SUPPORT. The forest BUILD merges: an invariant of the merge loop, and the tree it ends in. -/

namespace Sys2Proof.Machine

/-- The symbols a walk from node `i` reaches, in the walk's order. -/
def reached (nodes : List Node) (i : Nat) : List Byte := (walkFrom nodes (i + 1) i []).map Prod.fst

/-- Before each merge: the nodes so far are the leaves and then internal nodes, and the working set
holds the roots of a forest whose trees together have every leaf. -/
structure Forest (leaves : List Node) (w : List Key) (nodes : List Node) : Prop where
  leaves_eq : nodes.take leaves.length = leaves
  internal : ∀ (i : Nat) (m : Node), leaves.length ≤ i → nodes[i]? = some m → InternalNode nodes i m
  size : nodes.length + w.length = 2 * leaves.length
  nonempty : w ≠ []
  keys : ∀ k ∈ w, ∃ m : Node, nodes[k.idx]? = some m ∧ m.freq = k.freq
  children : (childIndices nodes ++ w.map Key.idx).Perm (List.range nodes.length)
  freqs : (w.map Key.freq).sum = (leaves.map Node.freq).sum
  syms : (w.flatMap fun k => reached nodes k.idx).Perm (leaves.map Node.sym)

theorem childIndices_append (nodes : List Node) (x : Node) :
    childIndices (nodes ++ [x]) =
      childIndices nodes ++ if x.leaf then [] else [x.left.toNat, x.right.toNat] := by
  simp [childIndices]

theorem childIndices_leaves {leaves : List Node} (h : ∀ m ∈ leaves, m.leaf = true) :
    childIndices leaves = [] := by
  unfold childIndices
  rw [List.flatMap_eq_nil_iff]
  intro m hm
  simp [h m hm]

theorem internalNode_append {nodes : List Node} {i : Nat} {m : Node} (x : Node)
    (h : InternalNode nodes i m) : InternalNode (nodes ++ [x]) i m := by
  obtain ⟨h1, h2, h3, h4, l, r, hl, hr, hf⟩ := h
  refine ⟨h1, h2, h3, h4, l, r, ?_, ?_, hf⟩
  · rw [List.getElem?_append_left (List.getElem?_eq_some_iff.mp hl).1]; exact hl
  · rw [List.getElem?_append_left (List.getElem?_eq_some_iff.mp hr).1]; exact hr

/-- A node memory of leaves and then internal nodes is strict. -/
theorem strict_of_internal {leaves nodes : List Node} (hleaf : ∀ m ∈ leaves, m.leaf = true)
    (htake : nodes.take leaves.length = leaves)
    (hint : ∀ (i : Nat) (m : Node), leaves.length ≤ i → nodes[i]? = some m → InternalNode nodes i m) :
    Strict nodes := by
  intro i m hm hl
  rcases Nat.lt_or_ge i leaves.length with hi | hi
  · have : leaves[i]? = some m := by
      rw [← htake, List.getElem?_take_of_lt hi]; exact hm
    rw [hleaf m (List.mem_of_getElem? this)] at hl
    cases hl
  · obtain ⟨-, -, h3, h4, l, r, hl', hr', -⟩ := hint i m hi hm
    exact ⟨h3, h4, (List.getElem?_eq_some_iff.mp hl').1, (List.getElem?_eq_some_iff.mp hr').1⟩

theorem reached_append {nodes : List Node} (hc : Closed nodes) (x : Node) {i : Nat}
    (hi : i < nodes.length) : reached (nodes ++ [x]) i = reached nodes i := by
  unfold reached
  rw [walkFrom_append hc x _ _ hi]

theorem reached_leaf {nodes : List Node} {i : Nat} {m : Node} (h : nodes[i]? = some m)
    (hl : m.leaf = true) : reached nodes i = [m.sym] := by
  simp [reached, walkFrom_leaf h hl]

theorem walkFrom_syms_path (nodes : List Node) (d i : Nat) (p : Digits) :
    (walkFrom nodes d i p).map Prod.fst = (walkFrom nodes d i []).map Prod.fst := by
  rw [walkFrom_path, List.map_map]; rfl

theorem reached_internal {nodes : List Node} (hc : Closed nodes) {i : Nat} {m : Node}
    (h : nodes[i]? = some m) (hl : m.leaf = false) :
    reached nodes i = reached nodes m.left.toNat ++ reached nodes m.right.toNat := by
  obtain ⟨h1, h2⟩ := hc i m h hl
  unfold reached
  rw [walkFrom_internal h hl, List.map_append, walkFrom_syms_path, walkFrom_syms_path nodes i m.right.toNat,
    walkFrom_depth hc [] h1 (Nat.lt_succ_self _), walkFrom_depth hc [] h2 (Nat.lt_succ_self _)]

section

variable {leaves : List Node} (hleaf : ∀ m ∈ leaves, m.leaf = true) (hn : leaves.length ≤ 256)

include hleaf in
/-- The leaves alone are a forest. -/
theorem forest_start (hne : leaves ≠ []) : Forest leaves (keysFrom 0 leaves) leaves where
  leaves_eq := List.take_length
  internal i m hi hm := by
    rw [List.getElem?_eq_none hi] at hm; cases hm
  size := by simp; omega
  nonempty h := by
    have := congrArg List.length h
    simp only [keysFrom_length, List.length_nil] at this
    exact hne (List.length_eq_zero_iff.mp this)
  keys k hk := by
    rw [keysFrom_eq] at hk
    obtain ⟨⟨m, i⟩, hmem, rfl⟩ := List.mem_map.mp hk
    exact ⟨m, by simpa using List.mk_mem_zipIdx_iff_getElem?.mp hmem, rfl⟩
  children := by
    rw [childIndices_leaves hleaf, keysFrom_eq, List.map_map]
    have : (leaves.zipIdx.map (Key.idx ∘ fun ni : Node × Nat => (⟨ni.1.freq, ni.2⟩ : Key))) =
        List.range leaves.length := by
      rw [show (Key.idx ∘ fun ni : Node × Nat => (⟨ni.1.freq, ni.2⟩ : Key)) = Prod.snd from rfl,
        List.zipIdx_map_snd, List.range_eq_range']
    rw [this]; rfl
  freqs := by
    rw [keysFrom_eq, List.map_map]
    rw [show (Key.freq ∘ fun ni : Node × Nat => (⟨ni.1.freq, ni.2⟩ : Key)) = Node.freq ∘ Prod.fst from rfl,
      ← List.map_map, List.zipIdx_map_fst]
  syms := by
    have : ((keysFrom 0 leaves).flatMap fun k => reached leaves k.idx) = leaves.map Node.sym := by
      have h : ∀ ni ∈ leaves.zipIdx, reached leaves ni.2 = [ni.1.sym] := by
        rintro ⟨m, i⟩ hmem
        have hm := List.mk_mem_zipIdx_iff_getElem?.mp hmem
        exact reached_leaf hm (hleaf m (List.mem_of_getElem? hm))
      rw [keysFrom_eq, List.flatMap_map, List.flatMap_congr h, ← List.map_eq_flatMap,
        show (fun a : Node × Nat => a.1.sym) = Node.sym ∘ Prod.fst from rfl, ← List.map_map,
        List.zipIdx_map_fst]
    rw [this]

include hleaf hn in
/-- Each merge keeps the forest. -/
theorem forest_merge (w : List Key) (nodes : List Node) (m1 m2 : Key) (rest : List Key)
    (h : Forest leaves w nodes) (hp : w.Perm (m1 :: m2 :: rest)) :
    Forest leaves (⟨m1.freq + m2.freq, nodes.length⟩ :: rest) (nodes ++ [mergeNode m1 m2]) := by
  have hlen := hp.length_eq
  have hsize := h.size
  simp only [List.length_cons] at hlen
  have hge : leaves.length ≤ nodes.length := by
    have := congrArg List.length h.leaves_eq
    rw [List.length_take] at this
    omega
  obtain ⟨n1, g1, f1⟩ := h.keys m1 (hp.mem_iff.mpr (by simp))
  obtain ⟨n2, g2, f2⟩ := h.keys m2 (hp.mem_iff.mpr (by simp))
  have lt1 := (List.getElem?_eq_some_iff.mp g1).1
  have lt2 := (List.getElem?_eq_some_iff.mp g2).1
  have e1 : (mergeNode m1 m2).right.toNat = m1.idx := by
    simp only [mergeNode, BitVec.toNat_ofNat]; omega
  have e2 : (mergeNode m1 m2).left.toNat = m2.idx := by
    simp only [mergeNode, BitVec.toNat_ofNat]; omega
  have hclosed : Closed nodes := (strict_of_internal hleaf h.leaves_eq h.internal).closed
  have hnew : InternalNode (nodes ++ [mergeNode m1 m2]) nodes.length (mergeNode m1 m2) := by
    refine ⟨rfl, rfl, by rw [e2]; exact lt2, by rw [e1]; exact lt1, n2, n1, ?_, ?_, ?_⟩
    · rw [e2, List.getElem?_append_left lt2]; exact g2
    · rw [e1, List.getElem?_append_left lt1]; exact g1
    · rw [f1, f2]; exact Nat.add_comm _ _
  have hint : ∀ (i : Nat) (m : Node), leaves.length ≤ i → (nodes ++ [mergeNode m1 m2])[i]? = some m →
      InternalNode (nodes ++ [mergeNode m1 m2]) i m := by
    intro i m hi hm
    rcases Nat.lt_trichotomy i nodes.length with hlt | rfl | hgt
    · rw [List.getElem?_append_left hlt] at hm
      exact internalNode_append _ (h.internal i m hi hm)
    · rw [List.getElem?_concat_length, Option.some.injEq] at hm
      subst hm; exact hnew
    · rw [List.getElem?_eq_none (by simp; omega)] at hm; cases hm
  have htake : (nodes ++ [mergeNode m1 m2]).take leaves.length = leaves := by
    rw [List.take_append_of_le_length hge, h.leaves_eq]
  have hclosed' := (strict_of_internal hleaf htake hint).closed
  have hold : ∀ k ∈ w, k.idx < nodes.length := fun k hk => by
    obtain ⟨m, hm, -⟩ := h.keys k hk
    exact (List.getElem?_eq_some_iff.mp hm).1
  refine ⟨htake, hint, by simp; omega, by simp, ?_, ?_, ?_, ?_⟩
  · intro k hk
    rcases List.mem_cons.mp hk with rfl | hk
    · exact ⟨_, List.getElem?_concat_length, rfl⟩
    · obtain ⟨m, hm, hf⟩ := h.keys k (hp.mem_iff.mpr (by simp [hk]))
      exact ⟨m, by rw [List.getElem?_append_left (List.getElem?_eq_some_iff.mp hm).1]; exact hm, hf⟩
  · have hc := h.children
    rw [childIndices_append, e1, e2, List.length_append, List.length_singleton, List.range_succ]
    simp only [mergeNode, Bool.false_eq_true, if_false, List.map_cons]
    have hw : (w.map Key.idx).Perm (m1.idx :: m2.idx :: rest.map Key.idx) := hp.map _
    have h1 := (hw.append_left (childIndices nodes)).symm.trans hc
    refine List.Perm.trans ?_ (h1.append_right [nodes.length])
    rw [List.append_assoc, List.append_assoc]
    refine List.Perm.append_left _ ?_
    have : (m2.idx :: m1.idx :: (nodes.length :: rest.map Key.idx)).Perm
        (m1.idx :: m2.idx :: (rest.map Key.idx ++ [nodes.length])) :=
      (List.Perm.swap _ _ _).trans
        (((List.perm_append_singleton _ _).symm.cons _).cons _)
    exact this
  · rw [← h.freqs, (hp.map Key.freq).sum_eq]
    simp only [List.map_cons, List.sum_cons]; omega
  · refine List.Perm.trans ?_ h.syms
    refine List.Perm.trans ?_ (hp.flatMap_right _).symm
    simp only [List.flatMap_cons]
    rw [reached_internal hclosed' List.getElem?_concat_length rfl, e1, e2,
      reached_append hclosed _ lt1, reached_append hclosed _ lt2,
      List.flatMap_congr (fun k hk => reached_append hclosed _ (hold k (hp.mem_iff.mpr (by simp [hk])))),
      ← List.append_assoc]
    exact (List.perm_append_comm).append_right _

/-- What BUILD's loop ends in: one tree of `2n − 1` nodes, whose root is the last of them. -/
structure OneTree (leaves nodes : List Node) : Prop where
  length_eq : nodes.length = 2 * leaves.length - 1
  leaves_eq : nodes.take leaves.length = leaves
  internal : ∀ (i : Nat) (m : Node), leaves.length ≤ i → nodes[i]? = some m → InternalNode nodes i m
  strict : Strict nodes
  children : (childIndices nodes).Perm (List.range (2 * leaves.length - 2))
  syms : (reached nodes (2 * leaves.length - 2)).Perm (leaves.map Node.sym)
  root_freq : ∃ m : Node, nodes[2 * leaves.length - 2]? = some m ∧
    m.freq = (leaves.map Node.freq).sum

include hleaf hn in
theorem buildNodes_oneTree (hne : leaves ≠ []) : OneTree leaves (buildNodes leaves) := by
  obtain ⟨w, hf, hw⟩ := mergeLoop_induct (P := Forest leaves)
    (fun w nodes m1 m2 rest h hp _ _ => forest_merge hleaf hn w nodes m1 m2 rest h hp)
    leaves.length (keysFrom 0 leaves) leaves (forest_start hleaf hne) (by simp)
  change Forest leaves w (buildNodes leaves) at hf
  have hsize := hf.size
  match w, hf, hw with
  | [], hf, _ => exact absurd rfl hf.nonempty
  | _ :: _ :: _, _, hw => simp at hw
  | [k], hf, _ =>
    simp only [List.length_singleton] at hsize
    have hpos : 1 ≤ leaves.length := List.length_pos_iff.mpr hne
    have hstrict := strict_of_internal hleaf hf.leaves_eq hf.internal
    obtain ⟨m, hm, hfreq⟩ := hf.keys k (by simp)
    have hk := (List.getElem?_eq_some_iff.mp hm).1
    -- The last node is nobody's child, since children stand below their parents; so it is the root.
    have hroot : k.idx = 2 * leaves.length - 2 := by
      have hmem : (buildNodes leaves).length - 1 ∈
          childIndices (buildNodes leaves) ++ [k].map Key.idx :=
        hf.children.mem_iff.mpr (List.mem_range.mpr (by omega))
      rcases List.mem_append.mp hmem with hc | hc
      · obtain ⟨x, hx, hxm⟩ := List.mem_flatMap.mp hc
        obtain ⟨i, hi⟩ := List.getElem?_of_mem hx
        have hi' := (List.getElem?_eq_some_iff.mp hi).1
        cases hl : x.leaf with
        | true => simp [hl] at hxm
        | false =>
          have := hstrict i x hi hl
          simp [hl] at hxm
          omega
      · simp at hc
        omega
    refine ⟨by omega, hf.leaves_eq, hf.internal, hstrict, ?_, ?_, ?_⟩
    · have hc := hf.children
      have hl : (buildNodes leaves).length = 2 * leaves.length - 2 + 1 := by omega
      rw [hl, List.range_succ, List.map_singleton, hroot] at hc
      exact (List.perm_append_right_iff _).mp hc
    · have := hf.syms
      simpa [hroot] using this
    · refine ⟨m, by rw [← hroot]; exact hm, ?_⟩
      rw [hfreq, ← hf.freqs]; simp

end

theorem leafNodes_leaf {s : State} : ∀ m ∈ s.leafNodes, m.leaf = true := by
  intro m hm
  obtain ⟨b, -, rfl⟩ := List.mem_map.mp hm
  rfl

theorem leafNodes_syms (s : State) : s.leafNodes.map Node.sym = s.present := by
  simp [State.leafNodes, List.map_map, Function.comp_def]

theorem leafNodes_freqs (s : State) : (s.leafNodes.map Node.freq).sum = s.freqSum := by
  simp only [State.leafNodes, List.map_map, Function.comp_def, State.freqSum, State.present]
  generalize allSymbols = l
  induction l with
  | nil => rfl
  | cons b l ih =>
    by_cases h : s.freqOf b = 0
    · simp [h, ih]
    · simp [h, ih]

/-- The tree BUILD makes when some symbol is present (R266). -/
theorem buildTree_oneTree {s : State} (h : s.present ≠ []) : OneTree s.leafNodes s.buildTree.node := by
  have : s.buildTree.node = buildNodes s.leafNodes := by rw [← leaves_eq_leafNodes]; rfl
  rw [this]
  refine buildNodes_oneTree leafNodes_leaf ?_ ?_
  · rw [leafNodes_length]; exact present_length_le s
  · intro e
    exact h (List.map_eq_nil_iff.mp e)

end Sys2Proof.Machine
end

