-- ==== Sys2Proof/Laws/Table.lean ====
section
/-! SUPPORT. The code table that WALK writes, entry by entry. -/

namespace Sys2Proof.Machine

section

variable {α : Type} (g : Digits → α)

/-- Writing one entry for each codeword leaves the other symbols' entries. -/
theorem writeEntries_other (codes : List (Byte × Digits)) (init : Vector α 256) {b : Byte}
    (hb : b ∉ codes.map Prod.fst) :
    (codes.foldl (fun table bp => table.set bp.1.toNat (g bp.2) bp.1.isLt) init)[b.toNat]'b.isLt =
      init[b.toNat]'b.isLt := by
  induction codes generalizing init with
  | nil => rfl
  | cons bp codes ih =>
    simp only [List.map_cons, List.mem_cons, not_or] at hb
    rw [List.foldl_cons, ih _ hb.2, Vector.getElem_set_ne _ _ (byte_toNat_ne hb.1)]

/-- Each codeword's entry is the one written for it, when no symbol has two. -/
theorem writeEntries_own (codes : List (Byte × Digits)) (init : Vector α 256)
    (hn : (codes.map Prod.fst).Nodup) {b : Byte} {p : Digits} (hb : (b, p) ∈ codes) :
    (codes.foldl (fun table bp => table.set bp.1.toNat (g bp.2) bp.1.isLt) init)[b.toNat]'b.isLt =
      g p := by
  induction codes generalizing init with
  | nil => simp at hb
  | cons bp codes ih =>
    rw [List.map_cons, List.nodup_cons] at hn
    rw [List.foldl_cons]
    rcases List.mem_cons.mp hb with h | h
    · subst h
      rw [writeEntries_other g codes _ hn.1]
      simp
    · exact ih _ hn.2 h

end

variable {s : State}

theorem writeCodes_lenOf_own (hn : (s.treeCodes.map Prod.fst).Nodup) {b : Byte} {p : Digits}
    (hb : (b, p) ∈ s.treeCodes) : s.writeCodes.lenOf b = BitVec.ofNat 8 p.length :=
  writeEntries_own (fun p => BitVec.ofNat 8 p.length) _ _ hn hb

theorem writeCodes_codeOf_own (hn : (s.treeCodes.map Prod.fst).Nodup) {b : Byte} {p : Digits}
    (hb : (b, p) ∈ s.treeCodes) : s.writeCodes.codeOf b = BitVec.ofNat 256 (digitsToNat p) :=
  writeEntries_own (fun p => BitVec.ofNat 256 (digitsToNat p)) _ _ hn hb

theorem writeCodes_lenOf_other {b : Byte} (hb : b ∉ s.treeCodes.map Prod.fst) :
    s.writeCodes.lenOf b = 0#8 := by
  refine (writeEntries_other (fun p => BitVec.ofNat 8 p.length) _ _ hb).trans ?_
  simp

theorem writeCodes_codeOf_other {b : Byte} (hb : b ∉ s.treeCodes.map Prod.fst) :
    s.writeCodes.codeOf b = 0#256 := by
  refine (writeEntries_other (fun p => BitVec.ofNat 256 (digitsToNat p)) _ _ hb).trans ?_
  simp

/-- A symbol of the tree is given its path as its codeword. -/
theorem writeCodes_codeword (hn : (s.treeCodes.map Prod.fst).Nodup) {b : Byte} {p : Digits}
    (hb : (b, p) ∈ s.treeCodes) (hp : p.length ≤ 255) : s.writeCodes.codeword b = p := by
  unfold State.codeword
  rw [writeCodes_lenOf_own hn hb, writeCodes_codeOf_own hn hb]
  have : (BitVec.ofNat 8 p.length).toNat = p.length := by
    rw [BitVec.toNat_ofNat]; exact Nat.mod_eq_of_lt (by omega)
  rw [this]
  exact digitsOf_ofNat p (by omega)

end Sys2Proof.Machine
end

