-- ==== Sys2Proof/Laws/Built.lean ====
section
/-! SUPPORT. The tree invariants: BUILD establishes them, and what they say of the walk and of the code
table that WALK writes. -/

namespace Sys2Proof.Machine

theorem present_congr {s t : State} (h : t.freq = s.freq) : t.present = s.present := by
  unfold State.present
  rw [funext (freqOf_congr h)]

theorem leafNodes_congr {s t : State} (h : t.freq = s.freq) : t.leafNodes = s.leafNodes := by
  unfold State.leafNodes
  rw [present_congr h, funext (freqOf_congr h)]

/-- The tree invariants read FREQ, TOTAL, NDIST, the node memory and ROOT alone. -/
theorem treeAgrees_congr {s t : State} (h : TreeAgrees s) (hf : t.freq = s.freq)
    (ht : t.total = s.total) (hd : t.ndist = s.ndist) (hn : t.node = s.node) (hr : t.root = s.root) :
    TreeAgrees t := by
  obtain ⟨h1, h2, h3, h4, h5, h6⟩ := h
  refine ⟨?_, ?_, ?_, ?_, ?_, ?_⟩
  · rw [hn, hd, leafNodes_congr hf]; exact h1
  · rw [hn, hd]; exact h2
  · rw [hn, hr]; exact h3
  · intro b; rw [hn, hr, freqOf_congr hf]; exact h4 b
  · rw [hn, hr]; exact h5
  · rw [hn, hr, ht]; exact h6

/-! ### What BUILD leaves -/

theorem buildTree_frame (s : State) :
    s.buildTree = { s with
      node := s.buildTree.node, nnodes := s.buildTree.nnodes, root := s.buildTree.root
      rootValid := s.buildTree.rootValid, phase := .built } := rfl

theorem buildTree_node (s : State) : s.buildTree.node = buildNodes s.leafNodes := by
  rw [← leaves_eq_leafNodes]; rfl

theorem buildTree_nnodes (s : State) :
    s.buildTree.nnodes = BitVec.ofNat 10 s.buildTree.node.length := rfl

theorem buildTree_root (s : State) :
    s.buildTree.root = BitVec.ofNat 9 (s.buildTree.node.length - 1) := rfl

theorem buildTree_rootValid (s : State) : s.buildTree.rootValid = !s.buildTree.node.isEmpty := rfl

/-- No present symbol: no node (R264). -/
theorem buildTree_none {s : State} (h : s.present = []) :
    s.buildTree = { s with
      node := [], nnodes := 0#10, root := 0#9, rootValid := false, phase := .built } := by
  have : s.leaves = [] := by rw [leaves_eq_leafNodes]; simp [State.leafNodes, h]
  unfold State.buildTree
  simp [this, buildNodes, mergeLoop]

/-- One present symbol: its leaf is the root (R265). -/
theorem buildTree_one {s : State} {b : Byte} (h : s.present = [b]) :
    s.buildTree = { s with
      node := [leafNode b (s.freqOf b)], nnodes := 1#10, root := 0#9, rootValid := true
      phase := .built } := by
  have : s.leaves = [leafNode b (s.freqOf b)] := by
    rw [leaves_eq_leafNodes]; simp [State.leafNodes, h, leafNode]
  unfold State.buildTree
  simp [this, buildNodes, mergeLoop, keysFrom, extractLeast, leastKey]

section

variable {s : State} (h : s.present ≠ [])

include h

theorem present_pos : 1 ≤ s.present.length := List.length_pos_iff.mpr h

theorem buildTree_length : s.buildTree.node.length = 2 * s.present.length - 1 := by
  rw [(buildTree_oneTree h).length_eq, leafNodes_length]

theorem buildTree_nnodes_toNat : s.buildTree.nnodes.toNat = 2 * s.present.length - 1 := by
  have := present_length_le s
  rw [buildTree_nnodes, buildTree_length h, BitVec.toNat_ofNat, Nat.mod_eq_of_lt (by omega)]

theorem buildTree_root_toNat : s.buildTree.root.toNat = 2 * s.present.length - 2 := by
  have := present_length_le s
  rw [buildTree_root, buildTree_length h, BitVec.toNat_ofNat, Nat.mod_eq_of_lt (by omega)]
  omega

theorem buildTree_rootValid_true : s.buildTree.rootValid = true := by
  have hlen := buildTree_length h
  have hpos := present_pos h
  rw [buildTree_rootValid]
  cases hn : s.buildTree.node with
  | nil => rw [hn, List.length_nil] at hlen; omega
  | cons a l => rfl

/-- BUILD establishes the tree invariants (R97, R266). -/
theorem treeAgrees_buildTree (hc : CountsAgree s) : TreeAgrees s.buildTree := by
  have ht := buildTree_oneTree h
  have hlen := leafNodes_length s
  have hle := present_length_le s
  have hpos := present_pos h
  have hroot := buildTree_root_toNat h
  have hd : s.buildTree.ndist.toNat = s.leafNodes.length := by rw [hlen]; exact hc.ndist_eq
  have hsyms : ((walkFrom s.buildTree.node maxNodes s.buildTree.root.toNat []).map Prod.fst).Perm
      s.present := by
    rw [hroot, walkFrom_depth ht.strict.closed [] (d' := 2 * s.present.length - 2 + 1)
      (by unfold maxNodes; omega) (Nat.lt_succ_self _), ← hlen]
    have := ht.syms
    rw [leafNodes_syms] at this
    exact this
  have hmem : ∀ {b : Byte} {p : Digits}, (b, p) ∈ walkFrom s.buildTree.node maxNodes
      s.buildTree.root.toNat [] ↔ PathTo s.buildTree.node s.buildTree.root.toNat p b :=
    mem_walkFrom ht.strict.closed (by rw [hroot]; unfold maxNodes; omega)
  refine ⟨?_, ?_, ?_, ?_, ?_, ?_⟩
  · rw [hd]
    exact ht.leaves_eq
  · rw [hd]
    exact ht.internal
  · rw [hroot, ← hlen]
    exact ht.children
  · intro b
    rw [show s.buildTree.freqOf b = s.freqOf b from rfl, ← mem_present, ← hsyms.mem_iff]
    simp [hmem]
  · intro b p q hp hq
    have hn := hsyms.nodup_iff.mpr (present_nodup s)
    exact congrArg Prod.snd
      (List.inj_on_of_nodup_map hn (hmem.mpr hp) (hmem.mpr hq) rfl)
  · obtain ⟨m, hm, hf⟩ := ht.root_freq
    refine ⟨m, by rw [hroot, ← hlen]; exact hm, ?_⟩
    rw [hf, leafNodes_freqs]
    exact hc.total_eq.symm

end

/-! ### What the tree invariants say of the walk -/

theorem childIndices_even (nodes : List Node) : (childIndices nodes).length % 2 = 0 := by
  induction nodes with
  | nil => rfl
  | cons n nodes ih =>
    have : childIndices (n :: nodes) =
        (if n.leaf then [] else [n.left.toNat, n.right.toNat]) ++ childIndices nodes := by
      simp [childIndices]
    rw [this, List.length_append]
    split <;> simp <;> omega

section

variable {s : State} (ht : TreeAgrees s)

include ht

theorem TreeAgrees.strict : Strict s.node := by
  intro i m hm hl
  rcases Nat.lt_or_ge i s.ndist.toNat with hi | hi
  · have hmem : m ∈ s.leafNodes := by
      rw [← ht.leaves_eq]
      exact List.mem_of_getElem? (by rw [List.getElem?_take_of_lt hi]; exact hm)
    rw [leafNodes_leaf m hmem] at hl
    cases hl
  · obtain ⟨-, -, h3, h4, l, r, hl', hr', -⟩ := ht.internal i m hi hm
    exact ⟨h3, h4, (List.getElem?_eq_some_iff.mp hl').1, (List.getElem?_eq_some_iff.mp hr').1⟩

theorem TreeAgrees.root_lt : s.root.toNat < s.node.length := by
  obtain ⟨n, hn, -⟩ := ht.root_freq
  exact (List.getElem?_eq_some_iff.mp hn).1

/-- The root's index is even, so the walk's depth bound is above it. -/
theorem TreeAgrees.root_lt_maxNodes : s.root.toNat < maxNodes := by
  have := childIndices_even s.node
  rw [ht.one_parent.length_eq, List.length_range] at this
  have := s.root.isLt
  unfold maxNodes; omega

theorem TreeAgrees.mem_walk {b : Byte} {p : Digits} :
    (b, p) ∈ walkFrom s.node maxNodes s.root.toNat [] ↔ PathTo s.node s.root.toNat p b :=
  mem_walkFrom ht.strict.closed ht.root_lt_maxNodes

/-- The symbols of the tree's leaves, in the order of the walk. -/
theorem TreeAgrees.syms :
    ((walkFrom s.node maxNodes s.root.toNat []).map Prod.fst).Perm s.present := by
  refine (List.perm_ext_iff_of_nodup ?_ (present_nodup s)).mpr fun b => ?_
  · refine List.Nodup.map_on ?_ (walkFrom_nodup _ _ _)
    rintro ⟨b, p⟩ hp ⟨c, q⟩ hq (rfl : b = c)
    rw [ht.one_path b p q (ht.mem_walk.mp hp) (ht.mem_walk.mp hq)]
  · rw [mem_present, ht.reaches b]
    simp [ht.mem_walk]

theorem TreeAgrees.nodup : ((walkFrom s.node maxNodes s.root.toNat []).map Prod.fst).Nodup :=
  ht.syms.nodup_iff.mpr (present_nodup s)

/-- A codeword of the tree is shorter than the number of present symbols. -/
theorem TreeAgrees.path_length (hroot : s.root.toNat < maxNodes) {b : Byte} {p : Digits}
    (h : (b, p) ∈ walkFrom s.node maxNodes s.root.toNat []) : p.length + 1 ≤ s.present.length := by
  have := (walkFrom_depth_le ht.strict maxNodes hroot ht.root_lt).2 b p h
  have hl := ht.syms.length_eq
  rw [List.length_map] at hl
  omega

/-- In a tree whose root is a leaf there is one symbol. -/
theorem TreeAgrees.root_leaf {n : Node} (hn : s.node[s.root.toNat]? = some n) (hl : n.leaf = true) :
    s.present = [n.sym] := by
  have := ht.syms
  unfold maxNodes at this
  rw [walkFrom_leaf hn hl] at this
  exact List.perm_singleton.mp this.symm

/-- The codewords WALK gives, when it gives any, are for exactly the present symbols. -/
theorem TreeAgrees.treeCodes_syms (hv : s.rootValid = true) :
    (s.treeCodes.map Prod.fst).Perm s.present := by
  obtain ⟨n, hn, -⟩ := ht.root_freq
  unfold State.treeCodes
  rw [if_pos hv, hn]
  by_cases hl : n.leaf = true
  · simp only [hl, if_true]
    rw [ht.root_leaf hn hl]; exact .refl _
  · simp only [hl, Bool.false_eq_true, if_false]
    exact ht.syms

theorem TreeAgrees.treeCodes_nodup (hv : s.rootValid = true) : (s.treeCodes.map Prod.fst).Nodup :=
  (ht.treeCodes_syms hv).nodup_iff.mpr (present_nodup s)

end

/-- The codewords WALK gives are those of the walk from an internal root. -/
theorem treeCodes_internal {s : State} (hv : s.rootValid = true) {n : Node}
    (hn : s.node[s.root.toNat]? = some n) (hl : n.leaf = false) :
    s.treeCodes = walkFrom s.node maxNodes s.root.toNat [] := by
  unfold State.treeCodes
  rw [if_pos hv, hn]
  simp [hl]

theorem treeCodes_leaf {s : State} (hv : s.rootValid = true) {n : Node}
    (hn : s.node[s.root.toNat]? = some n) (hl : n.leaf = true) :
    s.treeCodes = [(n.sym, [false])] := by
  unfold State.treeCodes
  rw [if_pos hv, hn]
  simp [hl]

theorem treeCodes_none {s : State} (hv : s.rootValid = false) : s.treeCodes = [] := by
  unfold State.treeCodes; simp [hv]

theorem writeCodes_frame (s : State) :
    s.writeCodes = { s with
      len := s.writeCodes.len, code := s.writeCodes.code, phase := .coded } := rfl

end Sys2Proof.Machine
end

