-- ==== Sys2Proof/Laws/Codes.lean ====
section
/-! SUPPORT. The code table that WALK writes from a tree: whose codewords they are, their lengths, and
that none is a prefix of another. -/

namespace Sys2Proof.Machine

/-- Every path of a tree with an internal root has at least one digit. -/
theorem walk_path_pos {s : State} {n : Node} (hn : s.node[s.root.toNat]? = some n) (hl : n.leaf = false)
    {b : Byte} {p : Digits} (h : (b, p) ∈ walkFrom s.node maxNodes s.root.toNat []) :
    1 ≤ p.length := by
  unfold maxNodes at h
  rw [walkFrom_internal hn hl, walkFrom_path _ _ _ ([] ++ [false]),
    walkFrom_path _ _ _ ([] ++ [true])] at h
  simp only [List.nil_append, List.mem_append, List.mem_map, Prod.mk.injEq, Prod.exists] at h
  rcases h with ⟨_, q, -, -, rfl⟩ | ⟨_, q, -, -, rfl⟩ <;> simp

section

variable {s : State} (ht : TreeAgrees s)

include ht

theorem TreeAgrees.walk_length :
    (walkFrom s.node maxNodes s.root.toNat []).length = s.present.length := by
  rw [← ht.syms.length_eq, List.length_map]

theorem TreeAgrees.present_pos : 1 ≤ s.present.length := by
  rw [← ht.walk_length]
  exact (walkFrom_depth_le ht.strict maxNodes ht.root_lt_maxNodes ht.root_lt).1

variable (hv : s.rootValid = true)

include hv

/-- The lengths of the codewords WALK gives (R304). -/
theorem treeCodes_lengths {b : Byte} {p : Digits} (h : (b, p) ∈ s.treeCodes) :
    1 ≤ p.length ∧ p.length ≤ max 1 (s.present.length - 1) := by
  obtain ⟨n, hn, -⟩ := ht.root_freq
  cases hl : n.leaf with
  | true =>
    rw [treeCodes_leaf hv hn hl] at h
    simp only [List.mem_singleton, Prod.mk.injEq] at h
    rw [h.2]; simp
  | false =>
    rw [treeCodes_internal hv hn hl] at h
    have := ht.path_length ht.root_lt_maxNodes h
    exact ⟨walk_path_pos hn hl h, by omega⟩

theorem treeCodes_pairwise :
    s.treeCodes.Pairwise fun x y => ¬ x.2 <+: y.2 ∧ ¬ y.2 <+: x.2 := by
  obtain ⟨n, hn, -⟩ := ht.root_freq
  cases hl : n.leaf with
  | true => rw [treeCodes_leaf hv hn hl]; exact List.pairwise_singleton _ _
  | false => rw [treeCodes_internal hv hn hl]; exact walkFrom_pairwise _ _ _

theorem treeCodes_codeword {b : Byte} {p : Digits} (h : (b, p) ∈ s.treeCodes) :
    s.writeCodes.codeword b = p := by
  have := treeCodes_lengths ht hv h
  have := present_length_le s
  exact writeCodes_codeword (ht.treeCodes_nodup hv) h (by omega)

theorem treeCodes_length {b : Byte} {p : Digits} (h : (b, p) ∈ s.treeCodes) :
    (s.writeCodes.lenOf b).toNat = p.length := by
  rw [← codeword_length, treeCodes_codeword ht hv h]

/-- A symbol has a codeword after WALK exactly when it is present. -/
theorem writeCodes_hasCode {b : Byte} :
    hasCode s.writeCodes b ↔ ∃ p, (b, p) ∈ s.treeCodes := by
  constructor
  · intro hb
    by_contra h
    refine hb (writeCodes_lenOf_other fun hm => h ?_)
    obtain ⟨⟨b', p⟩, hm, rfl⟩ := List.mem_map.mp hm
    exact ⟨p, by assumption⟩
  · rintro ⟨p, hp⟩ e
    have h1 := treeCodes_length ht hv hp
    have h2 := treeCodes_lengths ht hv hp
    rw [e] at h1
    simp at h1
    omega

theorem writeCodes_hasCode_iff_present {b : Byte} :
    hasCode s.writeCodes b ↔ b ∈ s.present := by
  rw [writeCodes_hasCode ht hv, ← (ht.treeCodes_syms hv).mem_iff]
  simp

/-- The table WALK writes from a tree is prefix-free (R304). -/
theorem writeCodes_prefixFree : CodesPrefixFree s.writeCodes := by
  intro a b ha hb hpre
  obtain ⟨p, hp⟩ := (writeCodes_hasCode ht hv).mp ha
  obtain ⟨q, hq⟩ := (writeCodes_hasCode ht hv).mp hb
  rw [treeCodes_codeword ht hv hp, treeCodes_codeword ht hv hq] at hpre
  by_contra hab
  have hpw := treeCodes_pairwise ht hv
  obtain ⟨i, hi, hpi⟩ := List.getElem_of_mem hp
  obtain ⟨j, hj, hqj⟩ := List.getElem_of_mem hq
  rw [List.pairwise_iff_getElem] at hpw
  rcases Nat.lt_trichotomy i j with h | h | h
  · have := hpw i j hi hj h
    rw [hpi, hqj] at this
    exact this.1 hpre
  · subst h
    rw [hpi, Prod.mk.injEq] at hqj
    exact hab hqj.1
  · have := hpw j i hj hi h
    rw [hpi, hqj] at this
    exact this.2 hpre

end

/-- With no tree WALK writes no codeword (R302). -/
theorem writeCodes_empty {s : State} (hv : s.rootValid = false) (b : Byte) :
    s.writeCodes.lenOf b = 0#8 ∧ s.writeCodes.codeOf b = 0#256 := by
  have : b ∉ s.treeCodes.map Prod.fst := by rw [treeCodes_none hv]; simp
  exact ⟨writeCodes_lenOf_other this, writeCodes_codeOf_other this⟩

end Sys2Proof.Machine
end

