-- ==== Sys2Proof/Laws/Decoding.lean ====
section
/-! SUPPORT. Streams: the 16-digit groups of DECSTR and LDCODE, a codeword fed to the matcher, and a run
of DECODE commands. -/

namespace Sys2Proof.Machine

/-! ### Groups of 16 -/

theorem flatten_groups (m : Nat) (ds : Digits) (h : ds.length ≤ 16 * m) :
    ((List.range m).map fun k => (ds.drop (16 * k)).take 16).flatten = ds := by
  induction m generalizing ds with
  | zero =>
    have : ds = [] := List.length_eq_zero_iff.mp (by omega)
    subst this; rfl
  | succ m ih =>
    rw [List.range_succ_eq_map, List.map_cons, List.flatten_cons, List.map_map]
    have : ((fun k => (ds.drop (16 * k)).take 16) ∘ Nat.succ) =
        fun k => ((ds.drop 16).drop (16 * k)).take 16 := by
      funext k
      simp only [Function.comp_apply, List.drop_drop]
      congr 2
      omega
    rw [this, ih (ds.drop 16) (by rw [List.length_drop]; omega)]
    simp

/-- The groups in order are the string (R213). -/
theorem groupsOf16_flatten (ds : Digits) : (groupsOf16 ds).flatten = ds :=
  flatten_groups _ _ (by omega)

/-- Every group holds 1 to 16 digits (R213). -/
theorem groupsOf16_length {ds g : Digits} (h : g ∈ groupsOf16 ds) : 1 ≤ g.length ∧ g.length ≤ 16 := by
  obtain ⟨k, hk, rfl⟩ := List.mem_map.mp h
  rw [List.mem_range] at hk
  simp only [List.length_take, List.length_drop]
  omega

/-- The digits a group's command carries are the group (R181, R211). -/
theorem decodeGroup_digits {g : Digits} (h : 1 ≤ g.length ∧ g.length ≤ 16) :
    ∃ cnt data, decodeGroup g = .decode cnt data ∧ cnt.toNat + 1 = g.length ∧
      digitsOf data (cnt.toNat + 1) = g := by
  have hc : (BitVec.ofNat 4 (g.length - 1)).toNat + 1 = g.length := by
    rw [BitVec.toNat_ofNat]; omega
  exact ⟨_, _, rfl, hc, by rw [hc]; exact digitsOf_ofNat g h.2⟩

/-! ### One codeword fed from an empty candidate -/

theorem candidate_extend {s : State} (d : Bool) (h : s.candLen.toNat ≤ 253) :
    (s.extendCandidate d).candidate = s.candidate ++ [d] := by
  have e : (s.candLen + 1#8).toNat = s.candLen.toNat + 1 := by
    rw [BitVec.toNat_add]; simp; omega
  unfold State.candidate
  simp only [State.extendCandidate, e, digitsOf_succ]
  rw [setDigit_getLsbD _ _ _ _ (by omega), if_pos rfl]
  congr 1
  refine digitsOf_congr fun j hj => ?_
  rw [setDigit_getLsbD _ _ _ _ (by omega), if_neg (by omega)]

/-- The rest of a codeword, fed where the candidate is its beginning, ends in its symbol, when no other
codeword is a prefix of it. -/
theorem feed_rest {a : Byte} (rest : Digits) (u : State) (hr : rest ≠ [])
    (hc : u.codeword a = u.candidate ++ rest)
    (hpre : ∀ b, hasCode u b → u.codeword b <+: u.codeword a → b = a) :
    DigitsTakeEffect rest u (u.emitSymbol a) := by
  have has : ∀ {b : Byte} {p : Digits}, u.codeword b = p → p ≠ [] → hasCode u b := by
    intro b p hb hne e
    have := congrArg List.length hb
    rw [codeword_length, e] at this
    exact hne (List.length_eq_zero_iff.mp this.symm)
  induction rest generalizing u with
  | nil => exact absurd rfl hr
  | cons d rest ih =>
    by_cases hrest : rest = []
    · subst hrest
      refine .emit (fun x => ?_) (.done _)
      rw [inMatch_iff_codeword, ← hc]
      constructor
      · intro hx
        exact hpre x (has hx (by rw [hc]; simp)) (hx ▸ List.prefix_refl _)
      · rintro rfl; rfl
    · have hlen := congrArg List.length hc
      have hlt := (u.lenOf a).isLt
      have hpos := List.length_pos_iff.mpr hrest
      rw [codeword_length, List.length_append, List.length_cons, candidate_length] at hlen
      have hno : ∀ x, ¬ InMatch u (u.candidate ++ [d]) x := by
        intro x hx
        rw [inMatch_iff_codeword] at hx
        have hxa := hpre x (has hx (by simp)) (by
          rw [hx, hc]; exact ⟨rest, by simp⟩)
        subst hxa
        have := congrArg List.length hx
        rw [codeword_length, List.length_append, candidate_length, List.length_singleton] at this
        omega
      refine digitsTakeEffect_cons (feedDigit_extend hno (by
        rw [List.length_append, candidate_length, List.length_singleton]; omega)) ?_
      have := ih (u.extendCandidate d) hrest
        (by rw [candidate_extend d (by omega)]; change u.codeword a = _; rw [hc]; simp) hpre
        has
      exact this

/-- A codeword fed from an empty candidate emits its symbol, when no other codeword is a prefix of it
(R350, R368). -/
theorem feed_codeword {s : State} {a : Byte} (hcand : s.candLen = 0#8) (ha : hasCode s a)
    (hpre : ∀ b, hasCode s b → s.codeword b <+: s.codeword a → b = a) :
    DigitsTakeEffect (s.codeword a) s (s.emitSymbol a) := by
  refine feed_rest _ s ?_ ?_ hpre
  · intro e
    have := congrArg List.length e
    rw [codeword_length] at this
    exact ha (BitVec.eq_of_toNat_eq (by simpa using this))
  · have : s.candidate = [] := by
      apply List.length_eq_zero_iff.mp
      rw [candidate_length, hcand]; rfl
    rw [this]; rfl

/-- The codewords of a byte sequence give back the sequence (R354). -/
theorem feed_text {s : State} (text : List Byte) (hcand : s.candLen = 0#8) (hz : s.cand = 0#255)
    (hfree : CodesPrefixFree s) (hall : ∀ b ∈ text, hasCode s b) :
    DigitsTakeEffect (text.flatMap s.codeword) s
      { s with decQ := s.decQ ++ text, decSyms := s.decSyms + BitVec.ofNat 32 text.length } := by
  induction text generalizing s with
  | nil =>
    simp only [List.flatMap_nil, List.append_nil, List.length_nil]
    rw [show s.decSyms + BitVec.ofNat 32 0 = s.decSyms by simp]
    exact .done s
  | cons b text ih =>
    have hb := hall b (by simp)
    have h1 := feed_codeword hcand hb fun x hx hp => hfree x b hx hb hp
    have h2 := ih (s := s.emitSymbol b) rfl rfl hfree fun x hx => hall x (by simp [hx])
    have := digitsTakeEffect_append h1 h2
    rw [List.flatMap_cons]
    refine cast ?_ this
    congr 1
    have e1 : s.decQ ++ [b] ++ text = s.decQ ++ b :: text := by simp
    have e2 : s.decSyms + 1#32 + BitVec.ofNat 32 text.length =
        s.decSyms + BitVec.ofNat 32 (b :: text).length := by
      rw [BitVec.add_assoc, List.length_cons, Nat.add_comm text.length 1, BitVec.ofNat_add]
    simp only [State.emitSymbol, e1, e2]
    rw [← hcand, ← hz]

/-! ### Runs of DECODE -/

/-- DECODE whose digits all take effect leaves what they leave. -/
theorem exec_decode_of_takeEffect {s t : State} {cnt : BitVec 4} {data : BitVec 16} (err : s.err = none)
    (space : cnt.toNat + 1 ≤ s.params.decQDepth - s.decQ.length)
    (h : DigitsTakeEffect (digitsOf data (cnt.toNat + 1)) s t) :
    exec (.decode cnt data) s = .next t := by
  have he : exec (.decode cnt data) s =
      .next (State.feedDigits (encode (.decode cnt data)) 0 (digitsOf data (digitCount cnt)) s) := by
    simp only [exec, execDecode, unlessHalted_of_none err]
    rw [startWhen_of_le (by exact space)]
  have := feedDigits_of_takeEffect h (encode (.decode cnt data)) 0 []
  rw [List.append_nil] at this
  rw [he]
  exact congrArg _ this

/-- A run of DECODE commands that never lacks space feeds its digits one after the other. -/
theorem performAll_groups (gs : List Digits) (hg : ∀ g ∈ gs, 1 ≤ g.length ∧ g.length ≤ 16)
    {s t : State} (err : s.err = none) (h : DigitsTakeEffect gs.flatten s t)
    (space : t.decQ.length + 16 ≤ s.params.decQDepth) :
    performAll (gs.map decodeGroup) s = t := by
  induction gs generalizing s with
  | nil => cases h; rfl
  | cons g gs ih =>
    rw [List.flatten_cons] at h
    obtain ⟨u, h1, h2⟩ := digitsTakeEffect_split h
    obtain ⟨o1, e1, -⟩ := digitsTakeEffect_pushes h1
    obtain ⟨o2, e2, -⟩ := digitsTakeEffect_pushes h2
    have hlen : t.decQ.length = s.decQ.length + o1.length + o2.length := by
      rw [e2, e1]; simp; omega
    have hgl := hg g (by simp)
    obtain ⟨cnt, data, hd, hc, hds⟩ := decodeGroup_digits hgl
    have hp : perform (decodeGroup g) s = u := by
      rw [hd]
      refine perform_of_exec (exec_decode_of_takeEffect err (by omega) ?_)
      rw [hds]; exact h1
    rw [List.map_cons, performAll_cons, hp]
    refine ih (fun g' h' => hg g' (by simp [h'])) ?_ h2 ?_
    · rw [digitsTakeEffect_frame h1]; exact err
    · rw [digitsTakeEffect_frame h1]; exact space

end Sys2Proof.Machine
end

