-- ==== Sys2Proof/Laws/PerInstr.lean ====
section
/-! SUPPORT. Per-instruction families: one lemma per command.

`RoundTrip`: decoding a command's word gives the command back (R195, R211). -/

namespace Sys2Proof.Laws.RoundTrip

open Sys2Proof

/-- The family's statement about one command. -/
def Statement (i : Instr) : Prop := decode (encode i) = .instr i

theorem nop : Statement .nop := by
  unfold Statement
  decide

theorem clear : Statement .clear := by
  unfold Statement
  decide

theorem build : Statement .build := by
  unfold Statement
  decide

theorem walk : Statement .walk := by
  unfold Statement
  decide

theorem decend : Statement .decend := by
  unfold Statement
  decide

theorem wrcfg (lax : Bool) : Statement (.wrcfg lax) := by
  unfold Statement
  cases lax <;> decide

theorem rdreg (reg : BitVec 4) : Statement (.rdreg reg) := by
  unfold Statement
  revert reg
  decide

theorem count (sym : Byte) : Statement (.count sym) := by
  have hop : fieldOp (Sys2Proof.encode (.count sym)) = 1#4 := by
    apply BitVec.eq_of_getLsbD_eq; intro j hj
    interval_cases j <;>
      simp only [fieldOp, Sys2Proof.encode, BitVec.getLsbD_append, BitVec.getLsbD_extractLsb'] <;> simp
  have hrow : Sys2Proof.encode (.count sym) &&& rowCount.mask = rowCount.pattern := by
    apply BitVec.eq_of_getLsbD_eq; intro j hj
    interval_cases j <;>
      simp only [rowCount, Sys2Proof.encode, BitVec.getLsbD_append, BitVec.getLsbD_and] <;> simp
  have hsym : fieldSym (Sys2Proof.encode (.count sym)) = sym := by
    apply BitVec.eq_of_getLsbD_eq; intro j hj
    interval_cases j <;>
      simp only [fieldSym, Sys2Proof.encode, BitVec.getLsbD_append, BitVec.getLsbD_extractLsb'] <;> simp
  simp [Statement, Sys2Proof.decode, hop, EncodingRow.decodeAs, EncodingRow.admits, hrow, hsym]

theorem encode (sym : Byte) : Statement (.encode sym) := by
  have hop : fieldOp (Sys2Proof.encode (.encode sym)) = 2#4 := by
    apply BitVec.eq_of_getLsbD_eq; intro j hj
    interval_cases j <;>
      simp only [fieldOp, Sys2Proof.encode, BitVec.getLsbD_append, BitVec.getLsbD_extractLsb'] <;> simp
  have hrow : Sys2Proof.encode (.encode sym) &&& rowEncode.mask = rowEncode.pattern := by
    apply BitVec.eq_of_getLsbD_eq; intro j hj
    interval_cases j <;>
      simp only [rowEncode, Sys2Proof.encode, BitVec.getLsbD_append, BitVec.getLsbD_and] <;> simp
  have hsym : fieldSym (Sys2Proof.encode (.encode sym)) = sym := by
    apply BitVec.eq_of_getLsbD_eq; intro j hj
    interval_cases j <;>
      simp only [fieldSym, Sys2Proof.encode, BitVec.getLsbD_append, BitVec.getLsbD_extractLsb'] <;> simp
  simp [Statement, Sys2Proof.decode, hop, EncodingRow.decodeAs, EncodingRow.admits, hrow, hsym]

theorem decode (cnt : BitVec 4) (data : BitVec 16) : Statement (.decode cnt data) := by
  have hop : fieldOp (Sys2Proof.encode (.decode cnt data)) = 3#4 := by
    apply BitVec.eq_of_getLsbD_eq; intro j hj
    interval_cases j <;>
      simp only [fieldOp, Sys2Proof.encode, BitVec.getLsbD_append, BitVec.getLsbD_extractLsb'] <;> simp
  have hrow : Sys2Proof.encode (.decode cnt data) &&& rowDecode.mask = rowDecode.pattern := by
    apply BitVec.eq_of_getLsbD_eq; intro j hj
    interval_cases j <;>
      simp only [rowDecode, Sys2Proof.encode, BitVec.getLsbD_append, BitVec.getLsbD_and] <;> simp
  have hcnt : fieldCnt (Sys2Proof.encode (.decode cnt data)) = cnt := by
    apply BitVec.eq_of_getLsbD_eq; intro j hj
    simp only [fieldCnt, Sys2Proof.encode, BitVec.getLsbD_append, BitVec.getLsbD_extractLsb']; simp [hj]
  have hdata : fieldData (Sys2Proof.encode (.decode cnt data)) = data := by
    apply BitVec.eq_of_getLsbD_eq; intro j hj
    simp only [fieldData, Sys2Proof.encode, BitVec.getLsbD_append, BitVec.getLsbD_extractLsb']; simp [hj]
  simp [Statement, Sys2Proof.decode, hop, EncodingRow.decodeAs, EncodingRow.admits, hrow, hcnt, hdata]

theorem ldlen (sym : Byte) (len : BitVec 8) : Statement (.ldlen sym len) := by
  have hop : fieldOp (Sys2Proof.encode (.ldlen sym len)) = 4#4 := by
    apply BitVec.eq_of_getLsbD_eq; intro j hj
    interval_cases j <;>
      simp only [fieldOp, Sys2Proof.encode, BitVec.getLsbD_append, BitVec.getLsbD_extractLsb'] <;> simp
  have hrow : Sys2Proof.encode (.ldlen sym len) &&& rowLdlen.mask = rowLdlen.pattern := by
    apply BitVec.eq_of_getLsbD_eq; intro j hj
    interval_cases j <;>
      simp only [rowLdlen, Sys2Proof.encode, BitVec.getLsbD_append, BitVec.getLsbD_and] <;> simp
  have hsym : fieldSym (Sys2Proof.encode (.ldlen sym len)) = sym := by
    apply BitVec.eq_of_getLsbD_eq; intro j hj
    interval_cases j <;>
      simp only [fieldSym, Sys2Proof.encode, BitVec.getLsbD_append, BitVec.getLsbD_extractLsb'] <;> simp
  have hlen : fieldLen (Sys2Proof.encode (.ldlen sym len)) = len := by
    apply BitVec.eq_of_getLsbD_eq; intro j hj
    simp only [fieldLen, Sys2Proof.encode, BitVec.getLsbD_append, BitVec.getLsbD_extractLsb']; simp [hj]
  simp [Statement, Sys2Proof.decode, hop, EncodingRow.decodeAs, EncodingRow.admits, hrow, hsym, hlen]

theorem ldchunk (sym : Byte) (chunk : BitVec 4) (data : BitVec 16) : Statement (.ldchunk sym chunk data) := by
  have hop : fieldOp (Sys2Proof.encode (.ldchunk sym chunk data)) = 5#4 := by
    apply BitVec.eq_of_getLsbD_eq; intro j hj
    interval_cases j <;>
      simp only [fieldOp, Sys2Proof.encode, BitVec.getLsbD_append, BitVec.getLsbD_extractLsb'] <;> simp
  have hrow : Sys2Proof.encode (.ldchunk sym chunk data) &&& rowLdchunk.mask = rowLdchunk.pattern := by
    apply BitVec.eq_of_getLsbD_eq; intro j hj
    interval_cases j <;>
      simp only [rowLdchunk, Sys2Proof.encode, BitVec.getLsbD_append, BitVec.getLsbD_and] <;> simp
  have hsym : fieldSym (Sys2Proof.encode (.ldchunk sym chunk data)) = sym := by
    apply BitVec.eq_of_getLsbD_eq; intro j hj
    interval_cases j <;>
      simp only [fieldSym, Sys2Proof.encode, BitVec.getLsbD_append, BitVec.getLsbD_extractLsb'] <;> simp
  have hchunk : fieldChunk (Sys2Proof.encode (.ldchunk sym chunk data)) = chunk := by
    apply BitVec.eq_of_getLsbD_eq; intro j hj
    simp only [fieldChunk, Sys2Proof.encode, BitVec.getLsbD_append, BitVec.getLsbD_extractLsb']; simp [hj]
  have hdata : fieldData (Sys2Proof.encode (.ldchunk sym chunk data)) = data := by
    apply BitVec.eq_of_getLsbD_eq; intro j hj
    simp only [fieldData, Sys2Proof.encode, BitVec.getLsbD_append, BitVec.getLsbD_extractLsb']; simp [hj]
  simp [Statement, Sys2Proof.decode, hop, EncodingRow.decodeAs, EncodingRow.admits, hrow, hsym, hchunk, hdata]

theorem rdlen (sym : Byte) : Statement (.rdlen sym) := by
  have hop : fieldOp (Sys2Proof.encode (.rdlen sym)) = 6#4 := by
    apply BitVec.eq_of_getLsbD_eq; intro j hj
    interval_cases j <;>
      simp only [fieldOp, Sys2Proof.encode, BitVec.getLsbD_append, BitVec.getLsbD_extractLsb'] <;> simp
  have hrow : Sys2Proof.encode (.rdlen sym) &&& rowRdlen.mask = rowRdlen.pattern := by
    apply BitVec.eq_of_getLsbD_eq; intro j hj
    interval_cases j <;>
      simp only [rowRdlen, Sys2Proof.encode, BitVec.getLsbD_append, BitVec.getLsbD_and] <;> simp
  have hsym : fieldSym (Sys2Proof.encode (.rdlen sym)) = sym := by
    apply BitVec.eq_of_getLsbD_eq; intro j hj
    interval_cases j <;>
      simp only [fieldSym, Sys2Proof.encode, BitVec.getLsbD_append, BitVec.getLsbD_extractLsb'] <;> simp
  simp [Statement, Sys2Proof.decode, hop, EncodingRow.decodeAs, EncodingRow.admits, hrow, hsym]

theorem rdchunk (sym : Byte) (chunk : BitVec 4) : Statement (.rdchunk sym chunk) := by
  have hop : fieldOp (Sys2Proof.encode (.rdchunk sym chunk)) = 7#4 := by
    apply BitVec.eq_of_getLsbD_eq; intro j hj
    interval_cases j <;>
      simp only [fieldOp, Sys2Proof.encode, BitVec.getLsbD_append, BitVec.getLsbD_extractLsb'] <;> simp
  have hrow : Sys2Proof.encode (.rdchunk sym chunk) &&& rowRdchunk.mask = rowRdchunk.pattern := by
    apply BitVec.eq_of_getLsbD_eq; intro j hj
    interval_cases j <;>
      simp only [rowRdchunk, Sys2Proof.encode, BitVec.getLsbD_append, BitVec.getLsbD_and] <;> simp
  have hsym : fieldSym (Sys2Proof.encode (.rdchunk sym chunk)) = sym := by
    apply BitVec.eq_of_getLsbD_eq; intro j hj
    interval_cases j <;>
      simp only [fieldSym, Sys2Proof.encode, BitVec.getLsbD_append, BitVec.getLsbD_extractLsb'] <;> simp
  have hchunk : fieldChunk (Sys2Proof.encode (.rdchunk sym chunk)) = chunk := by
    apply BitVec.eq_of_getLsbD_eq; intro j hj
    simp only [fieldChunk, Sys2Proof.encode, BitVec.getLsbD_append, BitVec.getLsbD_extractLsb']; simp [hj]
  simp [Statement, Sys2Proof.decode, hop, EncodingRow.decodeAs, EncodingRow.admits, hrow, hsym, hchunk]

theorem rdfreq (sym : Byte) : Statement (.rdfreq sym) := by
  have hop : fieldOp (Sys2Proof.encode (.rdfreq sym)) = 8#4 := by
    apply BitVec.eq_of_getLsbD_eq; intro j hj
    interval_cases j <;>
      simp only [fieldOp, Sys2Proof.encode, BitVec.getLsbD_append, BitVec.getLsbD_extractLsb'] <;> simp
  have hrow : Sys2Proof.encode (.rdfreq sym) &&& rowRdfreq.mask = rowRdfreq.pattern := by
    apply BitVec.eq_of_getLsbD_eq; intro j hj
    interval_cases j <;>
      simp only [rowRdfreq, Sys2Proof.encode, BitVec.getLsbD_append, BitVec.getLsbD_and] <;> simp
  have hsym : fieldSym (Sys2Proof.encode (.rdfreq sym)) = sym := by
    apply BitVec.eq_of_getLsbD_eq; intro j hj
    interval_cases j <;>
      simp only [fieldSym, Sys2Proof.encode, BitVec.getLsbD_append, BitVec.getLsbD_extractLsb'] <;> simp
  simp [Statement, Sys2Proof.decode, hop, EncodingRow.decodeAs, EncodingRow.admits, hrow, hsym]

theorem rdnode (idx : BitVec 9) (ws : Bool) : Statement (.rdnode idx ws) := by
  have hop : fieldOp (Sys2Proof.encode (.rdnode idx ws)) = 9#4 := by
    apply BitVec.eq_of_getLsbD_eq; intro j hj
    interval_cases j <;>
      simp only [fieldOp, Sys2Proof.encode, BitVec.getLsbD_append, BitVec.getLsbD_extractLsb'] <;> simp
  have hrow : Sys2Proof.encode (.rdnode idx ws) &&& rowRdnode.mask = rowRdnode.pattern := by
    apply BitVec.eq_of_getLsbD_eq; intro j hj
    interval_cases j <;>
      simp only [rowRdnode, Sys2Proof.encode, BitVec.getLsbD_append, BitVec.getLsbD_and] <;> simp
  have hidx : fieldIdx (Sys2Proof.encode (.rdnode idx ws)) = idx := by
    apply BitVec.eq_of_getLsbD_eq; intro j hj
    simp only [fieldIdx, Sys2Proof.encode, BitVec.getLsbD_append, BitVec.getLsbD_extractLsb']; simp [hj]
  have hws : fieldWs (Sys2Proof.encode (.rdnode idx ws)) = ws := by
    simp only [fieldWs, Sys2Proof.encode, BitVec.getLsbD_append]; simp
  simp [Statement, Sys2Proof.decode, hop, EncodingRow.decodeAs, EncodingRow.admits, hrow, hidx, hws]

end Sys2Proof.Laws.RoundTrip
end

