-- ==== Sys2Proof/Laws/Encoding.lean ====
section
/-! SUPPORT. Words and the rows of the encoding table: which row a decoded word belongs to, and that the
row's command encodes as the word. -/

namespace Sys2Proof

/-- A row's command is decoded only from a word that the row admits. -/
theorem decodeAs_instr {row : EncodingRow} {w : Word} {i j : Instr}
    (h : row.decodeAs w i = .instr j) : row.admits w = true ∧ j = i := by
  unfold EncodingRow.decodeAs at h
  split at h
  · next ha => exact ⟨ha, by simpa using h.symm⟩
  · cases h

/-- Everything that decodes: the row that admits the word and the command it holds. -/
inductive RowDecodes (w : Word) : Instr → Prop where
  | nop (admitted : rowNop.admits w = true) : RowDecodes w .nop
  | clear (admitted : rowClear.admits w = true) : RowDecodes w .clear
  | build (admitted : rowBuild.admits w = true) : RowDecodes w .build
  | walk (admitted : rowWalk.admits w = true) : RowDecodes w .walk
  | decend (admitted : rowDecend.admits w = true) : RowDecodes w .decend
  | wrcfg (admitted : rowWrcfg.admits w = true) : RowDecodes w (.wrcfg (fieldLax w))
  | rdreg (admitted : rowRdreg.admits w = true) : RowDecodes w (.rdreg (fieldReg w))
  | count (admitted : rowCount.admits w = true) : RowDecodes w (.count (fieldSym w))
  | encode (admitted : rowEncode.admits w = true) : RowDecodes w (.encode (fieldSym w))
  | decode (admitted : rowDecode.admits w = true) : RowDecodes w (.decode (fieldCnt w) (fieldData w))
  | ldlen (admitted : rowLdlen.admits w = true) : RowDecodes w (.ldlen (fieldSym w) (fieldLen w))
  | ldchunk (admitted : rowLdchunk.admits w = true) : RowDecodes w (.ldchunk (fieldSym w) (fieldChunk w) (fieldData w))
  | rdlen (admitted : rowRdlen.admits w = true) : RowDecodes w (.rdlen (fieldSym w))
  | rdchunk (admitted : rowRdchunk.admits w = true) : RowDecodes w (.rdchunk (fieldSym w) (fieldChunk w))
  | rdfreq (admitted : rowRdfreq.admits w = true) : RowDecodes w (.rdfreq (fieldSym w))
  | rdnode (admitted : rowRdnode.admits w = true) : RowDecodes w (.rdnode (fieldIdx w) (fieldWs w))

theorem decode_instr_cases {w : Word} {i : Instr} (h : decode w = .instr i) : RowDecodes w i := by
  unfold decode at h
  split at h
  · unfold decodeSystem at h
    split at h
    · obtain ⟨ha, rfl⟩ := decodeAs_instr h; exact .nop ha
    · obtain ⟨ha, rfl⟩ := decodeAs_instr h; exact .clear ha
    · obtain ⟨ha, rfl⟩ := decodeAs_instr h; exact .build ha
    · obtain ⟨ha, rfl⟩ := decodeAs_instr h; exact .walk ha
    · obtain ⟨ha, rfl⟩ := decodeAs_instr h; exact .decend ha
    · obtain ⟨ha, rfl⟩ := decodeAs_instr h; exact .wrcfg ha
    · obtain ⟨ha, rfl⟩ := decodeAs_instr h; exact .rdreg ha
    · cases h
  · obtain ⟨ha, rfl⟩ := decodeAs_instr h; exact .count ha
  · obtain ⟨ha, rfl⟩ := decodeAs_instr h; exact .encode ha
  · obtain ⟨ha, rfl⟩ := decodeAs_instr h; exact .decode ha
  · obtain ⟨ha, rfl⟩ := decodeAs_instr h; exact .ldlen ha
  · obtain ⟨ha, rfl⟩ := decodeAs_instr h; exact .ldchunk ha
  · obtain ⟨ha, rfl⟩ := decodeAs_instr h; exact .rdlen ha
  · obtain ⟨ha, rfl⟩ := decodeAs_instr h; exact .rdchunk ha
  · obtain ⟨ha, rfl⟩ := decodeAs_instr h; exact .rdfreq ha
  · obtain ⟨ha, rfl⟩ := decodeAs_instr h; exact .rdnode ha
  · cases h

/-! ### The word of a row's command -/

/-- A word a row admits has the row's pattern in every bit that the row's mask covers. -/
theorem admits_bit {row : EncodingRow} {w : Word} (h : row.admits w = true) (j : Nat) :
    (w.getLsbD j && row.mask.getLsbD j) = row.pattern.getLsbD j := by
  simp only [EncodingRow.admits, beq_iff_eq] at h
  rw [← BitVec.getLsbD_and, h]

theorem encode_of_rowNop {w : Word} (h : rowNop.admits w = true) : encode .nop = w := by
  apply BitVec.eq_of_getLsbD_eq
  intro j hj
  have hb := admits_bit h j
  clear h
  simp only [rowNop] at hb
  simp only [encode, BitVec.getLsbD_append]
  interval_cases j <;> simp at hb ⊢ <;> simp [hb]

theorem encode_of_rowClear {w : Word} (h : rowClear.admits w = true) : encode .clear = w := by
  apply BitVec.eq_of_getLsbD_eq
  intro j hj
  have hb := admits_bit h j
  clear h
  simp only [rowClear] at hb
  simp only [encode, BitVec.getLsbD_append]
  interval_cases j <;> simp at hb ⊢ <;> simp [hb]

theorem encode_of_rowBuild {w : Word} (h : rowBuild.admits w = true) : encode .build = w := by
  apply BitVec.eq_of_getLsbD_eq
  intro j hj
  have hb := admits_bit h j
  clear h
  simp only [rowBuild] at hb
  simp only [encode, BitVec.getLsbD_append]
  interval_cases j <;> simp at hb ⊢ <;> simp [hb]

theorem encode_of_rowWalk {w : Word} (h : rowWalk.admits w = true) : encode .walk = w := by
  apply BitVec.eq_of_getLsbD_eq
  intro j hj
  have hb := admits_bit h j
  clear h
  simp only [rowWalk] at hb
  simp only [encode, BitVec.getLsbD_append]
  interval_cases j <;> simp at hb ⊢ <;> simp [hb]

theorem encode_of_rowDecend {w : Word} (h : rowDecend.admits w = true) : encode .decend = w := by
  apply BitVec.eq_of_getLsbD_eq
  intro j hj
  have hb := admits_bit h j
  clear h
  simp only [rowDecend] at hb
  simp only [encode, BitVec.getLsbD_append]
  interval_cases j <;> simp at hb ⊢ <;> simp [hb]

theorem encode_of_rowWrcfg {w : Word} (h : rowWrcfg.admits w = true) : encode (.wrcfg (fieldLax w)) = w := by
  apply BitVec.eq_of_getLsbD_eq
  intro j hj
  have hb := admits_bit h j
  clear h
  simp only [rowWrcfg] at hb
  simp only [encode, BitVec.getLsbD_append, fieldLax, BitVec.getLsbD_ofBool]
  interval_cases j <;> simp at hb ⊢ <;> simp [hb]

theorem encode_of_rowRdreg {w : Word} (h : rowRdreg.admits w = true) : encode (.rdreg (fieldReg w)) = w := by
  apply BitVec.eq_of_getLsbD_eq
  intro j hj
  have hb := admits_bit h j
  clear h
  simp only [rowRdreg] at hb
  simp only [encode, BitVec.getLsbD_append, fieldReg, BitVec.getLsbD_extractLsb']
  interval_cases j <;> simp at hb ⊢ <;> simp [hb]

theorem encode_of_rowCount {w : Word} (h : rowCount.admits w = true) : encode (.count (fieldSym w)) = w := by
  apply BitVec.eq_of_getLsbD_eq
  intro j hj
  have hb := admits_bit h j
  clear h
  simp only [rowCount] at hb
  simp only [encode, BitVec.getLsbD_append, fieldSym, BitVec.getLsbD_extractLsb']
  interval_cases j <;> simp at hb ⊢ <;> simp [hb]

theorem encode_of_rowEncode {w : Word} (h : rowEncode.admits w = true) : encode (.encode (fieldSym w)) = w := by
  apply BitVec.eq_of_getLsbD_eq
  intro j hj
  have hb := admits_bit h j
  clear h
  simp only [rowEncode] at hb
  simp only [encode, BitVec.getLsbD_append, fieldSym, BitVec.getLsbD_extractLsb']
  interval_cases j <;> simp at hb ⊢ <;> simp [hb]

theorem encode_of_rowDecode {w : Word} (h : rowDecode.admits w = true) : encode (.decode (fieldCnt w) (fieldData w)) = w := by
  apply BitVec.eq_of_getLsbD_eq
  intro j hj
  have hb := admits_bit h j
  clear h
  simp only [rowDecode] at hb
  simp only [encode, BitVec.getLsbD_append, fieldCnt, fieldData, BitVec.getLsbD_extractLsb']
  interval_cases j <;> simp at hb ⊢ <;> simp [hb]

theorem encode_of_rowLdlen {w : Word} (h : rowLdlen.admits w = true) : encode (.ldlen (fieldSym w) (fieldLen w)) = w := by
  apply BitVec.eq_of_getLsbD_eq
  intro j hj
  have hb := admits_bit h j
  clear h
  simp only [rowLdlen] at hb
  simp only [encode, BitVec.getLsbD_append, fieldSym, fieldLen, BitVec.getLsbD_extractLsb']
  interval_cases j <;> simp at hb ⊢ <;> simp [hb]

theorem encode_of_rowLdchunk {w : Word} (h : rowLdchunk.admits w = true) : encode (.ldchunk (fieldSym w) (fieldChunk w) (fieldData w)) = w := by
  apply BitVec.eq_of_getLsbD_eq
  intro j hj
  have hb := admits_bit h j
  clear h
  simp only [rowLdchunk] at hb
  simp only [encode, BitVec.getLsbD_append, fieldSym, fieldChunk, fieldData, BitVec.getLsbD_extractLsb']
  interval_cases j <;> simp at hb ⊢ <;> simp [hb]

theorem encode_of_rowRdlen {w : Word} (h : rowRdlen.admits w = true) : encode (.rdlen (fieldSym w)) = w := by
  apply BitVec.eq_of_getLsbD_eq
  intro j hj
  have hb := admits_bit h j
  clear h
  simp only [rowRdlen] at hb
  simp only [encode, BitVec.getLsbD_append, fieldSym, BitVec.getLsbD_extractLsb']
  interval_cases j <;> simp at hb ⊢ <;> simp [hb]

theorem encode_of_rowRdchunk {w : Word} (h : rowRdchunk.admits w = true) : encode (.rdchunk (fieldSym w) (fieldChunk w)) = w := by
  apply BitVec.eq_of_getLsbD_eq
  intro j hj
  have hb := admits_bit h j
  clear h
  simp only [rowRdchunk] at hb
  simp only [encode, BitVec.getLsbD_append, fieldSym, fieldChunk, BitVec.getLsbD_extractLsb']
  interval_cases j <;> simp at hb ⊢ <;> simp [hb]

theorem encode_of_rowRdfreq {w : Word} (h : rowRdfreq.admits w = true) : encode (.rdfreq (fieldSym w)) = w := by
  apply BitVec.eq_of_getLsbD_eq
  intro j hj
  have hb := admits_bit h j
  clear h
  simp only [rowRdfreq] at hb
  simp only [encode, BitVec.getLsbD_append, fieldSym, BitVec.getLsbD_extractLsb']
  interval_cases j <;> simp at hb ⊢ <;> simp [hb]

theorem encode_of_rowRdnode {w : Word} (h : rowRdnode.admits w = true) : encode (.rdnode (fieldIdx w) (fieldWs w)) = w := by
  apply BitVec.eq_of_getLsbD_eq
  intro j hj
  have hb := admits_bit h j
  clear h
  simp only [rowRdnode] at hb
  simp only [encode, BitVec.getLsbD_append, fieldIdx, fieldWs, BitVec.getLsbD_extractLsb', BitVec.getLsbD_ofBool]
  interval_cases j <;> simp at hb ⊢ <;> simp [hb]

/-- A word that decodes belongs to a row of the table. -/
theorem RowDecodes.row {w : Word} {i : Instr} (h : RowDecodes w i) :
    ∃ row ∈ encodingTable, row.admits w = true := by
  cases h <;> refine ⟨_, ?_, ‹_›⟩ <;> simp [encodingTable]

/-- Two rows whose patterns differ in a bit that both masks cover admit no word together. -/
theorem admits_disjoint {a b : EncodingRow} {w : Word}
    (h : a.mask &&& b.mask &&& (a.pattern ^^^ b.pattern) ≠ 0#32) (ha : a.admits w = true)
    (hb : b.admits w = true) : False := by
  apply h
  simp only [EncodingRow.admits, beq_iff_eq] at ha hb
  rw [← ha, ← hb]
  apply BitVec.eq_of_getLsbD_eq
  intro j hj
  simp
  cases a.mask.getLsbD j <;> cases b.mask.getLsbD j <;> cases w.getLsbD j <;> simp

/-- Every two rows of the table differ in a bit that both masks cover (R195). -/
theorem encodingTable_disjoint :
    encodingTable.Pairwise fun a b => a.mask &&& b.mask &&& (a.pattern ^^^ b.pattern) ≠ 0#32 := by
  decide +kernel

end Sys2Proof
end

