-- ==== Sys2Proof/Laws/Runs.lean ====
section
/-! SUPPORT. What a command that starts answers, and runs of commands: reads, loads and encodes. -/

namespace Sys2Proof.Machine

/-! ### Single commands -/

section

variable {s : State} (err : s.err = none)

include err

theorem exec_count_next (b : Byte) (phase : s.phase = .count) (below : s.total ≠ 2 ^ s.params.freqW - 1) :
    exec (.count b) s = .next (s.countSymbol b) := by
  simp only [exec, execCount, unlessHalted_of_none err]
  rw [if_neg (by simp [phase]), if_neg (by exact below)]

theorem exec_build_next (phase : s.phase = .count) : exec .build s = .next s.buildTree := by
  simp only [exec, execBuild, unlessHalted_of_none err]
  rw [if_neg (by simp [phase])]

theorem exec_walk_next (phase : s.phase = .built) : exec .walk s = .next s.writeCodes := by
  simp only [exec, execWalk, unlessHalted_of_none err]
  rw [if_neg (by simp [phase])]

theorem exec_encode_next {b : Byte} (code : s.lenOf b ≠ 0#8)
    (space : (s.lenOf b).toNat ≤ s.params.encQDepth - s.encQ.length) :
    exec (.encode b) s = .next (s.pushCodeword b) := by
  simp only [exec, execEncode, unlessHalted_of_none err]
  rw [startWhen_of_le (by exact space), if_neg code]

theorem exec_ldlen_next (b : Byte) (n : BitVec 8) : exec (.ldlen b n) s = .next (s.setLen b n) := by
  simp only [exec, execLdlen, unlessHalted_of_none err]

theorem exec_ldchunk_next (b : Byte) (k : BitVec 4) (data : BitVec 16) :
    exec (.ldchunk b k data) s = .next (s.setCode b (setChunk (s.codeOf b) k data)) := by
  simp only [exec, execLdchunk, unlessHalted_of_none err]

end

theorem exec_read_next {i : Instr} {s : State} (read : isRead i = true)
    (space : s.rspQ.length < s.params.rspQDepth) :
    exec i s = .next { s with rspQ := s.rspQ ++ [readValue i s] } := by
  rw [exec_read read, answer_of_room space]

/-! ### Runs -/

/-- Reads in a row push one word each, and none sees another's (R138). -/
theorem performAll_reads (is : List Instr) (h : ∀ i ∈ is, isRead i = true) (s : State)
    (space : s.rspQ.length + is.length ≤ s.params.rspQDepth) :
    performAll is s = { s with rspQ := s.rspQ ++ is.map fun i => readValue i s } := by
  induction is generalizing s with
  | nil => simp
  | cons i is ih =>
    simp only [List.length_cons] at space
    have hp := perform_of_exec (exec_read_next (h i (by simp)) (show s.rspQ.length < _ by omega))
    rw [performAll_cons, hp, ih (fun j hj => h j (by simp [hj])) _ (by simp; omega)]
    have : is.map (fun j => readValue j { s with rspQ := s.rspQ ++ [readValue i s] }) =
        is.map fun j => readValue j s := by
      refine List.map_congr_left fun j _ => ?_
      cases j <;> rfl
    rw [this]
    simp

/-- The LDCHUNK commands for groups of digits, from chunk `n` on, write the groups' digits into the
register and leave its other bits (R214). -/
theorem performAll_chunks (b : Byte) (gs : List Digits) (n : Nat) (s : State) (err : s.err = none)
    (hn : n + gs.length ≤ 16) :
    ∃ v : BitVec 256,
      performAll ((gs.zipIdx n).map fun gk =>
        Instr.ldchunk b (BitVec.ofNat 4 gk.2) (BitVec.ofNat 16 (digitsToNat gk.1))) s = s.setCode b v ∧
      ∀ j, j < 256 → v.getLsbD j =
        if 16 * n ≤ j ∧ j < 16 * (n + gs.length) then
          ((gs[j / 16 - n]?).getD [])[j % 16]?.getD false
        else (s.codeOf b).getLsbD j := by
  induction gs generalizing n s with
  | nil =>
    refine ⟨s.codeOf b, by simp [State.setCode, State.codeOf], fun j hj => ?_⟩
    rw [if_neg (by simp only [List.length_nil]; omega)]
  | cons g gs ih =>
    simp only [List.length_cons] at hn
    have h1 := perform_of_exec
      (exec_ldchunk_next err b (BitVec.ofNat 4 n) (BitVec.ofNat 16 (digitsToNat g)))
    have hk : (BitVec.ofNat 4 n).toNat = n := by rw [BitVec.toNat_ofNat]; omega
    obtain ⟨v, hv, hb⟩ := ih (n + 1) (s.setCode b (setChunk (s.codeOf b) (BitVec.ofNat 4 n)
      (BitVec.ofNat 16 (digitsToNat g)))) err (by omega)
    refine ⟨v, ?_, fun j hj => ?_⟩
    · rw [List.zipIdx_cons, List.map_cons, performAll_cons, h1, hv]
      simp [State.setCode]
    · rw [hb j hj, setCode_codeOf, if_pos rfl, setChunk_getLsbD _ _ _ _ hj, hk]
      simp only [List.length_cons]
      by_cases c1 : 16 * (n + 1) ≤ j ∧ j < 16 * (n + 1 + gs.length)
      · rw [if_pos c1, if_pos (by omega), show j / 16 - n = (j / 16 - (n + 1)) + 1 by omega,
          List.getElem?_cons_succ]
      · rw [if_neg c1]
        by_cases c2 : 16 * n ≤ j ∧ j < 16 * n + 16
        · rw [if_pos c2, if_pos (by omega), show j / 16 - n = 0 by omega, List.getElem?_cons_zero,
            BitVec.getLsbD_ofNat, digitsToNat_testBit, show j - 16 * n = j % 16 by omega]
          simp; omega
        · rw [if_neg c2, if_neg (by omega)]

/-- The counting invariants hold after a run of counts that stays in range. -/
theorem countsAgree_foldl (xs : List Byte) {s : State} (h : CountsAgree s)
    (room : s.total + xs.length ≤ s.maxCount) : CountsAgree (xs.foldl State.countSymbol s) := by
  induction xs generalizing s with
  | nil => exact h
  | cons x xs ih =>
    simp only [List.length_cons] at room
    refine ih (countsAgree_countSymbol h (by omega) x) ?_
    change s.total + 1 + xs.length ≤ s.maxCount
    omega

end Sys2Proof.Machine
end

