-- ==== Sys2Proof/Machine/AssemblyText.lean ====
section
/-! DEFINITION. The text of assembly lines (spec/30_encoding.md R210, R211): one command per line, an
upper-case mnemonic, operands separated by commas, comments, and the literals.

Text is read as a list of characters. What R210 leaves unsaid is fixed in log entry 7. -/

namespace Sys2Proof.Machine

/-- An operand as written. -/
inductive AsmOperand where
  /-- A number or a character literal. -/
  | num (n : Nat)
  /-- A literal between double quotes. -/
  | quoted (cs : List Char)
  /-- A bare word, such as a register's name. -/
  | word (cs : List Char)
  deriving DecidableEq, Repr

/-- The value of a digit character in a base up to 16. -/
def digitValue (c : Char) : Option Nat :=
  if '0' ≤ c ∧ c ≤ '9' then some (c.toNat - '0'.toNat)
  else if 'a' ≤ c ∧ c ≤ 'f' then some (c.toNat - 'a'.toNat + 10)
  else if 'A' ≤ c ∧ c ≤ 'F' then some (c.toNat - 'A'.toNat + 10)
  else none

/-- A number's digits in the given base, the value so far being `acc`. -/
def digitsValue (base : Nat) : Nat → List Char → Option Nat
  | acc, [] => some acc
  | acc, c :: cs =>
    match digitValue c with
    | none => none
    | some v => if v < base then digitsValue base (acc * base + v) cs else none

/-- A number literal: decimal, `0x` hexadecimal or `0b` binary. -/
def numberLiteral : List Char → Option Nat
  | '0' :: 'x' :: d :: ds => digitsValue 16 0 (d :: ds)
  | '0' :: 'b' :: d :: ds => digitsValue 2 0 (d :: ds)
  | d :: ds => digitsValue 10 0 (d :: ds)
  | [] => none

/-- The byte a character stands for: its ASCII code. -/
def charByte (c : Char) : Option Byte :=
  if c.toNat < 128 then some (BitVec.ofNat 8 c.toNat) else none

/-- The bytes of a text literal. -/
def textBytes : List Char → Option (List Byte)
  | [] => some []
  | c :: cs =>
    match charByte c, textBytes cs with
    | some b, some bs => some (b :: bs)
    | _, _ => none

/-- The digits of a bit-string literal, in stream order. -/
def bitString : List Char → Option Digits
  | [] => some []
  | c :: cs =>
    match bitString cs with
    | none => none
    | some ds => if c = '0' then some (false :: ds) else if c = '1' then some (true :: ds) else none

/-- Blank characters of a line. -/
def isBlank (c : Char) : Bool := c == ' ' || c == '\t' || c == '\r'

/-- A list of characters without the blanks at its two ends. -/
def trimBlanks (cs : List Char) : List Char :=
  ((cs.dropWhile isBlank).reverse.dropWhile isBlank).reverse

/-- A line cut at its commas and at the `;` that starts its comment. Neither is looked for inside a
string literal or in a character literal. `inString` says whether a double quote is open, and `acc`
holds the current piece, last character first. -/
def cutLine : Bool → List Char → List Char → List (List Char)
  | _, acc, [] => [acc.reverse]
  | true, acc, c :: cs => cutLine (c != '"') (c :: acc) cs
  | false, acc, '\'' :: c :: '\'' :: cs => cutLine false ('\'' :: c :: '\'' :: acc) cs
  | false, acc, c :: cs =>
    if c = ';' then [acc.reverse]
    else if c = ',' then acc.reverse :: cutLine false [] cs
    else cutLine (c == '"') (c :: acc) cs

/-- One operand read from its piece of the line. -/
def operandOf (piece : List Char) : Option AsmOperand :=
  match trimBlanks piece with
  | [] => none
  | ['\'', c, '\''] => (charByte c).map fun b => .num b.toNat
  | '"' :: rest =>
    match rest.reverse with
    | '"' :: inner => if inner.contains '"' then none else some (.quoted inner.reverse)
    | _ => none
  | c :: cs =>
    if '0' ≤ c ∧ c ≤ '9' then (numberLiteral (c :: cs)).map .num else some (.word (c :: cs))

/-- Every operand of a line. -/
def operandsOf : List (List Char) → Option (List AsmOperand)
  | [] => some []
  | p :: ps =>
    match operandOf p, operandsOf ps with
    | some o, some os => some (o :: os)
    | _, _ => none

/-- The registers' names in the order of their numbers (R54). -/
def registerNames : List String :=
  ["ID", "PARAMS", "STATUS", "CFG", "ERRCMD", "ERRINFO", "TOTAL", "NDIST", "NNODES", "ROOT",
   "CANDLEN", "ENCBITS", "DECSYMS"]

/-- The number of a register given by name (R54, R211). -/
def registerNumber (name : List Char) : Option Nat :=
  let r := registerNames.findIdx fun n => n.toList == name
  if r < registerNames.length then some r else none

/-- The line of a mnemonic and its operands (R211 to R216). -/
def lineOf (mnemonic : String) (ops : List AsmOperand) : Option AsmLine :=
  match ops with
  | [] =>
    if mnemonic = "NOP" then some .nop
    else if mnemonic = "CLEAR" then some .clear
    else if mnemonic = "BUILD" then some .build
    else if mnemonic = "WALK" then some .walk
    else if mnemonic = "DECEND" then some .decend
    else if mnemonic = "SYNC" then some .sync
    else none
  | [.num a] =>
    if mnemonic = "WRCFG" then some (.wrcfg a)
    else if mnemonic = "RDREG" then some (.rdreg a)
    else if mnemonic = "COUNT" then some (.count a)
    else if mnemonic = "ENCODE" then some (.encode a)
    else if mnemonic = "RDLEN" then some (.rdlen a)
    else if mnemonic = "RDFREQ" then some (.rdfreq a)
    else if mnemonic = "RDCODE" then some (.rdCode a)
    else none
  | [.word name] => if mnemonic = "RDREG" then (registerNumber name).map .rdreg else none
  | [.quoted cs] =>
    if mnemonic = "DECODE" then (bitString cs).map .decodeDigits
    else if mnemonic = "DECSTR" then (bitString cs).map .decStr
    else if mnemonic = "COUNTSTR" then (textBytes cs).map .countStr
    else if mnemonic = "ENCSTR" then (textBytes cs).map .encStr
    else none
  | [.num a, .num b] =>
    if mnemonic = "DECODE" then some (.decodeRaw a b)
    else if mnemonic = "LDLEN" then some (.ldlen a b)
    else if mnemonic = "RDCHUNK" then some (.rdchunk a b)
    else if mnemonic = "RDNODE" then some (.rdnode a b)
    else none
  | [.num a, .quoted cs] => if mnemonic = "LDCODE" then (bitString cs).map (.ldCode a) else none
  | [.num a, .num b, .num c] => if mnemonic = "LDCHUNK" then some (.ldchunk a b c) else none
  | _ => none

/-- One line of text: no line for a blank line or a comment, `none` for an assembly error (R210). -/
def readLine (text : String) : Option (List AsmLine) :=
  match (cutLine false [] text.toList).map trimBlanks with
  | [] => some []
  | first :: others =>
    let mnemonic := String.ofList (first.takeWhile fun c => !isBlank c)
    let rest := trimBlanks (first.dropWhile fun c => !isBlank c)
    if first.isEmpty then (if others.isEmpty then some [] else none)
    else
      let pieces := if rest.isEmpty && others.isEmpty then [] else rest :: others
      match operandsOf pieces with
      | none => none
      | some ops => (lineOf mnemonic ops).map fun line => [line]

/-- One line of text assembled to commands. -/
def assembleLine (text : String) : Option (List Instr) :=
  match readLine text with
  | none => none
  | some [] => some []
  | some (line :: _) => assemble line

/-- A whole assembly text, line by line (R210). -/
def assembleText : List String → Option (List Instr)
  | [] => some []
  | line :: lines =>
    match assembleLine line, assembleText lines with
    | some is, some js => some (is ++ js)
    | _, _ => none

end Sys2Proof.Machine
end

