-- ==== Sys2Proof/Tests/Slice0.lean ====
section
/-! SUPPORT. Tests: words written out from R195 and their decoding, the assembler's checks, one small
step per test with the expected value from spec/95_test_vectors.md, and for each statement with
hypotheses a witness that meets them. -/

open Sys2Proof Sys2Proof.Machine

namespace Sys2Proof.Tests

set_option Elab.async false

/-! ### States -/

/-- A block with the smallest parameters of R20, after reset. -/
def least : State := State.resetWith { freqW := 1, encQDepth := 255, decQDepth := 16, rspQDepth := 1 }

/-- V1 after `COUNTSTR "aaab"`: FREQ['a'] = 3, FREQ['b'] = 1, TOTAL = 4, NDIST = 2. -/
def counted : State :=
  { State.reset with
    freq := ((Vector.replicate 256 0).set 0x61 3).set 0x62 1, total := 4, ndist := 2#9 }

/-- V1 after BUILD: two leaves and their merge. -/
def built : State :=
  { counted with
    node := [{ freq := 3, leaf := true, sym := 0x61#8, left := 0#9, right := 0#9 },
             { freq := 1, leaf := true, sym := 0x62#8, left := 0#9, right := 0#9 },
             { freq := 4, leaf := false, sym := 0#8, left := 0#9, right := 1#9 }]
    nnodes := 3#10, root := 2#9, rootValid := true, phase := .built }

/-- V1 after WALK: a = "0", b = "1". -/
def walked : State :=
  { built with
    len := ((Vector.replicate 256 0#8).set 0x61 1#8).set 0x62 1#8
    code := ((Vector.replicate 256 0#256).set 0x61 0#256).set 0x62 1#256
    phase := .coded }

/-- A halted block: ILLEGAL recorded. -/
def halted : State := { State.reset with err := some .illegal, errCmd := 0xF0000000#32 }

/-- `'a'` and `'b'` both have the codeword "0". -/
def duplicated : State := (State.reset.setLen 0x61#8 1#8).setLen 0x62#8 1#8

/-- A candidate of 254 digits, all 0, and an empty table (DEC8, DEC9). -/
def longest : State := { State.reset with candLen := 254#8 }

/-- A candidate of 253 digits, all 0, and an empty table. -/
def nearly : State := { State.reset with candLen := 253#8 }

/-- The block holds `w` with every queue full. -/
def holding (w : Word) : State :=
  { least with held := some w, rspQ := [0#32], encQ := List.replicate 255 false
               decQ := List.replicate 16 0#8 }

/-! ### What the states above hold, read through the accessors -/

theorem counted_freqOf (b : Byte) :
    counted.freqOf b = if b = 0x62#8 then 1 else if b = 0x61#8 then 3 else 0 := by
  have h : counted.freqOf b = ((State.reset.setFreq 0x61#8 3).setFreq 0x62#8 1).freqOf b := rfl
  rw [h, setFreq_freqOf, setFreq_freqOf]
  simp [State.freqOf, State.reset, State.resetWith]

theorem walked_lenOf (b : Byte) :
    walked.lenOf b = if b = 0x62#8 then 1#8 else if b = 0x61#8 then 1#8 else 0#8 := by
  have h : walked.lenOf b = ((State.reset.setLen 0x61#8 1#8).setLen 0x62#8 1#8).lenOf b := rfl
  rw [h, setLen_lenOf, setLen_lenOf]
  simp [State.lenOf, State.reset, State.resetWith]

theorem counted_counts : CountsAgree counted := by
  have h0 : CountsAgree State.reset := countsAgree_of_zero rfl rfl rfl
  have h : CountsAgree ([0x61#8, 0x61#8, 0x61#8, 0x62#8].foldl State.countSymbol State.reset) :=
    countsAgree_countSymbol (countsAgree_countSymbol (countsAgree_countSymbol
      (countsAgree_countSymbol h0 (by decide) _) (by decide) _) (by decide) _) (by decide) _
  refine countsAgree_congr h (freq_ext fun b => ?_) rfl ?_ rfl
  · rw [foldl_countSymbol_freqOf, counted_freqOf]
    have : State.reset.freqOf b = 0 := by simp [State.freqOf, State.reset, State.resetWith]
    rw [this]
    by_cases h1 : b = 0x61#8
    · subst h1; decide
    · by_cases h2 : b = 0x62#8
      · subst h2; decide
      · simp [h1, h2, Ne.symm h1, Ne.symm h2]
  · simp [State.countSymbol]
    decide +kernel

theorem counted_leaves : counted.leaves = built.node.take 2 := by
  unfold State.leaves
  simp only [counted_freqOf]
  decide +kernel

theorem counted_build : perform .build counted = counted.buildTree :=
  perform_of_exec (by
    simp only [exec, execBuild, unlessHalted_of_none (show counted.err = none from rfl)]; rfl)

theorem counted_buildNodes : counted.buildTree.node = built.node :=
  (rfl : counted.buildTree.node = buildNodes counted.leaves).trans
    ((congrArg buildNodes counted_leaves).trans
      (by decide : buildNodes (built.node.take 2) = built.node))

/-- V1: two leaves and their merge, the first extracted on the right. -/
theorem test_build : (perform .build counted).node = built.node := by
  rw [counted_build, counted_buildNodes]

/-- V1: NNODES, ROOT and the rest of what BUILD leaves. -/
theorem test_build_rest : counted.buildTree = built := by
  rw [buildTree_frame, buildTree_rootValid, buildTree_root, buildTree_nnodes, counted_buildNodes]
  rfl

theorem counted_present_ne : counted.present ≠ [] :=
  List.ne_nil_of_mem (mem_present.mpr (by rw [counted_freqOf]; decide) : 0x61#8 ∈ _)

theorem counted_present_length : counted.present.length = 2 := counted_counts.ndist_eq.symm

/-- V1: the codewords of the tree, and the whole state WALK leaves. -/
theorem test_walk : built.treeCodes = [(0x61#8, [false]), (0x62#8, [true])] := by decide

theorem built_walk : perform .walk built = built.writeCodes :=
  perform_of_exec (by
    simp only [exec, execWalk, unlessHalted_of_none (show built.err = none from rfl)]; rfl)

theorem test_walk_rest : built.writeCodes = walked ∧ walked.statusWord = 0x102#32 := by
  refine ⟨?_, by decide⟩
  unfold State.writeCodes
  rw [test_walk]
  rfl

theorem built_tree : TreeAgrees built :=
  test_build_rest ▸ treeAgrees_buildTree counted_present_ne counted_counts

theorem walked_free : CodesPrefixFree walked :=
  test_walk_rest.1 ▸ writeCodes_prefixFree built_tree rfl

theorem walked_has (b : Byte) (h : b = 0x61#8 ∨ b = 0x62#8) : hasCode walked b := by
  unfold hasCode
  rw [walked_lenOf]
  rcases h with rfl | rfl <;> decide

theorem walked_codeword_a : walked.codeword 0x61#8 = [false] := by decide +kernel

theorem walked_codeword_b : walked.codeword 0x62#8 = [true] := by decide +kernel

theorem walked_decode : perform (.decode 1#4 2#16) walked =
    { walked with decQ := [0x61#8, 0x62#8], decSyms := 2#32 } := by
  refine perform_of_exec (exec_decode_of_takeEffect rfl (by decide) ?_)
  have h := feed_text [0x61#8, 0x62#8] (s := walked) rfl rfl walked_free fun b hb =>
    walked_has b (by simpa using hb)
  rw [List.flatMap_cons, List.flatMap_cons, walked_codeword_a, walked_codeword_b] at h
  exact h

/-- DEC1's last two digits, on V1's table. -/
theorem test_decode : (perform (.decode 1#4 2#16) walked).decQ = [0x61#8, 0x62#8] := by
  rw [walked_decode]

theorem none_present {s : State} (h : s.freq = State.reset.freq) : s.present = [] :=
  List.eq_nil_iff_forall_not_mem.mpr fun b hb =>
    mem_present.mp hb (by simp [State.freqOf, h, State.reset, State.resetWith])

theorem one_present {s : State} (h : s.freq = State.reset.freq) (b : Byte) :
    (s.countSymbol b).present = [b] := by
  refine List.perm_singleton.mp ((List.perm_ext_iff_of_nodup (present_nodup _)
    (List.nodup_singleton b)).mpr fun x => ?_)
  rw [mem_present, countSymbol_freqOf, List.mem_singleton]
  have : s.freqOf x = 0 := by simp [State.freqOf, h, State.reset, State.resetWith]
  by_cases hx : x = b <;> simp [hx, this]

/-- An empty table matches nothing. -/
theorem no_match {s : State} (h : s.len = State.reset.len) {ds : Digits} (hd : ds ≠ []) (x : Byte) :
    ¬ InMatch s ds x := fun hx => by
  have h1 := hx.1
  rw [show s.lenOf x = 0#8 by simp [State.lenOf, h, State.reset, State.resetWith]] at h1
  exact hd (List.length_eq_zero_iff.mp h1.symm)

/-- DEC9: NO_MATCH at the digit that would make 255, here digit 1, which has no effect. -/
theorem nearly_decode :
    perform (.decode 15#4 0#16) nearly =
      (nearly.extendCandidate false).raise .noMatch 1#4 (encode (.decode 15#4 0#16)) := by
  refine perform_of_exec ?_
  simp only [exec, execDecode, unlessHalted_of_none (show nearly.err = none from rfl)]
  rw [startWhen_of_le (by decide), show digitsOf 0#16 (digitCount 15#4) =
    [false] ++ false :: List.replicate 14 false by decide]
  have h1 : nearly.feedDigit false = .done (nearly.extendCandidate false) :=
    feedDigit_extend (no_match rfl (by simp)) (by simp [nearly])
  have h2 : (nearly.extendCandidate false).feedDigit false = .failed .noMatch :=
    feedDigit_noMatch (no_match rfl (by simp)) (by simp [nearly, State.extendCandidate])
  exact congrArg Host.Outcome.next
    (feedDigits_of_failed (digitsTakeEffect_cons h1 (.done _)) h2 _)

theorem test_decode_no_match :
    (fun t : State => (t.statusWord, t.errInfo, t.candLen)) (perform (.decode 15#4 0#16) nearly) =
      (0x50#32, 1#4, 254#8) := by
  rw [nearly_decode]; decide

/-- Two entries with the codeword "0": AMBIGUOUS at digit 0. -/
theorem duplicated_match (b : Byte) (h : b = 0x61#8 ∨ b = 0x62#8) :
    InMatch duplicated (duplicated.candidate ++ [false]) b := by
  refine inMatch_iff_codeword.mpr ?_
  rcases h with rfl | rfl <;> decide +kernel

theorem duplicated_decode :
    perform (.decode 0#4 0#16) duplicated =
      duplicated.raise .ambiguous 0#4 (encode (.decode 0#4 0#16)) := by
  refine perform_of_exec ?_
  simp only [exec, execDecode, unlessHalted_of_none (show duplicated.err = none from rfl)]
  rw [startWhen_of_le (by decide)]
  exact congrArg _ (feedDigits_of_failed (pre := []) (d := false) (post := []) (.done _)
    (feedDigit_ambiguous (by decide) (duplicated_match 0x61#8 (.inl rfl))
      (duplicated_match 0x62#8 (.inr rfl))) _)

/-! ### The decoder: one word of every family, bit by bit from R195 -/

theorem test_decode_system :
    decode 0b0000_0000_0000_0000_0000_0000_0000_0000#32 = .instr .nop ∧
    decode 0b0000_0001_0000_0000_0000_0000_0000_0000#32 = .instr .clear ∧
    decode 0b0000_0101_0000_0000_0000_0000_0000_0001#32 = .instr (.wrcfg true) ∧
    decode 0b0000_0110_0000_0000_0000_0000_0000_1111#32 = .instr (.rdreg 15#4) := by decide

theorem test_decode_tree :
    decode 0b0000_0010_0000_0000_0000_0000_0000_0000#32 = .instr .build ∧
    decode 0b0000_0011_0000_0000_0000_0000_0000_0000#32 = .instr .walk ∧
    decode 0b1001_0000_0000_0000_0000_0011_1111_1111#32 = .instr (.rdnode 511#9 true) := by decide

theorem test_decode_symbol :
    decode 0b0001_1111_1111_0000_0000_0000_0000_0000#32 = .instr (.count 0xFF#8) ∧
    decode 0b0010_0000_0000_0000_0000_0000_0000_0000#32 = .instr (.encode 0x00#8) ∧
    decode 0b1000_0110_0001_0000_0000_0000_0000_0000#32 = .instr (.rdfreq 0x61#8) := by decide

theorem test_decode_stream :
    decode 0b0011_0000_0000_0001_1111_1111_1111_1101#32 = .instr (.decode 1#4 0xFFFD#16) ∧
    decode 0b0000_0100_0000_0000_0000_0000_0000_0000#32 = .instr .decend := by decide

theorem test_decode_table :
    decode 0b0100_1111_1111_0000_0000_0000_1111_1111#32 = .instr (.ldlen 0xFF#8 255#8) ∧
    decode 0b0101_1111_1111_1111_0001_0010_0011_0100#32 = .instr (.ldchunk 0xFF#8 15#4 0x1234#16) ∧
    decode 0b0110_0110_0010_0000_0000_0000_0000_0000#32 = .instr (.rdlen 0x62#8) ∧
    decode 0b0111_0110_0010_0000_0000_0000_0000_0000#32 = .instr (.rdchunk 0x62#8 0#4) := by decide

/-- The illegal words of spec/95 section 2.1, each rejected for its own reason. -/
theorem test_decode_rejects :
    decode 0x10000001#32 = .reject (.reservedBits "COUNT") ∧
    decode 0x00000001#32 = .reject (.reservedBits "NOP") ∧
    decode 0x30100000#32 = .reject (.reservedBits "DECODE") ∧
    decode 0x90000400#32 = .reject (.reservedBits "RDNODE") ∧
    decode 0x07000000#32 = .reject (.reservedFunction 7#4) ∧
    decode 0xA0000000#32 = .reject (.reservedOpcode 0xA#4) := by decide

/-- The words of R211's column that spec/95 prints. -/
theorem test_encode_words :
    encode (.count 0x61#8) = 0x16100000#32 ∧ encode (.decode 3#4 8#16) = 0x30030008#32 ∧
    encode (.ldchunk 0x78#8 15#4 0x3FFF#16) = 0x578F3FFF#32 ∧
    encode (.rdnode 2#9 true) = 0x90000202#32 := by decide

/-! ### Well-formedness: an ill-formed line for each check (R211, R214) -/

theorem test_wrcfg_out_of_range : (AsmLine.wrcfg 2).wellFormed = false := by decide
theorem test_rdreg_out_of_range : (AsmLine.rdreg 16).wellFormed = false := by decide
theorem test_count_out_of_range : (AsmLine.count 256).wellFormed = false := by decide
theorem test_encode_out_of_range : (AsmLine.encode 256).wellFormed = false := by decide
theorem test_decode_no_digits : (AsmLine.decodeDigits []).wellFormed = false := by decide
theorem test_decode_too_many_digits :
    (AsmLine.decodeDigits (List.replicate 17 true)).wellFormed = false := by decide
theorem test_decode_raw_out_of_range :
    (AsmLine.decodeRaw 0 0).wellFormed = false ∧ (AsmLine.decodeRaw 17 0).wellFormed = false ∧
    (AsmLine.decodeRaw 16 65536).wellFormed = false := by decide
theorem test_ldlen_out_of_range :
    (AsmLine.ldlen 256 0).wellFormed = false ∧ (AsmLine.ldlen 0 256).wellFormed = false := by decide
theorem test_ldchunk_out_of_range :
    (AsmLine.ldchunk 256 0 0).wellFormed = false ∧ (AsmLine.ldchunk 0 16 0).wellFormed = false ∧
    (AsmLine.ldchunk 0 0 65536).wellFormed = false := by decide
theorem test_rdlen_out_of_range : (AsmLine.rdlen 256).wellFormed = false := by decide
theorem test_rdchunk_out_of_range :
    (AsmLine.rdchunk 256 0).wellFormed = false ∧ (AsmLine.rdchunk 0 16).wellFormed = false := by decide
theorem test_rdfreq_out_of_range : (AsmLine.rdfreq 256).wellFormed = false := by decide
theorem test_rdnode_out_of_range :
    (AsmLine.rdnode 512 0).wellFormed = false ∧ (AsmLine.rdnode 0 2).wellFormed = false := by decide
theorem test_ldcode_empty_or_out_of_range :
    (AsmLine.ldCode 0 []).wellFormed = false ∧ (AsmLine.ldCode 256 [true]).wellFormed = false ∧
    (AsmLine.ldCode 0 (List.replicate 256 true)).wellFormed = false := by decide +kernel
theorem test_rdcode_out_of_range : (AsmLine.rdCode 256).wellFormed = false := by decide

/-- An ill-formed line assembles to nothing; a well-formed one to its commands (TA6). -/
theorem test_assemble :
    assemble (.count 256) = none ∧
    (assemble (.ldCode 0x63 [true, false, true, false, true])).map (List.map encode) =
      some [0x56300015#32, 0x46300005#32] := by decide

/-- R12: entries are loaded in file order; one whose codeword is no operand of LDCODE stops the run (log
entry 8). -/
theorem test_decompression_run :
    (decompressionRun [(0x61#8, [false]), (0x62#8, [true])] [false, true]).map (List.map encode) =
      some [0x01000000#32, 0x56100000#32, 0x46100001#32, 0x56200001#32, 0x46200001#32, 0x30010002#32,
        0x04000000#32, 0x06000002#32] ∧
    decompressionRun [(0x61#8, [])] [] = none := by decide

theorem test_decompression_run_too_long :
    decompressionRun [(0x61#8, [true]), (0x62#8, List.replicate 256 true)] [] = none := by
  decide +kernel

/-- R13: the host reads the entries of the symbols with a codeword, in ascending order. -/
theorem test_coded_symbols : codedSymbols walked = [0x61#8, 0x62#8] := by
  unfold codedSymbols
  simp only [walked_lenOf]
  decide +kernel

/-! ### One step each, with the value spec/95 gives -/

/-- FC1. -/
theorem test_count_first :
    (perform (.count 0x61#8) State.reset).freqOf 0x61#8 = 1 ∧
    (perform (.count 0x61#8) State.reset).total = 1 ∧
    (perform (.count 0x61#8) State.reset).ndist = 1#9 := by decide +kernel

/-- FC5. -/
theorem test_count_overflow :
    (performAll [.count 0x61#8, .count 0x62#8] least).statusWord = 0x30#32 ∧
    (performAll [.count 0x61#8, .count 0x62#8] least).errCmd = 0x16200000#32 := by decide +kernel

/-- FC2. -/
theorem test_rdfreq : (performAll [.rdfreq 0x61#8, .rdfreq 0x63#8] counted).rspQ = [3#32, 0#32] := by
  decide +kernel

/-- TB9. -/
theorem test_build_twice :
    (perform .build built).statusWord = 0x121#32 ∧ (perform .build built).errCmd = 0x02000000#32 := by
  decide +kernel

/-- TB1, and R199 for index 511. -/
theorem test_rdnode :
    (performAll [.rdnode 2#9 true, .rdnode 0#9 true, .rdnode 1#9 false, .rdnode 511#9 true] built).rspQ =
      [0x00040000#32, 0x00000161#32, 1#32, 0#32] := by decide +kernel

/-- CW8. -/
theorem test_walk_from_reset :
    (perform .walk State.reset).statusWord = 0x20#32 ∧
    (perform .walk State.reset).errCmd = 0x03000000#32 := by decide +kernel

/-- ENC1. -/
theorem test_encode :
    (performAll (encodeAll [0x61#8, 0x61#8, 0x61#8, 0x62#8]) walked).encQ =
      [false, false, false, true] ∧
    (performAll (encodeAll [0x61#8, 0x61#8, 0x61#8, 0x62#8]) walked).encBits = 4#32 := by
  decide +kernel

/-- ENC2: a byte without a codeword. -/
theorem test_encode_no_code :
    (perform (.encode 0x63#8) walked).statusWord = 0x142#32 ∧
    (perform (.encode 0x63#8) walked).encQ = [] := by decide +kernel

/-- DEC4 and DEC7: TRUNCATED keeps the candidate. -/
theorem test_decend_strict :
    (fun t : State => (t.statusWord, t.candLen)) (perform .decend longest) = (0x70#32, 254#8) := by
  decide +kernel

/-- DEC5: the lax mode discards it. -/
theorem test_decend_lax :
    (fun t : State => (t.statusWord, t.candLen)) (perform .decend { longest with laxEnd := true }) =
      (0#32, 0#8) := by decide +kernel

/-- TA1. -/
theorem test_ldlen_rdlen : (performAll [.ldlen 0x61#8 1#8, .rdlen 0x61#8] State.reset).rspQ = [1#32] := by
  decide +kernel

/-- TA3: bit 255 is stored. -/
theorem test_ldchunk_rdchunk :
    (performAll [.ldchunk 0x61#8 15#4 0x8000#16, .rdchunk 0x61#8 15#4, .rdlen 0x61#8]
      State.reset).rspQ = [0x00008000#32, 0#32] := by decide +kernel

/-- R420. -/
theorem test_nop : perform .nop walked = walked := rfl

/-- R422: CLEAR ends the halt and keeps CFG. -/
theorem test_clear :
    (perform .clear { halted with laxEnd := true }).statusWord = 0#32 ∧
    (perform .clear { halted with laxEnd := true }).laxEnd = true := by decide +kernel

/-- R54: ID, PARAMS, CFG after `WRCFG 1`, and a reserved number. -/
theorem test_wrcfg_rdreg :
    (performAll [.wrcfg true, .rdreg 0#4, .rdreg 1#4, .rdreg 3#4, .rdreg 13#4] State.reset).rspQ =
      [0x48554631#32, 32#32, 1#32, 0#32] := by decide +kernel

/-- Section 2.1: an illegal word from reset. -/
theorem test_illegal_word :
    ((State.reset.withFetchWord 32 0x10000001).takeWord.map fun wt =>
      (wt.2.raiseIllegal wt.1).statusWord) = some 0x10#32 := by decide +kernel

/-- A host that pops takes the head. -/
theorem test_pop_enc :
    (State.popEnc { State.reset with encQ := [true, false] }).encOut = [true] ∧
    (State.popEnc { State.reset with encQ := [true, false] }).encQ = [false] := by decide +kernel

/-- R500, R172: `rst_n` kept at 0 and the turn after it; `cmd_ready` is 0 until the block is out of
reset, and the word offered stays. -/
theorem test_reset_ready :
    (fun s : State => (s.cmdReady, s.applyReset.cmdReady, s.applyReset.applyReset.cmdReady,
      s.applyReset.leaveReset.cmdReady)) (holding 0x06000000#32) = (false, false, false, true) := by
  decide

theorem test_reset_accepts_nothing :
    (match step { State.reset with inReset := true, cmdIn := [0x16100000#32] } with
      | .next t => t.cmdIn = [0x16100000#32] ∧ t.total = 0 ∧ t.cmdReady = true
      | .fault _ => False
      | .refused _ => False) := by
  refine ⟨rfl, rfl, rfl⟩

/-! ### The witness states meet the invariants -/

theorem built_invariant : Invariant built where
  legal := by decide +kernel
  counts := countsAgree_congr counted_counts rfl rfl rfl rfl
  phase := ⟨by decide +kernel, by decide +kernel, by decide +kernel⟩
  nodes := ⟨by decide +kernel, by decide +kernel, by decide +kernel⟩
  tree _ := built_tree
  candidate := ⟨by decide +kernel, fun j _ => by
    change (0#255).getLsbD j = false; simp⟩
  queues := ⟨by decide +kernel, by decide +kernel, by decide +kernel⟩
  errors := ⟨fun _ => ⟨rfl, rfl⟩, fun _ h => (by cases h), fun _ h => (by cases h)⟩
  reset h := by cases h

theorem walked_invariant : Invariant walked where
  legal := by decide +kernel
  counts := countsAgree_congr counted_counts rfl rfl rfl rfl
  phase := ⟨by decide +kernel, by decide +kernel, by decide +kernel⟩
  nodes := ⟨by decide +kernel, by decide +kernel, by decide +kernel⟩
  tree _ := treeAgrees_congr built_tree rfl rfl rfl rfl rfl
  candidate := ⟨by decide +kernel, fun j _ => by
    change (0#255).getLsbD j = false; simp⟩
  queues := ⟨by decide +kernel, by decide +kernel, by decide +kernel⟩
  errors := ⟨fun _ => ⟨rfl, rfl⟩, fun _ h => (by cases h), fun _ h => (by cases h)⟩
  reset h := by cases h

theorem walked_hasCode (b : Byte) : hasCode walked b ↔ walked.freqOf b ≠ 0 := by
  have h := (writeCodes_hasCode_iff_present (b := b) built_tree rfl).trans mem_present
  rw [test_walk_rest.1] at h
  exact h

theorem walked_table : TableAgrees walked where
  present_iff _ := walked_hasCode
  prefixFree _ := walked_free
  length_le _ b hb := by
    rw [← test_walk_rest.1] at hb ⊢
    obtain ⟨p, hp⟩ := (writeCodes_hasCode built_tree rfl).mp hb
    have h2 := treeCodes_lengths built_tree rfl hp
    rw [treeCodes_length built_tree rfl hp]
    rw [show built.present.length = 2 from counted_present_length] at h2
    exact h2

/-! ### Witnesses: states and operands that meet each statement's hypotheses -/

theorem witness_EncodeInvertsDecode :
    decode 0x4FF000FF#32 = .instr (.ldlen 0xFF#8 255#8) ∧ decode 0#32 = .instr .nop := by decide

/-- The first and last reserved opcode, the first and last reserved function, and a reserved bit. -/
theorem witness_ReservedWordsRaiseIllegal :
    State.reset.err = none ∧ 10 ≤ (fieldOp 0xA0000000#32).toNat ∧ 10 ≤ (fieldOp 0xF0000000#32).toNat ∧
    (fieldOp 0x07000000#32 = 0#4 ∧ 7 ≤ (fieldFunc 0x07000000#32).toNat) ∧
    (fieldOp 0x0F000000#32 = 0#4 ∧ 7 ≤ (fieldFunc 0x0F000000#32).toNat) ∧
    (∃ row ∈ encodingTable, fieldOp 0x10000001#32 = fieldOp row.pattern ∧
      (fieldOp 0x10000001#32 = 0#4 → fieldFunc 0x10000001#32 = fieldFunc row.pattern) ∧
      ∃ j, j < 32 ∧ (0x10000001#32).getLsbD j = true ∧ row.mask.getLsbD j = true ∧
        row.pattern.getLsbD j = false) :=
  ⟨rfl, by decide, by decide, by decide, by decide, rowCount, by decide, by decide, by decide, 0, by decide⟩

/-- One state for each clause: a word offered or held, with and without a turn listed. -/
theorem witness_StepRunsTheDecodedCommand :
    decode 0x16100000#32 = .instr (.count 0x61#8) ∧
    (∃ s : State, s.inReset = false ∧ s.held = none ∧ s.cmdIn = [0x16100000#32] ∧ s.hostActs = []) ∧
    (∃ s : State, s.inReset = false ∧ s.held = none ∧ s.cmdIn = [0x16100000#32] ∧
      s.hostActs = [.blockTurn]) ∧
    (∃ s : State, s.inReset = false ∧ s.held = some 0x16100000#32 ∧ s.hostActs = []) ∧
    (∃ s : State, s.inReset = false ∧ s.held = some 0x16100000#32 ∧ s.hostActs = [.blockTurn]) :=
  ⟨by decide, ⟨{ State.reset with cmdIn := [0x16100000#32] }, rfl, rfl, rfl, rfl⟩,
    ⟨{ State.reset with cmdIn := [0x16100000#32], hostActs := [.blockTurn] }, rfl, rfl, rfl, rfl⟩,
    ⟨{ State.reset with held := some 0x16100000#32 }, rfl, rfl, rfl⟩,
    ⟨{ State.reset with held := some 0x16100000#32, hostActs := [.blockTurn] }, rfl, rfl, rfl⟩⟩

/-- A rejected word, halted or not, and no word, with and without a turn listed. -/
theorem witness_StepRejectsOrIdles :
    decode 0xA0000000#32 = .reject (.reservedOpcode 0xA#4) ∧
    (∃ s : State, s.inReset = false ∧ s.held = none ∧ s.cmdIn = [0xA0000000#32] ∧ s.hostActs = [] ∧
      s.err = none) ∧
    (∃ s : State, s.inReset = false ∧ s.held = none ∧ s.cmdIn = [0xA0000000#32] ∧
      s.hostActs = [.blockTurn] ∧ s.err ≠ none) ∧
    (State.reset.inReset = false ∧ State.reset.held = none ∧ State.reset.cmdIn = [] ∧
      State.reset.hostActs = []) ∧
    (∃ s : State, s.inReset = false ∧ s.held = none ∧ s.cmdIn = [] ∧ s.hostActs = [.blockTurn]) :=
  ⟨by decide, ⟨{ State.reset with cmdIn := [0xA0000000#32] }, rfl, rfl, rfl, rfl, rfl⟩,
    ⟨{ halted with cmdIn := [0xA0000000#32], hostActs := [.blockTurn] }, rfl, rfl, rfl, rfl, by decide⟩,
    ⟨rfl, rfl, rfl, rfl⟩, ⟨{ State.reset with hostActs := [.blockTurn] }, rfl, rfl, rfl, rfl⟩⟩

theorem witness_HostPopsTakeTheHead :
    (∃ s : State, s.hostActs = [.popEnc] ∧ s.encQ = [true]) ∧
    (∃ s : State, s.hostActs = [.popDec] ∧ s.decQ = [0x61#8]) ∧
    (∃ s : State, s.hostActs = [.popRsp] ∧ s.rspQ = [1#32]) ∧
    (∃ s : State, s.hostActs = [.popEnc] ∧ s.encQ = []) ∧
    (∃ s : State, s.hostActs = [.popDec] ∧ s.decQ = []) ∧
    (∃ s : State, s.hostActs = [.popRsp] ∧ s.rspQ = []) :=
  ⟨⟨{ State.reset with hostActs := [.popEnc], encQ := [true] }, rfl, rfl⟩,
    ⟨{ State.reset with hostActs := [.popDec], decQ := [0x61#8] }, rfl, rfl⟩,
    ⟨{ State.reset with hostActs := [.popRsp], rspQ := [1#32] }, rfl, rfl⟩,
    ⟨{ State.reset with hostActs := [.popEnc] }, rfl, rfl⟩,
    ⟨{ State.reset with hostActs := [.popDec] }, rfl, rfl⟩,
    ⟨{ State.reset with hostActs := [.popRsp] }, rfl, rfl⟩⟩

theorem witness_QueuesAreFirstInFirstOut :
    (∀ acts, (State.withFetchWord State.reset 32 0x06000000).hostActs ≠ .assertReset :: acts) ∧
    ∃ t, step (State.withFetchWord State.reset 32 0x06000000) = .next t := by
  exact ⟨fun acts h => (by cases h), _, rfl⟩

/-- A reset in the middle of a hold, with an error recorded. -/
theorem witness_ResetGivesTheResetValues :
    ({ holding 0x06000000#32 with err := some .noCode, hostActs := [.assertReset] } : State).hostActs =
      .assertReset :: [] := rfl

/-- A word accepted, a step into reset, and a turn in reset with and without one listed. -/
theorem witness_WordsAreAcceptedOnlyWhenReady :
    (∃ s t : State, step s = .next t ∧ t.cmdIn ≠ s.cmdIn) ∧
    (∃ s t : State, step s = .next t ∧ t.inReset = true) ∧
    (∃ s : State, s.inReset = true ∧ s.hostActs = []) ∧
    (∃ s : State, s.inReset = true ∧ s.hostActs = [.blockTurn]) :=
  ⟨⟨{ State.reset with cmdIn := [0#32] }, _, rfl, by decide⟩,
    ⟨{ State.reset with hostActs := [.assertReset] }, _, rfl, rfl⟩,
    ⟨{ State.reset with inReset := true }, rfl, rfl⟩,
    ⟨{ State.reset with inReset := true, hostActs := [.blockTurn] }, rfl, rfl⟩⟩

/-- The least and the greatest legal parameters. -/
theorem witness_ResetMeetsTheInvariant :
    Params.legal { freqW := 1, encQDepth := 255, decQDepth := 16, rspQDepth := 1 } ∧
    Params.legal { freqW := 32, encQDepth := 65536, decQDepth := 65536, rspQDepth := 65536 } := by decide

/-- A state that meets every invariant, and a step from it. -/
theorem witness_StepKeepsTheInvariant :
    Invariant built ∧ ∃ t, step built = .next t := ⟨built_invariant, _, rfl⟩

theorem witness_StepKeepsCountsAgree : CountsAgree counted ∧ ∃ t, step counted = .next t :=
  ⟨counted_counts, _, rfl⟩

/-- The longest candidate there is. -/
theorem witness_StepKeepsCandidateFits : CandidateFits longest ∧ ∃ t, step longest = .next t :=
  ⟨⟨by decide +kernel, fun j _ => by change (0#255).getLsbD j = false; simp⟩, _, rfl⟩

/-- Every queue full. -/
theorem witness_StepKeepsQueuesFit :
    QueuesFit (holding 0x06000000#32) ∧ ∃ t, step (holding 0x06000000#32) = .next t :=
  ⟨⟨by decide +kernel, by decide +kernel, by decide +kernel⟩, _, rfl⟩

theorem witness_StepKeepsErrorRecordAgrees :
    ErrorRecordAgrees halted ∧ ∃ t, step halted = .next t := by
  refine ⟨⟨fun h => (by cases h), fun code h => ?_, fun code _ _ _ => rfl⟩, _, rfl⟩
  cases h
  exact ⟨_, rfl⟩

theorem witness_StepKeepsTableAgrees :
    Invariant walked ∧ TableAgrees walked ∧ (∃ t, step walked = .next t) ∧
    ∀ w, RunsNext walked w → (∀ b n, decode w ≠ .instr (.ldlen b n)) ∧
      (∀ b k d, decode w ≠ .instr (.ldchunk b k d)) :=
  ⟨walked_invariant, walked_table, ⟨_, rfl⟩, fun w h => by
    rcases h with ⟨-, h | ⟨-, ws, h⟩⟩ <;> cases h⟩

/-- Each part of the state is written by some command. -/
theorem witness_OnlyTheNamedCommandsWrite :
    (∀ i s, ∃ t, exec i s = .next t) ∧
    (perform (.count 0x61#8) State.reset).total ≠ State.reset.total ∧
    (perform .build counted).node ≠ counted.node ∧
    (perform (.ldlen 0x61#8 255#8) State.reset).lenOf 0x61#8 ≠ State.reset.lenOf 0x61#8 ∧
    (perform (.ldchunk 0x61#8 15#4 0x8000#16) State.reset).codeOf 0x61#8 ≠ State.reset.codeOf 0x61#8 ∧
    (perform .decend { longest with laxEnd := true }).candLen ≠ longest.candLen ∧
    (perform .walk built).phase ≠ built.phase ∧
    (perform (.wrcfg true) State.reset).laxEnd ≠ State.reset.laxEnd ∧
    (perform (.encode 0x61#8) walked).encBits ≠ walked.encBits ∧
    (perform (.encode 0x61#8) walked).encQ ≠ walked.encQ ∧
    (perform (.decode 1#4 2#16) walked).decSyms ≠ walked.decSyms ∧
    (perform (.decode 1#4 2#16) walked).decQ ≠ walked.decQ ∧
    (perform (.rdreg 0#4) State.reset).rspQ ≠ State.reset.rspQ :=
  ⟨fun i s => ⟨_, exec_next i s⟩, by decide +kernel, (by rw [test_build]; decide), by decide +kernel,
    by decide +kernel, by decide +kernel, by rw [built_walk]; decide, by decide +kernel,
    by decide +kernel, by decide +kernel, by rw [walked_decode]; decide,
    by rw [walked_decode]; decide, by decide +kernel⟩

theorem witness_PhaseChecksRaiseSequence :
    built.err = none ∧ built.phase ≠ .count ∧ walked.phase ≠ .count ∧ walked.phase ≠ .built ∧
    State.reset.err = none ∧ State.reset.phase ≠ .built ∧
    (perform (.count 0x61#8) built).err = some .sequence ∧ (perform .build walked).err = some .sequence ∧
    (perform .walk State.reset).err = some .sequence := by decide +kernel

/-- A command's own error, and DECODE's at digit 0 and at a later digit. -/
theorem witness_ErrorsArePrecise :
    State.reset.err = none ∧ (perform (.encode 0x61#8) State.reset).err = some .noCode ∧
    (perform (.decode 0#4 0#16) duplicated).err = some .ambiguous ∧
    (perform (.decode 15#4 0#16) nearly).err = some .noMatch :=
  ⟨rfl, by decide +kernel, by rw [duplicated_decode]; decide, by rw [nearly_decode]; decide⟩

theorem witness_HaltedBlockDiscards :
    halted.err ≠ none ∧ isMutating (.count 0x61#8) = true ∧
    decode 0x00000001#32 = .reject (.reservedBits "NOP") ∧
    State.reset.err = none ∧ (perform .walk State.reset).err ≠ none :=
  ⟨by decide, rfl, by decide, rfl, by decide +kernel⟩

theorem witness_HaltedBlockAnswersReads :
    halted.err ≠ none ∧ isRead (.rdreg 4#4) = true ∧ halted.rspQ.length < halted.params.rspQDepth ∧
    Instr.rdreg 4#4 ≠ .rdreg 2#4 ∧
    ({ holding 0#32 with err := some .illegal } : State).err ≠ none ∧
    ({ holding 0#32 with err := some .illegal } : State).params.rspQDepth ≤
      ({ holding 0#32 with err := some .illegal } : State).rspQ.length := by decide +kernel

theorem witness_ErrorRecordStaysUntilClearOrReset :
    halted.err ≠ none ∧ ∃ t, step halted = .next t := ⟨by decide, _, rfl⟩

theorem witness_CountsAndTreeStayUntilClear :
    built.phase ≠ .count ∧ ∃ t, step built = .next t := ⟨by decide, _, rfl⟩

/-- Room for exactly two answers, and each of the four idempotent commands. -/
theorem witness_ReadsAndLoadsAreIdempotent :
    (∃ s : State, isRead (.rdnode 511#9 true) = true ∧ s.rspQ.length + 2 = s.params.rspQDepth) ∧
    ((Instr.nop = .nop) ∧ (∃ x, Instr.wrcfg true = .wrcfg x) ∧
      (∃ b n, Instr.ldlen 0xFF#8 255#8 = .ldlen b n) ∧
      (∃ b k d, Instr.ldchunk 0xFF#8 15#4 0xFFFF#16 = .ldchunk b k d)) :=
  ⟨⟨{ State.reset with params := { Params.standard with rspQDepth := 2 } }, rfl, rfl⟩,
    rfl, ⟨_, rfl⟩, ⟨_, _, rfl⟩, ⟨_, _, _, rfl⟩⟩

/-- A full queue, a queue with exactly the space needed, and a discarded command. -/
theorem witness_CommandsHoldForQueueSpace :
    ((holding 0#32).err = none ∧ room (.decode 0#4 0#16) (holding 0#32) < need (.decode 0#4 0#16) (holding 0#32)) ∧
    (isMutating (.rdreg 2#4) = false ∧ room (.rdreg 2#4) (holding 0#32) < need (.rdreg 2#4) (holding 0#32)) ∧
    need (.decode 15#4 0#16) least = room (.decode 15#4 0#16) least ∧
    (halted.err ≠ none ∧ isMutating (.decode 15#4 0#16) = true) := by decide +kernel

theorem witness_AHoldWithoutPopsLastsForEver :
    (holding (encode (.rdreg 2#4))).inReset = false ∧
    (holding (encode (.rdreg 2#4))).held = some (encode (.rdreg 2#4)) ∧
    (holding (encode (.rdreg 2#4))).hostActs = [] ∧ (holding (encode (.rdreg 2#4))).err = none ∧
    room (.rdreg 2#4) (holding (encode (.rdreg 2#4))) < need (.rdreg 2#4) (holding (encode (.rdreg 2#4))) := by
  decide +kernel

theorem witness_EveryNeedFitsAnEmptyQueue :
    least.params.legal ∧ least.encQ = [] ∧ least.decQ = [] ∧ least.rspQ = [] ∧ least.held = none := by
  decide +kernel

/-- A first and a later occurrence; the last total that still counts. -/
theorem witness_CountAddsOneOccurrence :
    State.reset.err = none ∧ State.reset.phase = .count ∧
    State.reset.total ≠ 2 ^ State.reset.params.freqW - 1 ∧ State.reset.freqOf 0x61#8 = 0 ∧
    counted.err = none ∧ counted.phase = .count ∧ counted.total ≠ 2 ^ counted.params.freqW - 1 ∧
    counted.freqOf 0x61#8 ≠ 0 ∧ least.total ≠ 2 ^ least.params.freqW - 1 := by decide +kernel

theorem witness_CountAtTheGreatestTotalOverflows :
    (least.countSymbol 0x61#8).err = none ∧ (least.countSymbol 0x61#8).phase = .count ∧
    (least.countSymbol 0x61#8).total = 2 ^ (least.countSymbol 0x61#8).params.freqW - 1 := by
  decide +kernel

/-- FC8, filling the greatest total. -/
theorem witness_CountingIgnoresOrder :
    [0x62#8, 0x61#8, 0x61#8].Perm [0x61#8, 0x61#8, 0x62#8] ∧
    ∃ s : State, s.err = none ∧ s.phase = .count ∧ s.total + 3 = 2 ^ s.params.freqW - 1 :=
  ⟨by decide, { State.reset with params := { Params.standard with freqW := 2 } }, rfl, rfl, rfl⟩

/-- Room for exactly one answer: the hypothesis of every statement about a read that answers. -/
theorem witness_reads_answer :
    least.rspQ.length + 1 = least.params.rspQDepth ∧ least.rspQ.length < least.params.rspQDepth := by
  decide +kernel

theorem witness_RdfreqAndRdlenAnswerTheEntry : least.rspQ.length < least.params.rspQDepth := by
  decide +kernel

theorem witness_BuildMergesTheLeastKeys : counted.err = none ∧ counted.phase = .count := by
  decide +kernel

theorem witness_BuildMakesAStrictBinaryTree :
    counted.err = none ∧ counted.phase = .count ∧ counted.present.length = 2 ∧
    (least.countSymbol 0xFF#8).err = none ∧ (least.countSymbol 0xFF#8).phase = .count ∧
    (least.countSymbol 0xFF#8).present.length = 1 :=
  ⟨rfl, rfl, counted_present_length, rfl, rfl, by
    rw [show (least.countSymbol 0xFF#8).present = [0xFF#8] from one_present rfl _]; rfl⟩

theorem witness_BuildOfNoneOrOneSymbol :
    State.reset.err = none ∧ State.reset.phase = .count ∧ State.reset.present = [] ∧
    (State.reset.countSymbol 0x7A#8).err = none ∧ (State.reset.countSymbol 0x7A#8).phase = .count ∧
    (State.reset.countSymbol 0x7A#8).present = [0x7A#8] :=
  ⟨rfl, rfl, none_present rfl, rfl, rfl, one_present rfl _⟩

/-- Equal counts, different tables and candidates. -/
theorem witness_BuildDependsOnTheCountsAlone :
    counted.err = none ∧ counted.phase = .count ∧
    ({ counted with candLen := 3#8, encBits := 7#32 } : State).err = none ∧
    ({ counted with candLen := 3#8, encBits := 7#32 } : State).phase = .count ∧
    ∀ b, counted.freqOf b = ({ counted with candLen := 3#8, encBits := 7#32 } : State).freqOf b :=
  ⟨rfl, rfl, rfl, rfl, fun _ => rfl⟩

/-- The first absent index and the last present one. -/
theorem witness_RdnodeAnswersTheNode :
    built.rspQ.length < built.params.rspQDepth ∧ built.nnodes.toNat ≤ (3#9).toNat ∧
    (2#9).toNat < built.nnodes.toNat ∧
    built.node[(2#9).toNat]? = some { freq := 4, leaf := false, sym := 0#8, left := 0#9, right := 1#9 } := by
  decide +kernel

/-- An internal root, a leaf for a root, and no root. -/
theorem witness_WalkWritesThePaths :
    (built.err = none ∧ built.phase = .built ∧ (built.rootValid = true → TreeAgrees built) ∧
      built.rootValid = true ∧ ∃ n, built.node[built.root.toNat]? = some n ∧ n.leaf = false) ∧
    (∃ s : State, s.err = none ∧ s.phase = .built ∧ (s.rootValid = true → TreeAgrees s) ∧
      s.rootValid = true ∧ ∃ n, s.node[s.root.toNat]? = some n ∧ n.leaf = true) ∧
    (∃ s : State, s.err = none ∧ s.phase = .built ∧ (s.rootValid = true → TreeAgrees s) ∧
      s.rootValid = false) := by
  have h1 := buildTree_one (one_present (s := State.reset) rfl 0x7A#8)
  have h2 := buildTree_none (none_present (s := State.reset) rfl)
  refine ⟨⟨rfl, rfl, fun _ => built_tree, rfl, _, rfl, rfl⟩,
    ⟨(State.reset.countSymbol 0x7A#8).buildTree, rfl, rfl, fun _ => treeAgrees_buildTree ?_ ?_,
      by rw [h1], leafNode 0x7A#8 ((State.reset.countSymbol 0x7A#8).freqOf 0x7A#8), by rw [h1]; rfl,
      rfl⟩,
    ⟨State.reset.buildTree, rfl, rfl, fun h => ?_, by rw [h2]⟩⟩
  · rw [one_present rfl]; decide
  · exact countsAgree_countSymbol (countsAgree_of_zero rfl rfl rfl) (by decide) _
  · rw [h2] at h; cases h

theorem witness_WalkedTablesArePrefixFree :
    Invariant built ∧ built.err = none ∧ built.phase = .built := ⟨built_invariant, rfl, rfl⟩

/-- A codeword with room for it, the longest one with exactly its room, and no codeword. -/
theorem witness_EncodePushesTheCodeword :
    (walked.err = none ∧ walked.lenOf 0x61#8 ≠ 0#8 ∧
      (walked.lenOf 0x61#8).toNat ≤ walked.params.encQDepth - walked.encQ.length) ∧
    ((least.setLen 0x78#8 255#8).err = none ∧ (least.setLen 0x78#8 255#8).lenOf 0x78#8 ≠ 0#8 ∧
      ((least.setLen 0x78#8 255#8).lenOf 0x78#8).toNat =
        (least.setLen 0x78#8 255#8).params.encQDepth - (least.setLen 0x78#8 255#8).encQ.length) ∧
    (State.reset.err = none ∧ State.reset.lenOf 0x61#8 = 0#8) := by decide +kernel

theorem witness_EncodedStreamIsTheConcatenation :
    walked.err = none ∧ (∀ b ∈ [0x61#8, 0x61#8, 0x61#8, 0x62#8], hasCode walked b) ∧
    walked.encQ.length + ([0x61#8, 0x61#8, 0x61#8, 0x62#8].flatMap walked.codeword).length ≤
      walked.params.encQDepth :=
  ⟨rfl, fun b hb => walked_has b (by simpa using hb), by decide +kernel⟩

/-- The same entry in a state that differs in FREQ, the tree and the phase. -/
theorem witness_EncodeReadsItsOwnEntryAlone :
    walked.err = none ∧ (State.reset.setLen 0x61#8 1#8).err = none ∧
    walked.lenOf 0x61#8 = (State.reset.setLen 0x61#8 1#8).lenOf 0x61#8 ∧
    walked.codeOf 0x61#8 = (State.reset.setLen 0x61#8 1#8).codeOf 0x61#8 ∧
    (walked.lenOf 0x61#8).toNat ≤ walked.params.encQDepth - walked.encQ.length ∧
    ((State.reset.setLen 0x61#8 1#8).lenOf 0x61#8).toNat ≤
      (State.reset.setLen 0x61#8 1#8).params.encQDepth - (State.reset.setLen 0x61#8 1#8).encQ.length := by
  decide +kernel

/-- Digits that take effect, a digit that is ambiguous, and a digit that reaches 255 unmatched. -/
theorem witness_DecodeFeedsDigitByDigit :
    (walked.err = none ∧ (0#4).toNat + 1 ≤ walked.params.decQDepth - walked.decQ.length ∧
      ∃ t, DigitsTakeEffect (digitsOf 0#16 ((0#4).toNat + 1)) walked t) ∧
    (duplicated.err = none ∧ (0#4).toNat + 1 ≤ duplicated.params.decQDepth - duplicated.decQ.length ∧
      DigitsTakeEffect ((digitsOf 0#16 ((0#4).toNat + 1)).take 0) duplicated duplicated ∧
      ∃ a b, a ≠ b ∧ InMatch duplicated (duplicated.candidate ++ [false]) a ∧
        InMatch duplicated (duplicated.candidate ++ [false]) b) ∧
    (longest.err = none ∧ (0#4).toNat + 1 ≤ longest.params.decQDepth - longest.decQ.length ∧
      DigitsTakeEffect ((digitsOf 0#16 ((0#4).toNat + 1)).take 0) longest longest ∧
      (∀ x, ¬ InMatch longest (longest.candidate ++ [false]) x) ∧
      (longest.candidate ++ [false]).length = 255) := by
  refine ⟨⟨rfl, by decide +kernel, walked.emitSymbol 0x61#8, ?_⟩,
    ⟨rfl, by decide +kernel, .done _, 0x61#8, 0x62#8, by decide, ?_, ?_⟩,
    ⟨rfl, by decide +kernel, .done _, fun x hx => ?_, by simp [longest]⟩⟩
  · rw [show digitsOf 0#16 ((0#4).toNat + 1) = walked.codeword 0x61#8 by decide +kernel]
    exact feed_codeword rfl (walked_has _ (.inl rfl)) fun b hb hp =>
      walked_free b 0x61#8 hb (walked_has _ (.inl rfl)) hp
  · exact inMatch_iff_codeword.mpr (by decide +kernel)
  · exact inMatch_iff_codeword.mpr (by decide +kernel)
  · have h1 := hx.1
    have h2 : longest.lenOf x = 0#8 := by
      change (Vector.replicate 256 0#8)[x.toNat] = 0#8; simp
    rw [h2] at h1
    simp at h1

theorem witness_DecodeIgnoresUncarriedBits :
    (∀ j, j ≤ (1#4).toNat → (0xFFFD#16).getLsbD j = (0x0001#16).getLsbD j) ∧
    (1#4).toNat + 1 ≤ walked.params.decQDepth - walked.decQ.length :=
  ⟨fun j hj => by
    have : j = 0 ∨ j = 1 := by simp at hj; omega
    rcases this with rfl | rfl <;> decide, by decide +kernel⟩

theorem witness_PrefixFreeTablesMatchOnce :
    CodesPrefixFree walked ∧ walked.err = none ∧ 1 ≤ [true].length ∧
    (∃ t, exec (.decode 0#4 1#16) walked = .next t) ∧ InMatch walked [true] 0x62#8 ∧ hasCode walked 0x62#8 ∧
    walked.codeword 0x62#8 <+: [true, false] :=
  ⟨walked_free, rfl, by decide, ⟨_, exec_next _ _⟩, inMatch_iff_codeword.mpr (by decide +kernel), walked_has _ (.inr rfl),
    by decide +kernel⟩

/-- The codeword "0" of 'a', fed from an empty candidate. -/
theorem witness_TheShorterCodewordWins :
    walked.candLen = 0#8 ∧ hasCode walked 0x61#8 ∧
    (∀ b, hasCode walked b → walked.codeword b <+: walked.codeword 0x61#8 → b = 0x61#8) ∧
    ∃ t, DigitsTakeEffect (walked.codeword 0x61#8 ++ []) walked t := by
  have hc : hasCode walked 0x61#8 := walked_has _ (.inl rfl)
  have hp : ∀ b, hasCode walked b → walked.codeword b <+: walked.codeword 0x61#8 → b = 0x61#8 :=
    fun b hb h => walked_free b _ hb hc h
  exact ⟨rfl, hc, hp, _, by rw [List.append_nil]; exact feed_codeword rfl hc hp⟩

theorem witness_DecodingReadsBackTheSymbols :
    walked.err = none ∧ CandidateFits walked ∧ walked.candLen = 0#8 ∧ CodesPrefixFree walked ∧
    (∀ b ∈ [0x61#8, 0x62#8], hasCode walked b) ∧
    walked.decQ.length + [0x61#8, 0x62#8].length + 16 ≤ walked.params.decQDepth :=
  ⟨rfl, walked_invariant.candidate, rfl, walked_free, fun b hb => walked_has b (by simpa using hb),
    by decide +kernel⟩

/-- A text that fills the greatest total of a block with one-bit counts, and the standard block. -/
theorem witness_RoundTripRestoresTheInput :
    ([0x7A#8].length ≤ 2 ^ least.params.freqW - 1 ∧ least.encQ = [] ∧ least.decQ = [] ∧
      255 * [0x7A#8].length ≤ least.params.encQDepth) ∧
    ([0x61#8, 0x62#8].length ≤ 2 ^ State.reset.params.freqW - 1 ∧ State.reset.encQ = [] ∧
      State.reset.decQ = [] ∧ 255 * [0x61#8, 0x62#8].length ≤ State.reset.params.encQDepth ∧
      [0x61#8, 0x62#8].length + 16 ≤ State.reset.params.decQDepth) := by decide +kernel

/-- An empty candidate; the longest one in both modes. -/
theorem witness_DecendEndsTheStream :
    State.reset.err = none ∧ State.reset.candLen = 0#8 ∧
    longest.err = none ∧ longest.candLen ≠ 0#8 ∧ longest.laxEnd = false ∧
    ({ longest with laxEnd := true } : State).err = none ∧
    ({ longest with laxEnd := true } : State).candLen ≠ 0#8 ∧
    ({ longest with laxEnd := true } : State).laxEnd = true := by decide +kernel

theorem witness_LoadsWriteOneEntry : walked.err = none := rfl

theorem witness_RdchunkAnswersTheChunk : least.rspQ.length < least.params.rspQDepth := by decide +kernel

/-- The shortest and the longest codeword. -/
theorem witness_LdcodeLoadsTheCodeword :
    State.reset.err = none ∧ 1 ≤ [true].length ∧ [true].length ≤ 255 ∧
    (List.replicate 255 true).length ≤ 255 := by decide +kernel

theorem witness_RdcodeReadsTheCodeword :
    ∃ s : State, s.rspQ.length + 17 = s.params.rspQDepth ∧ (s.codeword 0x78#8).length = 255 :=
  ⟨State.setLen { State.reset with params := { Params.standard with rspQDepth := 17 } } 0x78#8 255#8,
    rfl, by decide +kernel⟩

theorem witness_NopAndWrcfgComplete : State.reset.err = none := rfl

theorem witness_RdregAnswersTheRegister :
    least.rspQ.length < least.params.rspQDepth ∧ least.params.legal ∧ 13 ≤ (13#4).toNat ∧
    13 ≤ (15#4).toNat := by decide +kernel

end Sys2Proof.Tests
end

/-! ### Steps, seen by an invariant

A step is a reset, an act outside the block's own state, a rejected word or one command. `step_keeps`
packages that once: an invariant is kept by every step when each of the four keeps it. -/

namespace Sys2Proof.Machine

/-- A word that decodes is the one word of its command (R195). -/
theorem encode_of_decode {w : Word} {i : Instr} (h : decode w = .instr i) : encode i = w := by
  cases decode_instr_cases h with
  | nop admitted => exact encode_of_rowNop admitted
  | clear admitted => exact encode_of_rowClear admitted
  | build admitted => exact encode_of_rowBuild admitted
  | walk admitted => exact encode_of_rowWalk admitted
  | decend admitted => exact encode_of_rowDecend admitted
  | wrcfg admitted => exact encode_of_rowWrcfg admitted
  | rdreg admitted => exact encode_of_rowRdreg admitted
  | count admitted => exact encode_of_rowCount admitted
  | encode admitted => exact encode_of_rowEncode admitted
  | decode admitted => exact encode_of_rowDecode admitted
  | ldlen admitted => exact encode_of_rowLdlen admitted
  | ldchunk admitted => exact encode_of_rowLdchunk admitted
  | rdlen admitted => exact encode_of_rowRdlen admitted
  | rdchunk admitted => exact encode_of_rowRdchunk admitted
  | rdfreq admitted => exact encode_of_rowRdfreq admitted
  | rdnode admitted => exact encode_of_rowRdnode admitted

@[simp] theorem State.raise_inReset (s : State) (code : ErrCode) (info : BitVec 4) (w : Word) :
    (s.raise code info w).inReset = s.inReset := by
  unfold State.raise; split <;> rfl

/-- `t` is `s` but for the word that holds, the reset flag and the host's side, and the host may have
popped items. -/
structure OutsideOnly (s t : State) : Prop where
  eq : t = { s with
    encQ := t.encQ, decQ := t.decQ, rspQ := t.rspQ, held := t.held, inReset := t.inReset
    cmdIn := t.cmdIn, hostActs := t.hostActs
    encOut := t.encOut, decOut := t.decOut, rspOut := t.rspOut }
  enc : t.encQ.length ≤ s.encQ.length
  dec : t.decQ.length ≤ s.decQ.length
  rsp : t.rspQ.length ≤ s.rspQ.length

theorem OutsideOnly.refl (s : State) : OutsideOnly s s :=
  ⟨rfl, Nat.le_refl _, Nat.le_refl _, Nat.le_refl _⟩

theorem popEnc_outsideOnly (s : State) : OutsideOnly s s.popEnc := by
  unfold State.popEnc
  split
  · exact .refl s
  · next hq => exact ⟨rfl, by simp [hq], Nat.le_refl _, Nat.le_refl _⟩

theorem popDec_outsideOnly (s : State) : OutsideOnly s s.popDec := by
  unfold State.popDec
  split
  · exact .refl s
  · next hq => exact ⟨rfl, Nat.le_refl _, by simp [hq], Nat.le_refl _⟩

theorem popRsp_outsideOnly (s : State) : OutsideOnly s s.popRsp := by
  unfold State.popRsp
  split
  · exact .refl s
  · next hq => exact ⟨rfl, Nat.le_refl _, Nat.le_refl _, by simp [hq]⟩

/-- A turn of the host's is a reset or stays outside the block's own state. -/
theorem hostTurn_cases (s : State) (act : HostAct) :
    act = .assertReset ∧ s.hostTurn act = s.applyReset ∨ OutsideOnly s (s.hostTurn act) := by
  cases act with
  | assertReset => exact .inl ⟨rfl, rfl⟩
  | blockTurn => exact .inr (.refl s)
  | popEnc => exact .inr (popEnc_outsideOnly s)
  | popDec => exact .inr (popDec_outsideOnly s)
  | popRsp => exact .inr (popRsp_outsideOnly s)

/-- A property of the block's own state that a reset, a rejected word and every command keep is kept by
every step. -/
theorem step_keeps {P : State → Prop} {s t : State} (h : step s = .next t)
    (outside : ∀ u v, OutsideOnly u v → P u → P v)
    (reset : ∀ acts, s.hostActs = .assertReset :: acts → P s → P (State.resetWith s.params))
    (illegal : ∀ u w r, decode w = .reject r → P u → P (u.raise .illegal 0#4 w))
    (command : ∀ i w u v, RunsNext s w → decode w = .instr i → Effect i u v → P u → P v)
    (hs : P s) : P t := by
  have keep : ∀ held inReset cmdIn acts,
      P { s with held := held, inReset := inReset, cmdIn := cmdIn, hostActs := acts } :=
    fun _ _ _ _ => outside s _ ⟨rfl, Nat.le_refl _, Nat.le_refl _, Nat.le_refl _⟩ hs
  cases step_effect h with
  | host act acts hacts _ ht =>
    subst ht
    rcases hostTurn_cases { s with hostActs := acts } act with ⟨rfl, ht⟩ | ht
    · rw [ht]
      exact outside (State.resetWith s.params) _
        ⟨rfl, Nat.le_refl _, Nat.le_refl _, Nat.le_refl _⟩ (reset acts hacts hs)
    · exact outside _ _ ht (keep s.held s.inReset s.cmdIn acts)
  | leavesReset acts _ _ ht => exact ht ▸ keep s.held false s.cmdIn acts
  | idle acts _ _ ht => exact ht ▸ keep s.held s.inReset s.cmdIn acts
  | command held ws acts w i out decoded taken effect =>
    have runs : RunsNext s w := ⟨out, taken.imp (·.1) fun ⟨hn, _, hc⟩ => ⟨hn, ws, hc⟩⟩
    exact command i w _ t runs decoded effect (keep held s.inReset ws acts)
  | reject held ws acts w r _ decoded _ ht =>
    exact ht ▸ illegal _ w r decoded (keep held s.inReset ws acts)

/-! ### Counts and tree (R95 to R97) -/

/-- The counts, the node memory, the tree's registers, the phase and the parameters are the same. -/
structure SameCountsAndTree (s t : State) : Prop where
  params : t.params = s.params
  freq : t.freq = s.freq
  total : t.total = s.total
  ndist : t.ndist = s.ndist
  node : t.node = s.node
  nnodes : t.nnodes = s.nnodes
  root : t.root = s.root
  rootValid : t.rootValid = s.rootValid
  phase : t.phase = s.phase

theorem OutsideOnly.sameCountsAndTree {s t : State} (h : OutsideOnly s t) : SameCountsAndTree s t := by
  rw [h.eq]
  exact ⟨rfl, rfl, rfl, rfl, rfl, rfl, rfl, rfl, rfl⟩

theorem raise_sameCountsAndTree (s : State) (code : ErrCode) (info : BitVec 4) (w : Word) :
    SameCountsAndTree s (s.raise code info w) := by
  constructor <;> simp

/-- What a command can do to the counts and the tree. -/
theorem Effect.countsAndTree {i : Instr} {s t : State} (h : Effect i s t) :
    SameCountsAndTree s t ∨
    (∃ b, s.phase = .count ∧ s.total ≠ s.maxCount ∧ t = s.countSymbol b) ∨
    (s.phase = .count ∧ t = s.buildTree) ∨
    (s.phase = .built ∧ t = s.writeCodes) ∨
    (i = .clear ∧ t = s.clearRun) := by
  cases h with
  | counts _ phase below => exact .inr (.inl ⟨_, phase, below, rfl⟩)
  | builds _ phase => exact .inr (.inr (.inl ⟨phase, rfl⟩))
  | walks _ phase => exact .inr (.inr (.inr (.inl ⟨phase, rfl⟩)))
  | clear => exact .inr (.inr (.inr (.inr ⟨rfl, rfl⟩)))
  | decodes _ _ digits =>
    rw [digitsTakeEffect_frame digits]
    exact .inl ⟨rfl, rfl, rfl, rfl, rfl, rfl, rfl, rfl, rfl⟩
  | decodeFails _ _ _ digits _ =>
    rw [digitsTakeEffect_frame digits]
    exact .inl ⟨rfl, rfl, rfl, rfl, rfl, rfl, rfl, rfl, rfl⟩
  | _ => exact .inl ⟨rfl, rfl, rfl, rfl, rfl, rfl, rfl, rfl, rfl⟩

/-- The invariants of R95, R96 and R97, which rest on each other. -/
structure CountsAndTreeAgree (s : State) : Prop where
  counts : CountsAgree s
  phase : PhaseAgrees s
  nodes : NodesHeld s
  tree : s.rootValid = true → TreeAgrees s

theorem Invariant.countsAndTreeAgree {s : State} (h : Invariant s) : CountsAndTreeAgree s :=
  ⟨h.counts, h.phase, h.nodes, h.tree⟩

theorem SameCountsAndTree.countsAgree {s t : State} (h : SameCountsAndTree s t) (hs : CountsAgree s) :
    CountsAgree t :=
  countsAgree_congr hs h.freq h.total h.ndist h.params

theorem SameCountsAndTree.keeps {s t : State} (h : SameCountsAndTree s t) (hs : CountsAndTreeAgree s) :
    CountsAndTreeAgree t where
  counts := h.countsAgree hs.counts
  phase := by
    obtain ⟨h1, h2, h3⟩ := hs.phase
    constructor
    · rw [h.phase, h.nnodes, h.rootValid]; exact h1
    · rw [h.phase, h.ndist, h.nnodes, h.rootValid]; exact h2
    · rw [h.phase, h.ndist, h.nnodes, h.rootValid]; exact h3
  nodes := by
    obtain ⟨h1, h2, h3⟩ := hs.nodes
    constructor
    · rw [h.node, h.nnodes]; exact h1
    · rw [h.rootValid, h.nnodes]; exact h2
    · rw [h.root, h.nnodes]; exact h3
  tree hv := treeAgrees_congr (hs.tree (h.rootValid ▸ hv)) h.freq h.total h.ndist h.node h.root

/-- Without nodes and in phase COUNT only the counts matter. -/
theorem countsAndTreeAgree_of_counting {s : State} (hc : CountsAgree s) (phase : s.phase = .count)
    (node : s.node = []) (nnodes : s.nnodes = 0#10) (root : s.root = 0#9)
    (rootValid : s.rootValid = false) : CountsAndTreeAgree s where
  counts := hc
  phase := ⟨fun _ => ⟨nnodes, rootValid⟩, fun h => absurd phase h, fun h => absurd phase h⟩
  nodes := ⟨by simp [node, nnodes], by simp [nnodes, rootValid], by simp [nnodes, root]⟩
  tree hv := by rw [rootValid] at hv; cases hv

theorem countsAgree_resetWith (p : Params) : CountsAgree (State.resetWith p) :=
  countsAgree_of_zero rfl rfl rfl

theorem countsAgree_clearRun (s : State) : CountsAgree s.clearRun := countsAgree_of_zero rfl rfl rfl

theorem countsAndTreeAgree_resetWith (p : Params) : CountsAndTreeAgree (State.resetWith p) :=
  countsAndTreeAgree_of_counting (countsAgree_resetWith p) rfl rfl rfl rfl rfl

theorem countsAndTreeAgree_clearRun (s : State) : CountsAndTreeAgree s.clearRun :=
  countsAndTreeAgree_of_counting (countsAgree_clearRun s) rfl rfl rfl rfl rfl

theorem countsAgree_buildTree {s : State} (h : CountsAgree s) : CountsAgree s.buildTree :=
  countsAgree_congr h rfl rfl rfl rfl

theorem ndist_eq_zero_iff {s : State} (h : CountsAgree s) : s.ndist = 0#9 ↔ s.present = [] := by
  rw [← List.length_eq_zero_iff, ← h.ndist_eq, ← BitVec.toNat_inj]; simp

theorem countsAndTreeAgree_countSymbol {s : State} (h : CountsAndTreeAgree s) (phase : s.phase = .count)
    (below : s.total ≠ s.maxCount) (b : Byte) : CountsAndTreeAgree (s.countSymbol b) := by
  obtain ⟨nnodes, rootValid⟩ := h.phase.counting phase
  have node : s.node = [] := by simpa [nnodes] using h.nodes.count_eq
  have root : s.root = 0#9 := BitVec.eq_of_toNat_eq (by simpa [nnodes] using h.nodes.root_eq)
  exact countsAndTreeAgree_of_counting (countsAgree_countSymbol h.counts below b)
    phase node nnodes root rootValid

/-- BUILD establishes the invariants of its phase from the counts alone. -/
theorem countsAndTreeAgree_buildTree {s : State} (h : CountsAgree s) :
    CountsAndTreeAgree s.buildTree := by
  have hz : s.buildTree.ndist = 0#9 ↔ s.present = [] := (ndist_eq_zero_iff h :)
  have hphase : s.buildTree.phase ≠ .count := Phase.noConfusion
  by_cases hp : s.present = []
  · have hb := buildTree_none hp
    have nnodes : s.buildTree.nnodes = 0#10 := by rw [hb]
    have rootValid : s.buildTree.rootValid = false := by rw [hb]
    exact
      { counts := countsAgree_buildTree h
        phase := ⟨fun hc => absurd hc hphase, fun _ hn => absurd (hz.mpr hp) hn,
          fun _ _ => ⟨nnodes, rootValid⟩⟩
        nodes := by rw [hb]; exact ⟨rfl, by simp, rfl⟩
        tree := fun hv => by rw [rootValid] at hv; cases hv }
  · have hpos := present_pos hp
    have rootValid := buildTree_rootValid_true hp
    have hle := present_length_le s
    have nnodes := buildTree_nnodes_toNat hp
    have length : s.buildTree.node.length = s.buildTree.nnodes.toNat := by
      rw [nnodes, buildTree_length hp]
    have hd : s.buildTree.ndist.toNat = s.present.length := h.ndist_eq
    exact
      { counts := countsAgree_buildTree h
        phase := ⟨fun hc => absurd hc hphase, fun _ _ => ⟨by rw [nnodes, hd], rootValid⟩,
          fun _ hn => absurd (hz.mp hn) hp⟩
        nodes := by
          refine ⟨length, iff_of_true rootValid fun e => ?_, ?_⟩
          · rw [e] at nnodes
            simp at nnodes
            omega
          · rw [buildTree_root, BitVec.toNat_ofNat, length, Nat.mod_eq_of_lt (by omega)]
        tree := fun _ => treeAgrees_buildTree hp h }

/-- WALK moves from phase BUILT to phase CODED, whose invariants are the same. -/
theorem countsAndTreeAgree_writeCodes {s : State} (h : CountsAndTreeAgree s) (phase : s.phase = .built) :
    CountsAndTreeAgree s.writeCodes where
  counts := countsAgree_congr h.counts rfl rfl rfl rfl
  phase :=
    have hne : s.phase ≠ .count := by rw [phase]; exact Phase.noConfusion
    ⟨Phase.noConfusion, fun _ => h.phase.built hne, fun _ => h.phase.builtEmpty hne⟩
  nodes := ⟨h.nodes.count_eq, h.nodes.valid_iff, h.nodes.root_eq⟩
  tree hv := treeAgrees_congr (h.tree hv) rfl rfl rfl rfl rfl

theorem Effect.keeps_countsAgree {i : Instr} {s t : State} (h : Effect i s t) (hs : CountsAgree s) :
    CountsAgree t := by
  rcases h.countsAndTree with same | ⟨b, -, below, rfl⟩ | ⟨-, rfl⟩ | ⟨-, rfl⟩ | ⟨-, rfl⟩
  · exact same.countsAgree hs
  · exact countsAgree_countSymbol hs below b
  · exact countsAgree_buildTree hs
  · exact countsAgree_congr hs rfl rfl rfl rfl
  · exact countsAgree_clearRun s

theorem Effect.keeps_countsAndTreeAgree {i : Instr} {s t : State} (h : Effect i s t)
    (hs : CountsAndTreeAgree s) : CountsAndTreeAgree t := by
  rcases h.countsAndTree with same | ⟨b, phase, below, rfl⟩ | ⟨-, rfl⟩ | ⟨phase, rfl⟩ | ⟨-, rfl⟩
  · exact same.keeps hs
  · exact countsAndTreeAgree_countSymbol hs phase below b
  · exact countsAndTreeAgree_buildTree hs.counts
  · exact countsAndTreeAgree_writeCodes hs phase
  · exact countsAndTreeAgree_clearRun s

theorem step_keeps_countsAndTreeAgree {s t : State} (h : step s = .next t) (hs : CountsAndTreeAgree s) :
    CountsAndTreeAgree t :=
  step_keeps h
    (outside := fun _ _ h => h.sameCountsAndTree.keeps)
    (reset := fun _ _ _ => countsAndTreeAgree_resetWith _)
    (illegal := fun u w _ _ => (raise_sameCountsAndTree u .illegal 0#4 w).keeps)
    (command := fun _ _ _ _ _ _ effect => effect.keeps_countsAndTreeAgree) hs

/-- Settles O14: COUNT keeps the sums together below the greatest total, CLEAR and reset zero them, and
nothing else writes them. -/
theorem stepKeepsCountsAgree : Obligations.StepKeepsCountsAgree := fun _ _ hs h =>
  step_keeps h
    (outside := fun _ _ h => h.sameCountsAndTree.countsAgree)
    (reset := fun _ _ _ => countsAgree_resetWith _)
    (illegal := fun u w _ _ => (raise_sameCountsAndTree u .illegal 0#4 w).countsAgree)
    (command := fun _ _ _ _ _ _ effect => effect.keeps_countsAgree) hs

/-! ### The candidate (R99) -/

theorem candidateFits_of_same {s t : State} (h : CandidateFits s) (cand : t.cand = s.cand)
    (candLen : t.candLen = s.candLen) : CandidateFits t :=
  ⟨by rw [candLen]; exact h.len_le, by rw [candLen, cand]; exact h.zero_above⟩

theorem candidateFits_of_empty {s : State} (cand : s.cand = 0#255) (candLen : s.candLen = 0#8) :
    CandidateFits s :=
  ⟨by simp [candLen], by simp [cand]⟩

/-- A digit that joins a candidate of less than 254 digits. -/
theorem candidateFits_extendCandidate {s : State} (h : CandidateFits s) (d : Bool)
    (short : (s.candidate ++ [d]).length ≠ 255) : CandidateFits (s.extendCandidate d) := by
  obtain ⟨len_le, zero_above⟩ := h
  rw [List.length_append, candidate_length, List.length_singleton] at short
  have hlen : (s.extendCandidate d).candLen.toNat = s.candLen.toNat + 1 := by
    change (s.candLen + 1#8).toNat = _
    rw [BitVec.toNat_add, BitVec.toNat_ofNat]; omega
  refine ⟨by omega, fun j hj => ?_⟩
  change (setDigit s.cand s.candLen.toNat d).getLsbD j = false
  by_cases hw : j < 255
  · rw [setDigit_getLsbD _ _ _ _ hw, if_neg (by omega)]
    exact zero_above j (by omega)
  · exact BitVec.getLsbD_of_ge _ _ (by omega)

theorem candidateFits_digits {ds : Digits} {s t : State} (h : DigitsTakeEffect ds s t)
    (hs : CandidateFits s) : CandidateFits t :=
  digitsTakeEffect_induct h hs
    (emit := fun _ _ _ => candidateFits_of_empty rfl rfl)
    (extend := fun _ d hu short => candidateFits_extendCandidate hu d short)

theorem Effect.keeps_candidateFits {i : Instr} {s t : State} (h : Effect i s t) (hs : CandidateFits s) :
    CandidateFits t := by
  cases h with
  | clear => exact candidateFits_of_empty rfl rfl
  | drops => exact candidateFits_of_empty rfl rfl
  | decodes _ _ digits => exact candidateFits_digits digits hs
  | decodeFails _ _ _ digits _ => exact candidateFits_of_same (candidateFits_digits digits hs) rfl rfl
  | _ => exact candidateFits_of_same hs rfl rfl

/-- Settles O15: a digit joins only a candidate of less than 254 digits, and writes the bit at
CANDLEN. -/
theorem stepKeepsCandidateFits : Obligations.StepKeepsCandidateFits := fun _ _ hs h =>
  step_keeps h
    (outside := fun _ _ h hu => candidateFits_of_same hu (by rw [h.eq]) (by rw [h.eq]))
    (reset := fun _ _ _ => candidateFits_of_empty rfl rfl)
    (illegal := fun _ _ _ _ hu => candidateFits_of_same hu (by simp) (by simp))
    (command := fun _ _ _ _ _ _ effect => effect.keeps_candidateFits) hs

/-! ### The queues (R86) -/

theorem queuesFit_of_le {s t : State} (h : QueuesFit s) (params : t.params = s.params)
    (enc : t.encQ.length ≤ s.encQ.length) (dec : t.decQ.length ≤ s.decQ.length)
    (rsp : t.rspQ.length ≤ s.rspQ.length) : QueuesFit t := by
  obtain ⟨h1, h2, h3⟩ := h
  constructor <;> rw [params] <;> omega

theorem queuesFit_resetWith (p : Params) : QueuesFit (State.resetWith p) :=
  ⟨Nat.zero_le _, Nat.zero_le _, Nat.zero_le _⟩

/-- Digits that a DECODE had the room for push at most one byte each. -/
theorem queuesFit_digits {ds : Digits} {s t : State} (h : DigitsTakeEffect ds s t) (hs : QueuesFit s)
    (space : ds.length ≤ s.params.decQDepth - s.decQ.length) : QueuesFit t := by
  obtain ⟨out, ho, hl⟩ := digitsTakeEffect_pushes h
  obtain ⟨enc, dec, rsp⟩ := hs
  have hdec : t.decQ.length ≤ s.params.decQDepth := by rw [ho, List.length_append]; omega
  rw [digitsTakeEffect_frame h]
  exact ⟨enc, hdec, rsp⟩

/-- A command pushes only what its queue has room for (R150). -/
theorem Effect.keeps_queuesFit {i : Instr} {s t : State} (h : Effect i s t) (hs : QueuesFit s) :
    QueuesFit t := by
  cases h with
  | reads _ space => exact ⟨hs.enc, hs.dec, by simpa using space⟩
  | @encodes b _ _ _ space =>
    refine ⟨?_, hs.dec, hs.rsp⟩
    have := hs.enc
    change (s.encQ ++ s.codeword b).length ≤ s.params.encQDepth
    rw [List.length_append, codeword_length]; omega
  | decodes _ space digits => exact queuesFit_digits digits hs (by rw [digitsOf_length]; exact space)
  | decodeFails _ space _ digits _ =>
    have hu := queuesFit_digits digits hs (by rw [List.length_take, digitsOf_length]; omega)
    exact ⟨hu.enc, hu.dec, hu.rsp⟩
  | _ => exact ⟨hs.enc, hs.dec, hs.rsp⟩

/-- Settles O16: every push is made by a command that had the space for it. -/
theorem stepKeepsQueuesFit : Obligations.StepKeepsQueuesFit := fun _ _ hs h =>
  step_keeps h
    (outside := fun _ _ h hu => queuesFit_of_le hu (by rw [h.eq]) h.enc h.dec h.rsp)
    (reset := fun _ _ _ => queuesFit_resetWith _)
    (illegal := fun _ _ _ _ hu => queuesFit_of_le hu (by simp) (by simp) (by simp) (by simp))
    (command := fun _ _ _ _ _ _ effect => effect.keeps_queuesFit) hs

/-! ### The error record (R451) -/

theorem errorRecordAgrees_of_same {s t : State} (h : ErrorRecordAgrees s) (err : t.err = s.err)
    (errCmd : t.errCmd = s.errCmd) (errInfo : t.errInfo = s.errInfo) : ErrorRecordAgrees t := by
  obtain ⟨h1, h2, h3⟩ := h
  exact ⟨by rw [err, errCmd, errInfo]; exact h1, by rw [err, errCmd]; exact h2,
    by rw [err, errInfo]; exact h3⟩

theorem errorRecordAgrees_of_clear {s : State} (err : s.err = none) (errCmd : s.errCmd = 0#32)
    (errInfo : s.errInfo = 0#4) : ErrorRecordAgrees s :=
  ⟨fun _ => ⟨errCmd, errInfo⟩, by simp [err], by simp [err]⟩

/-- A new record agrees when its word may raise its code and its index is a DECODE's or 0. -/
theorem errorRecordAgrees_of_raised {s : State} {code : ErrCode} (err : s.err = some code)
    (word : raisedBy s.errCmd code)
    (info : code ≠ .noMatch → code ≠ .ambiguous → s.errInfo = 0#4) : ErrorRecordAgrees s := by
  have same : ∀ c, s.err = some c → code = c := fun c hc => Option.some.inj (err.symm.trans hc)
  exact ⟨by simp [err], fun c hc => same c hc ▸ word, fun c hc => same c hc ▸ info⟩

theorem errorRecordAgrees_raise_illegal {s : State} (h : ErrorRecordAgrees s) {w : Word} {r : Reject}
    (rejected : decode w = .reject r) : ErrorRecordAgrees (s.raise .illegal 0#4 w) := by
  by_cases err : s.err = none
  · rw [raise_of_none err]
    exact errorRecordAgrees_of_raised rfl ⟨r, rejected⟩ fun _ _ => rfl
  · rwa [raise_of_some err]

/-- Each code is raised by the commands that R451 names for it. -/
theorem Raises.raisedBy {i : Instr} {s : State} {code : ErrCode} (h : Raises i s code) {w : Word}
    (decoded : decode w = .instr i) : raisedBy w code := by
  cases h with
  | countSequence => exact .inl ⟨_, decoded⟩
  | countOverflow => exact ⟨_, decoded⟩
  | buildSequence => exact .inr (.inl decoded)
  | walkSequence => exact .inr (.inr decoded)
  | noCode => exact ⟨_, decoded⟩
  | truncated => exact decoded

theorem feedDigit_failed_raisedBy {s : State} {d : Bool} {code : ErrCode}
    (h : s.feedDigit d = .failed code) {w : Word} {cnt : BitVec 4} {data : BitVec 16}
    (decoded : decode w = .instr (.decode cnt data)) : raisedBy w code := by
  rcases feedDigit_failed_code h with rfl | rfl
  · exact ⟨cnt, data, decoded⟩
  · exact ⟨cnt, data, decoded⟩

theorem Effect.keeps_errorRecordAgrees {i : Instr} {s t : State} (h : Effect i s t) {w : Word}
    (decoded : decode w = .instr i) (hs : ErrorRecordAgrees s) : ErrorRecordAgrees t := by
  have hw := encode_of_decode decoded
  cases h with
  | clear => exact errorRecordAgrees_of_clear rfl rfl rfl
  | raises _ why => exact errorRecordAgrees_of_raised rfl (hw ▸ why.raisedBy decoded) fun _ _ => rfl
  | decodes _ _ digits =>
    rw [digitsTakeEffect_frame digits]
    exact errorRecordAgrees_of_same hs rfl rfl rfl
  | decodeFails _ _ _ _ fails =>
    refine errorRecordAgrees_of_raised rfl (hw ▸ feedDigit_failed_raisedBy fails decoded) fun hn ha => ?_
    exact ((feedDigit_failed_code fails).elim hn ha).elim
  | _ => exact errorRecordAgrees_of_same hs rfl rfl rfl

theorem step_keeps_errorRecordAgrees {s t : State} (h : step s = .next t) (hs : ErrorRecordAgrees s) :
    ErrorRecordAgrees t :=
  step_keeps h
    (outside := fun _ _ h hu => errorRecordAgrees_of_same hu (by rw [h.eq])
      (by rw [h.eq]) (by rw [h.eq]))
    (reset := fun _ _ _ => errorRecordAgrees_of_clear rfl rfl rfl)
    (illegal := fun _ _ _ rejected hu => errorRecordAgrees_raise_illegal hu rejected)
    (command := fun _ _ _ _ _ decoded effect => effect.keeps_errorRecordAgrees decoded) hs

/-! ### Parameters and reset (R20, R500) -/

theorem step_params {s t : State} (h : step s = .next t) : t.params = s.params :=
  step_keeps (P := fun u => u.params = s.params) h
    (outside := fun _ _ h hu => (congrArg State.params h.eq).trans hu)
    (reset := fun _ _ _ => rfl)
    (illegal := fun u w _ _ hu => (State.raise_params u .illegal 0#4 w).trans hu)
    (command := fun _ _ _ _ _ _ effect hu => effect.outside.1.trans hu) rfl

theorem resetAgrees_of_out {s : State} (h : s.inReset = false) : ResetAgrees s := fun hr => by
  rw [h] at hr; cases hr

/-- The host's pops of empty queues transfer nothing (R152). -/
theorem hostTurn_of_empty {s : State} (enc : s.encQ = []) (dec : s.decQ = []) (rsp : s.rspQ = [])
    {act : HostAct} (ne : act ≠ .assertReset) : s.hostTurn act = s := by
  cases act with
  | blockTurn => rfl
  | popEnc => simp [State.hostTurn, State.popEnc, enc]
  | popDec => simp [State.hostTurn, State.popDec, dec]
  | popRsp => simp [State.hostTurn, State.popRsp, rsp]
  | assertReset => exact absurd rfl ne

theorem hostTurn_inReset (s : State) {act : HostAct} (ne : act ≠ .assertReset) :
    (s.hostTurn act).inReset = s.inReset := by
  cases act with
  | blockTurn => rfl
  | popEnc => change s.popEnc.inReset = _; unfold State.popEnc; split <;> rfl
  | popDec => change s.popDec.inReset = _; unfold State.popDec; split <;> rfl
  | popRsp => change s.popRsp.inReset = _; unfold State.popRsp; split <;> rfl
  | assertReset => exact absurd rfl ne

/-- In reset the queues are empty, so a turn of the host's is another reset or nothing. -/
theorem resetAgrees_hostTurn {s : State} (h : ResetAgrees s) (act : HostAct) :
    ResetAgrees (s.hostTurn act) := by
  by_cases ne : act = .assertReset
  · subst ne
    exact fun _ => rfl
  · intro hr
    have hs := h ((hostTurn_inReset s ne).symm.trans hr)
    rw [hostTurn_of_empty (by rw [hs]; rfl) (by rw [hs]; rfl) (by rw [hs]; rfl) ne]
    exact hs

theorem step_keeps_resetAgrees {s t : State} (h : step s = .next t) (hs : ResetAgrees s) :
    ResetAgrees t := by
  cases step_effect h with
  | host act acts _ _ ht =>
    rw [ht]
    refine resetAgrees_hostTurn (fun hr => ?_) act
    exact congrArg (fun u : State => { u with hostActs := acts }) (hs hr)
  | leavesReset acts _ _ ht => exact resetAgrees_of_out (ht ▸ rfl)
  | idle acts _ out ht => exact resetAgrees_of_out (ht ▸ out)
  | command _ _ _ _ _ out _ _ effect =>
    obtain ⟨-, inReset, -⟩ := effect.outside
    exact resetAgrees_of_out (inReset.trans out)
  | reject _ _ _ _ _ out _ _ ht => exact resetAgrees_of_out (by rw [ht, State.raise_inReset]; exact out)

/-! ### The code table (R98) -/

/-- The code-table invariants speak of phase CODED alone. -/
theorem tableAgrees_of_phase {s : State} (h : s.phase ≠ .coded) : TableAgrees s :=
  ⟨fun hp => absurd hp h, fun hp => absurd hp h, fun hp => absurd hp h⟩

theorem tableAgrees_resetWith (p : Params) : TableAgrees (State.resetWith p) :=
  tableAgrees_of_phase Phase.noConfusion

/-- The code-table invariants read LEN, CODE, PHASE, FREQ and NDIST alone. -/
theorem tableAgrees_congr {s t : State} (h : TableAgrees s) (len : t.len = s.len) (code : t.code = s.code)
    (phase : t.phase = s.phase) (freq : t.freq = s.freq) (ndist : t.ndist = s.ndist) :
    TableAgrees t := by
  have hlen := lenOf_congr len
  have hword := codeword_congr len code
  have hcode : ∀ b, hasCode t b ↔ hasCode s b := fun b => by unfold hasCode; rw [hlen]
  obtain ⟨h1, h2, h3⟩ := h
  refine ⟨fun hp b => ?_, fun hp a b => ?_, fun hp b => ?_⟩ <;> rw [phase] at hp
  · rw [hcode, freqOf_congr freq]; exact h1 hp b
  · rw [hcode, hcode, hword, hword]; exact h2 hp a b
  · rw [hcode, hlen, ndist]; exact h3 hp b

/-- WALK writes a code table that meets R98: the paths of the tree, or nothing where no symbol is
present (R302). -/
theorem tableAgrees_writeCodes {s : State} (h : CountsAndTreeAgree s) (phase : s.phase = .built) :
    TableAgrees s.writeCodes := by
  have hfreq : ∀ b, s.writeCodes.freqOf b = s.freqOf b := fun _ => rfl
  cases hv : s.rootValid with
  | true =>
    have tree := h.tree hv
    refine ⟨fun _ b => ?_, fun _ => writeCodes_prefixFree tree hv, fun _ b hb => ?_⟩
    · rw [writeCodes_hasCode_iff_present tree hv, mem_present, hfreq]
    · obtain ⟨p, hp⟩ := (writeCodes_hasCode tree hv).mp hb
      rw [treeCodes_length tree hv hp, show s.writeCodes.ndist.toNat = _ from h.counts.ndist_eq]
      exact treeCodes_lengths tree hv hp
  | false =>
    have none_coded : ∀ b, ¬ hasCode s.writeCodes b := fun b hb => hb (writeCodes_empty hv b).1
    have ndist : s.ndist = 0#9 := by
      by_contra hn
      have := (h.phase.built (by simp [phase]) hn).2
      rw [hv] at this
      cases this
    have none_present : ∀ b, s.freqOf b = 0 := fun b => by
      by_contra hb
      have := mem_present.mpr hb
      rw [(ndist_eq_zero_iff h.counts).mp ndist] at this
      cases this
    exact ⟨fun _ b => iff_of_false (none_coded b) (by simp [hfreq, none_present]),
      fun _ a _ ha => absurd ha (none_coded a), fun _ b hb => absurd hb (none_coded b)⟩

/-- LDLEN and LDCHUNK apart, the table is written by WALK and outside phase CODED alone. -/
theorem Effect.keeps_tableAgrees {i : Instr} {s t : State} (h : Effect i s t)
    (noLdlen : ∀ b n, i ≠ .ldlen b n) (noLdchunk : ∀ b k d, i ≠ .ldchunk b k d)
    (core : CountsAndTreeAgree s) (hs : TableAgrees s) : TableAgrees t := by
  cases h with
  | clear => exact tableAgrees_of_phase Phase.noConfusion
  | counts _ phase _ => exact tableAgrees_of_phase (by simp [phase])
  | builds => exact tableAgrees_of_phase Phase.noConfusion
  | walks _ phase => exact tableAgrees_writeCodes core phase
  | loadsLen => exact absurd rfl (noLdlen _ _)
  | loadsChunk => exact absurd rfl (noLdchunk _ _ _)
  | decodes _ _ digits =>
    rw [digitsTakeEffect_frame digits]
    exact tableAgrees_congr hs rfl rfl rfl rfl rfl
  | decodeFails _ _ _ digits _ =>
    rw [digitsTakeEffect_frame digits]
    exact tableAgrees_congr hs rfl rfl rfl rfl rfl
  | _ => exact tableAgrees_congr hs rfl rfl rfl rfl rfl

theorem OutsideOnly.tableAgrees {s t : State} (h : OutsideOnly s t) (hs : TableAgrees s) :
    TableAgrees t :=
  tableAgrees_congr hs (by rw [h.eq]) (by rw [h.eq])
    h.sameCountsAndTree.phase h.sameCountsAndTree.freq h.sameCountsAndTree.ndist

theorem raise_tableAgrees {s : State} (hs : TableAgrees s) (code : ErrCode) (info : BitVec 4)
    (w : Word) : TableAgrees (s.raise code info w) :=
  tableAgrees_congr hs (by simp) (by simp) (by simp) (by simp) (by simp)

/-- Settles O19: WALK establishes the code-table invariants from the tree invariants, which every step
keeps beside them. -/
theorem stepKeepsTableAgrees : Obligations.StepKeepsTableAgrees := by
  intro s t inv table h noLoad
  refine (step_keeps (P := fun u => CountsAndTreeAgree u ∧ TableAgrees u) h ?outside ?reset ?illegal
    ?command ⟨inv.countsAndTreeAgree, table⟩).2
  case outside => exact fun u v h ⟨hc, ht⟩ => ⟨h.sameCountsAndTree.keeps hc, h.tableAgrees ht⟩
  case reset => exact fun _ _ _ => ⟨countsAndTreeAgree_resetWith _, tableAgrees_resetWith _⟩
  case illegal =>
    exact fun u w _ _ ⟨hc, ht⟩ =>
      ⟨(raise_sameCountsAndTree u .illegal 0#4 w).keeps hc, raise_tableAgrees ht _ _ _⟩
  case command =>
    rintro i w u v runs decoded effect ⟨hc, ht⟩
    obtain ⟨noLdlen, noLdchunk⟩ := noLoad w runs
    refine ⟨effect.keeps_countsAndTreeAgree hc, effect.keeps_tableAgrees ?_ ?_ hc ht⟩
    · rintro b n rfl; exact noLdlen b n decoded
    · rintro b k d rfl; exact noLdchunk b k d decoded

/-! ### All of the invariants together -/

/-- Settles O18, part by part: the counts, phase, nodes and tree together, since each rests on the
others, and the rest one by one. -/
theorem stepKeepsTheInvariant : Obligations.StepKeepsTheInvariant := fun s t hs h =>
  have core := step_keeps_countsAndTreeAgree h hs.countsAndTreeAgree
  { legal := step_params h ▸ hs.legal
    counts := core.counts
    phase := core.phase
    nodes := core.nodes
    tree := core.tree
    candidate := stepKeepsCandidateFits s t hs.candidate h
    queues := stepKeepsQueuesFit s t hs.queues h
    errors := step_keeps_errorRecordAgrees h hs.errors
    reset := step_keeps_resetAgrees h hs.reset }

theorem invariant_resetWith {p : Params} (legal : p.legal) : Invariant (State.resetWith p) :=
  have core := countsAndTreeAgree_resetWith p
  { legal := legal
    counts := core.counts
    phase := core.phase
    nodes := core.nodes
    tree := core.tree
    candidate := candidateFits_of_empty rfl rfl
    queues := queuesFit_resetWith p
    errors := errorRecordAgrees_of_clear rfl rfl rfl
    reset := resetAgrees_of_out rfl }

/-- Settles O13: after reset there are no counts, no tree, no candidate, no item and no error, and the
code-table invariants do not speak of phase COUNT. -/
theorem resetMeetsTheInvariant : Obligations.ResetMeetsTheInvariant :=
  have standard : Params.standard.legal := by decide
  ⟨fun p legal => ⟨invariant_resetWith legal, tableAgrees_resetWith p⟩,
    invariant_resetWith standard, tableAgrees_resetWith _⟩

/-! ### Until CLEAR (R80, R306) -/

/-- Out of phase COUNT, with the counts and the tree of `s`. -/
structure KeepsBuilt (s u : State) : Prop where
  phase : u.phase ≠ .count
  same : u.freq = s.freq ∧ u.total = s.total ∧ u.ndist = s.ndist ∧ u.node = s.node ∧
    u.nnodes = s.nnodes ∧ u.root = s.root ∧ u.rootValid = s.rootValid

theorem KeepsBuilt.trans_same {s u v : State} (h : KeepsBuilt s u) (hv : SameCountsAndTree u v) :
    KeepsBuilt s v := by
  obtain ⟨phase, same⟩ := h
  refine ⟨by rwa [hv.phase], ?_⟩
  rw [hv.freq, hv.total, hv.ndist, hv.node, hv.nnodes, hv.root, hv.rootValid]
  exact same

/-- Once BUILD has run, no command but CLEAR changes the counts or the tree. -/
theorem Effect.keepsBuilt {i : Instr} {s u v : State} (h : Effect i u v) (hu : KeepsBuilt s u) :
    KeepsBuilt s v ∨ i = .clear := by
  rcases h.countsAndTree with same | ⟨b, phase, -⟩ | ⟨phase, -⟩ | ⟨-, rfl⟩ | ⟨rfl, -⟩
  · exact .inl (hu.trans_same same)
  · exact absurd phase hu.phase
  · exact absurd phase hu.phase
  · exact .inl ⟨Phase.noConfusion, hu.same⟩
  · exact .inr rfl

/-- Settles O26: COUNT and BUILD raise SEQUENCE outside phase COUNT, and only CLEAR and reset go back
to it. -/
theorem countsAndTreeStayUntilClear : Obligations.CountsAndTreeStayUntilClear := by
  intro s t phase h
  have start : KeepsBuilt s s := ⟨phase, rfl, rfl, rfl, rfl, rfl, rfl, rfl⟩
  refine (step_keeps (P := fun u => KeepsBuilt s u ∨ (∃ acts, s.hostActs = .assertReset :: acts) ∨
    RunsNext s (encode .clear)) h ?outside ?reset ?illegal ?command (.inl start)).imp_left (·.same)
  case outside => exact fun u v h => Or.imp_left (·.trans_same h.sameCountsAndTree)
  case reset => exact fun acts hacts _ => .inr (.inl ⟨acts, hacts⟩)
  case illegal =>
    exact fun u w _ _ => Or.imp_left (·.trans_same (raise_sameCountsAndTree u .illegal 0#4 w))
  case command =>
    rintro i w u v runs decoded effect (hu | done)
    · refine (effect.keepsBuilt hu).imp_right fun hi => .inr ?_
      rw [← hi, encode_of_decode decoded]; exact runs
    · exact .inr done

/-! ### Reset and registers -/

theorem resetWith_freqOf (p : Params) (b : Byte) : (State.resetWith p).freqOf b = 0 := by
  simp [State.resetWith, State.freqOf]

theorem resetWith_lenOf (p : Params) (b : Byte) : (State.resetWith p).lenOf b = 0#8 := by
  simp [State.resetWith, State.lenOf]

theorem resetWith_codeOf (p : Params) (b : Byte) : (State.resetWith p).codeOf b = 0#256 := by
  simp [State.resetWith, State.codeOf]

theorem step_assertReset {s : State} {acts : List HostAct} (h : s.hostActs = .assertReset :: acts) :
    step s = .next (State.applyReset { s with hostActs := acts }) := by
  simp [step, h, State.hostTurn]

/-- Settles O11: the three arrays by their entries, every other piece as `applyReset` writes it. -/
theorem resetGivesTheResetValues : Obligations.ResetGivesTheResetValues := by
  intro s acts h
  refine ⟨_, step_assertReset h, fun b => ?arrays, ?rest⟩
  case arrays => exact ⟨resetWith_freqOf s.params b, resetWith_lenOf s.params b, resetWith_codeOf s.params b⟩
  case rest => and_intros <;> rfl

/-! The fields of STATUS (R57), from the low bits up. -/

theorem statusWord_phase (s : State) : s.statusWord.extractLsb' 0 2 = s.phase.bits := by
  rw [State.statusWord, BitVec.extractLsb'_append_eq_of_add_le (by decide), BitVec.extractLsb'_eq_self]

theorem statusWord_reserved (s : State) : s.statusWord.extractLsb' 2 2 = 0#2 := by
  rw [State.statusWord, BitVec.extractLsb'_append_eq_of_le (by decide),
    BitVec.extractLsb'_append_eq_of_add_le (by decide), BitVec.extractLsb'_eq_self]

theorem statusWord_err (s : State) : s.statusWord.extractLsb' 4 4 = s.errBits := by
  rw [State.statusWord, BitVec.extractLsb'_append_eq_of_le (by decide),
    BitVec.extractLsb'_append_eq_of_le (by decide),
    BitVec.extractLsb'_append_eq_of_add_le (by decide), BitVec.extractLsb'_eq_self]

theorem statusWord_rootValid (s : State) : s.statusWord.getLsbD 8 = s.rootValid := by
  simp only [State.statusWord, BitVec.getLsbD_append]
  simp

theorem statusWord_above (s : State) : s.statusWord.extractLsb' 9 23 = 0#23 := by
  rw [State.statusWord, BitVec.extractLsb'_append_eq_of_le (by decide),
    BitVec.extractLsb'_append_eq_of_le (by decide), BitVec.extractLsb'_append_eq_of_le (by decide),
    BitVec.extractLsb'_append_eq_of_le (by decide), BitVec.extractLsb'_eq_self]

theorem regWord_params {s : State} (legal : s.params.legal) : (s.regWord 1#4).toNat = s.params.freqW := by
  obtain ⟨-, le, -⟩ := legal
  change ((BitVec.ofNat 6 s.params.freqW).setWidth 32).toNat = _
  rw [BitVec.toNat_setWidth_of_le (by decide), BitVec.toNat_ofNat, Nat.mod_eq_of_lt (by omega)]

theorem regWord_root (s : State) :
    (s.regWord 9#4).toNat = if s.rootValid then s.root.toNat else 0 := by
  change s.rootWord.toNat = _
  unfold State.rootWord
  split
  · exact BitVec.toNat_setWidth_of_le (by decide)
  · rfl

theorem regWord_cfg (s : State) : s.regWord 3#4 = if s.laxEnd then 1#32 else 0#32 := by
  change (BitVec.ofBool s.laxEnd).setWidth 32 = _
  cases s.laxEnd <;> rfl

/-- The numbers 13 to 15 are reserved and read 0 (R68). -/
theorem regWord_reserved (s : State) {r : BitVec 4} (h : 13 ≤ r.toNat) : s.regWord r = 0#32 := by
  have hr : r = 13#4 ∨ r = 14#4 ∨ r = 15#4 := by bv_omega
  rcases hr with rfl | rfl | rfl <;> rfl

/-- Settles O58, register by register: each field is zero-extended to a word. -/
theorem rdregAnswersTheRegister : Obligations.RdregAnswersTheRegister := by
  intro r s space
  refine ⟨s.regWord r, exec_read_next (i := .rdreg r) rfl space, ?id, ?params, ?status, ?cfg, ?errCmd,
    ?errInfo, ?total, ?ndist, ?nnodes, ?root, ?candLen, ?encBits, ?decSyms, regWord_reserved s⟩
  case params => rintro rfl legal; exact regWord_params legal
  case status =>
    rintro rfl
    exact ⟨statusWord_rootValid s, statusWord_phase s, statusWord_err s, statusWord_reserved s,
      statusWord_above s⟩
  case cfg => rintro rfl; exact regWord_cfg s
  case root => rintro rfl; exact regWord_root s
  case errInfo | ndist | nnodes | candLen => rintro rfl; exact BitVec.toNat_setWidth_of_le (by decide)
  case id | errCmd | total | encBits | decSyms => rintro rfl; rfl

end Sys2Proof.Machine

/-! ### The host's pops (R152) -/

namespace Sys2Proof.Machine

/-- A turn of the host's own leaves what `hostTurn` answers on the state without the act. -/
theorem step_hostAct {s t : State} {act : HostAct} {acts : List HostAct} (ne : act ≠ .blockTurn)
    (h : s.hostActs = act :: acts) (turn : State.hostTurn { s with hostActs := acts } act = t) :
    step s = .next t := by
  subst turn
  cases act with
  | blockTurn => exact absurd rfl ne
  | popEnc | popDec | popRsp | assertReset => simp [step, h]

theorem popEnc_cons {s : State} {b : Bool} {rest : List Bool} (h : s.encQ = b :: rest) :
    s.popEnc = { s with encQ := rest, encOut := s.encOut ++ [b] } := by
  simp [State.popEnc, h]

theorem popDec_cons {s : State} {b : Byte} {rest : List Byte} (h : s.decQ = b :: rest) :
    s.popDec = { s with decQ := rest, decOut := s.decOut ++ [b] } := by
  simp [State.popDec, h]

theorem popRsp_cons {s : State} {v : Word} {rest : List Word} (h : s.rspQ = v :: rest) :
    s.popRsp = { s with rspQ := rest, rspOut := s.rspOut ++ [v] } := by
  simp [State.popRsp, h]

theorem popEnc_nil {s : State} (h : s.encQ = []) : s.popEnc = s := by
  simp [State.popEnc, h]

theorem popDec_nil {s : State} (h : s.decQ = []) : s.popDec = s := by
  simp [State.popDec, h]

theorem popRsp_nil {s : State} (h : s.rspQ = []) : s.popRsp = s := by
  simp [State.popRsp, h]

/-- Settles O8: each queue is popped by a turn of its own, which moves the head item if there is one. -/
theorem hostPopsTakeTheHead : Obligations.HostPopsTakeTheHead := by
  intro s acts
  refine ⟨fun b rest ha hq => ?enc, fun b rest ha hq => ?dec, fun v rest ha hq => ?rsp,
    fun ha hq => ⟨?encPort, ?encEmpty⟩, fun ha hq => ⟨?decPort, ?decEmpty⟩,
    fun ha hq => ⟨?rspPort, ?rspEmpty⟩⟩
  case enc => exact step_hostAct HostAct.noConfusion ha (popEnc_cons hq)
  case dec => exact step_hostAct HostAct.noConfusion ha (popDec_cons hq)
  case rsp => exact step_hostAct HostAct.noConfusion ha (popRsp_cons hq)
  case encEmpty => exact step_hostAct HostAct.noConfusion ha (popEnc_nil hq)
  case decEmpty => exact step_hostAct HostAct.noConfusion ha (popDec_nil hq)
  case rspEmpty => exact step_hostAct HostAct.noConfusion ha (popRsp_nil hq)
  case encPort => simp [State.encPort, hq]
  case decPort => simp [State.decPort, hq]
  case rspPort => simp [State.rspPort, hq]

/-! ### The queues' items in order (R141) -/

/-- What the host has popped from each queue, followed by what the queue holds, has at most grown at
its end. -/
structure ItemsGrow (s t : State) : Prop where
  enc : (s.encOut ++ s.encQ) <+: (t.encOut ++ t.encQ)
  dec : (s.decOut ++ s.decQ) <+: (t.decOut ++ t.decQ)
  rsp : (s.rspOut ++ s.rspQ) <+: (t.rspOut ++ t.rspQ)

theorem ItemsGrow.refl (s : State) : ItemsGrow s s :=
  ⟨List.prefix_rfl, List.prefix_rfl, List.prefix_rfl⟩

/-- Items pushed at a queue's end stand after all the items popped or held before. -/
theorem items_prefix_push {α : Type} (popped queue new : List α) :
    popped ++ queue <+: popped ++ (queue ++ new) :=
  (List.prefix_append_right_inj popped).mpr (List.prefix_append queue new)

/-- Moving a queue's head to the end of what was popped keeps the items and their order. -/
theorem items_prefix_pop {α : Type} (popped : List α) (x : α) (rest : List α) :
    popped ++ x :: rest <+: popped ++ [x] ++ rest := by
  rw [List.append_cons]

theorem popEnc_itemsGrow (s : State) : ItemsGrow s s.popEnc := by
  cases hq : s.encQ with
  | nil => rw [popEnc_nil hq]; exact .refl s
  | cons b rest =>
    rw [popEnc_cons hq]
    exact ⟨hq ▸ items_prefix_pop _ _ _, List.prefix_rfl, List.prefix_rfl⟩

theorem popDec_itemsGrow (s : State) : ItemsGrow s s.popDec := by
  cases hq : s.decQ with
  | nil => rw [popDec_nil hq]; exact .refl s
  | cons b rest =>
    rw [popDec_cons hq]
    exact ⟨List.prefix_rfl, hq ▸ items_prefix_pop _ _ _, List.prefix_rfl⟩

theorem popRsp_itemsGrow (s : State) : ItemsGrow s s.popRsp := by
  cases hq : s.rspQ with
  | nil => rw [popRsp_nil hq]; exact .refl s
  | cons v rest =>
    rw [popRsp_cons hq]
    exact ⟨List.prefix_rfl, List.prefix_rfl, hq ▸ items_prefix_pop _ _ _⟩

theorem hostTurn_itemsGrow (s : State) {act : HostAct} (ne : act ≠ .assertReset) :
    ItemsGrow s (s.hostTurn act) := by
  cases act with
  | blockTurn => exact .refl s
  | popEnc => exact popEnc_itemsGrow s
  | popDec => exact popDec_itemsGrow s
  | popRsp => exact popRsp_itemsGrow s
  | assertReset => exact absurd rfl ne

theorem digitsTakeEffect_itemsGrow {ds : Digits} {s t : State} (h : DigitsTakeEffect ds s t) :
    ItemsGrow s t := by
  obtain ⟨out, ho, -⟩ := digitsTakeEffect_pushes h
  rw [digitsTakeEffect_frame h, ho]
  exact ⟨List.prefix_rfl, items_prefix_push _ _ _, List.prefix_rfl⟩

/-- Commands push at a queue's end and pop nothing. -/
theorem Effect.itemsGrow {i : Instr} {s t : State} (h : Effect i s t) : ItemsGrow s t := by
  cases h with
  | reads => exact ⟨List.prefix_rfl, List.prefix_rfl, items_prefix_push _ _ _⟩
  | encodes => exact ⟨items_prefix_push _ _ _, List.prefix_rfl, List.prefix_rfl⟩
  | decodes _ _ digits => exact digitsTakeEffect_itemsGrow digits
  | decodeFails _ _ _ digits _ =>
    obtain ⟨enc, dec, rsp⟩ := digitsTakeEffect_itemsGrow digits
    exact ⟨enc, dec, rsp⟩
  | _ => exact ⟨List.prefix_rfl, List.prefix_rfl, List.prefix_rfl⟩

/-- Settles O10: a pop moves the head item, a push is at the end, and only a reset empties a queue. -/
theorem queuesAreFirstInFirstOut : Obligations.QueuesAreFirstInFirstOut := by
  intro s t noReset h
  cases step_effect h with
  | host act acts hacts _ ht =>
    have ne : act ≠ .assertReset := fun e => noReset acts (e ▸ hacts)
    obtain ⟨enc, dec, rsp⟩ := hostTurn_itemsGrow { s with hostActs := acts } ne
    subst ht
    exact ⟨enc, dec, rsp⟩
  | leavesReset _ _ _ ht =>
    subst ht
    exact ⟨List.prefix_rfl, List.prefix_rfl, List.prefix_rfl⟩
  | idle _ _ _ ht =>
    subst ht
    exact ⟨List.prefix_rfl, List.prefix_rfl, List.prefix_rfl⟩
  | command _ _ _ _ _ _ _ _ effect =>
    obtain ⟨enc, dec, rsp⟩ := effect.itemsGrow
    exact ⟨enc, dec, rsp⟩
  | reject _ _ _ _ _ _ _ _ ht => simp [ht]

/-! ### What each command writes (R135) -/

/-- Settles O20, effect by effect: each effect writes only the parts that the table names for its
command. -/
theorem onlyTheNamedCommandsWrite : Obligations.OnlyTheNamedCommandsWrite := by
  intro i s t h
  have effect := exec_effect h
  have outside := effect.outside
  cases effect with
  | reads read _ => simp [read]
  | decodes _ _ digits => rw [digitsTakeEffect_frame digits]; simp
  | decodeFails _ _ _ digits _ => rw [digitsTakeEffect_frame digits]; simp
  | _ => simp

/-! ### Holds (R150, R151) -/

/-- The commands that raise an error without a digit of DECODE need no queue space. -/
theorem Raises.need_eq_zero {i : Instr} {s : State} {code : ErrCode} (h : Raises i s code) :
    need i s = 0 := by
  cases h with
  | noCode code => simp [need, code]
  | _ => rfl

theorem need_of_isRead {i : Instr} (h : isRead i = true) (s : State) : need i s = 1 := by
  cases i with
  | rdreg | rdlen | rdchunk | rdfreq | rdnode => rfl
  | _ => cases h

theorem room_of_isRead {i : Instr} (h : isRead i = true) (s : State) :
    room i s = s.params.rspQDepth - s.rspQ.length := by
  cases i with
  | rdreg | rdlen | rdchunk | rdfreq | rdnode => rfl
  | _ => cases h

/-- A command is discarded, holds because its need exceeds the room, or starts with the room it needs
and leaves what holds alone. -/
theorem Effect.hold_cases {i : Instr} {s t : State} (h : Effect i s t) :
    (s.err ≠ none ∧ isMutating i = true ∧ t = s) ∨
    ((s.err = none ∨ isMutating i = false) ∧ room i s < need i s ∧
      t = { s with held := some (encode i) }) ∨
    (need i s ≤ room i s ∧ t.held = s.held) := by
  cases h with
  | discarded err mutating => exact .inl ⟨err, mutating, rfl⟩
  | holds run full => exact .inr (.inl ⟨run, full, rfl⟩)
  | reads read space =>
    refine .inr (.inr ⟨?_, rfl⟩)
    rw [need_of_isRead read, room_of_isRead read]
    omega
  | raises _ why => exact .inr (.inr ⟨by rw [why.need_eq_zero]; exact Nat.zero_le _, rfl⟩)
  | encodes _ _ space => exact .inr (.inr ⟨space, rfl⟩)
  | decodes _ space digits => exact .inr (.inr ⟨space, by rw [digitsTakeEffect_frame digits]⟩)
  | decodeFails _ space _ digits _ =>
    exact .inr (.inr ⟨space, by rw [digitsTakeEffect_frame digits]⟩)
  | _ => exact .inr (.inr ⟨Nat.le_refl 0, rfl⟩)

/-- A command that lacks queue space and is not discarded holds. -/
theorem exec_of_room_lt {i : Instr} {s : State} (run : s.err = none ∨ isMutating i = false)
    (full : room i s < need i s) : exec i s = .next { s with held := some (encode i) } := by
  rcases (exec_effect (exec_next i s)).hold_cases with ⟨err, mutating, -⟩ | ⟨-, -, ht⟩ | ⟨space, -⟩
  · rcases run with none | other
    · exact absurd none err
    · rw [mutating] at other; cases other
  · rw [exec_next, ht]
  · exact absurd full (Nat.not_lt.mpr space)

/-- With the queue space it needs, a command leaves what holds alone. -/
theorem exec_held_of_need_le {i : Instr} {s t : State} (h : exec i s = .next t)
    (space : need i s ≤ room i s) : t.held = s.held := by
  rcases (exec_effect h).hold_cases with ⟨-, -, rfl⟩ | ⟨-, full, -⟩ | ⟨-, held⟩
  · rfl
  · exact absurd space (Nat.not_le.mpr full)
  · exact held

/-- Settles O28: of the three things a command can do about space, only the hold writes the held
word. -/
theorem commandsHoldForQueueSpace : Obligations.CommandsHoldForQueueSpace := by
  intro i s
  refine ⟨exec_of_room_lt, fun space t h => exec_held_of_need_le h space, fun err mutating t h => ?_⟩
  rcases (exec_effect h).hold_cases with ⟨-, -, rfl⟩ | ⟨none | other, -, -⟩ | ⟨-, held⟩
  · rfl
  · exact absurd none err
  · rw [mutating] at other; cases other
  · exact held

/-- A legal block's queues are as deep as the longest codeword, the most digits of a DECODE and one
answer (R20). -/
theorem need_le_capacity {s : State} (legal : s.params.legal) (i : Instr) : need i s ≤ capacity i s := by
  obtain ⟨-, -, enc, dec, rsp⟩ := legal
  cases i with
  | encode b =>
    have : (s.lenOf b).toNat < 256 := (s.lenOf b).isLt
    change (s.lenOf b).toNat ≤ s.params.encQDepth
    omega
  | decode cnt data =>
    have : cnt.toNat < 16 := cnt.isLt
    change cnt.toNat + 1 ≤ s.params.decQDepth
    omega
  | rdreg | rdlen | rdchunk | rdfreq | rdnode => exact rsp
  | _ => exact Nat.le_refl 0

theorem room_eq_capacity {s : State} (enc : s.encQ = []) (dec : s.decQ = []) (rsp : s.rspQ = [])
    (i : Instr) : room i s = capacity i s := by
  cases i with
  | encode => simp [room, capacity, enc]
  | decode => simp [room, capacity, dec]
  | rdreg | rdlen | rdchunk | rdfreq | rdnode => simp [room, capacity, rsp]
  | _ => rfl

/-- Settles O30: the need is within the capacity, which is the room when the queues are empty. -/
theorem everyNeedFitsAnEmptyQueue : Obligations.EveryNeedFitsAnEmptyQueue := by
  intro i s legal
  refine ⟨need_le_capacity legal i, fun enc dec rsp idle => ⟨perform i s, exec_next i s, ?_⟩⟩
  have space : need i s ≤ room i s := by
    rw [room_eq_capacity enc dec rsp]
    exact need_le_capacity legal i
  rw [exec_held_of_need_le (exec_next i s) space, idle]

/-! ### Commands repeated (R138) -/

/-- An action that leaves the same done twice as done once, and leaves the error record alone, does so
behind the halt filter too. -/
theorem unlessHalted_twice {s : State} {act : State → State} (err : (act s).err = s.err)
    (twice : act (act s) = act s) : (s.unlessHalted act).unlessHalted act = s.unlessHalted act := by
  by_cases running : s.err = none
  · rw [unlessHalted_of_none running, unlessHalted_of_none (err.trans running), twice]
  · rw [unlessHalted_of_some running, unlessHalted_of_some running]

theorem perform_wrcfg_twice (s : State) (x : Bool) :
    perform (.wrcfg x) (perform (.wrcfg x) s) = perform (.wrcfg x) s :=
  unlessHalted_twice (act := fun s => { s with laxEnd := x }) rfl rfl

theorem setLen_setLen (s : State) (b : Byte) (m n : BitVec 8) :
    (s.setLen b m).setLen b n = s.setLen b n := by
  simp [State.setLen]

theorem perform_ldlen_twice (s : State) (b : Byte) (n : BitVec 8) :
    perform (.ldlen b n) (perform (.ldlen b n) s) = perform (.ldlen b n) s :=
  unlessHalted_twice (act := fun s => s.setLen b n) rfl (setLen_setLen s b n n)

theorem setCode_setCode (s : State) (b : Byte) (u v : BitVec 256) :
    (s.setCode b u).setCode b v = s.setCode b v := by
  simp [State.setCode]

theorem setChunk_setChunk (v : BitVec 256) (k : BitVec 4) (data : BitVec 16) :
    setChunk (setChunk v k data) k data = setChunk v k data := by
  apply BitVec.eq_of_getLsbD_eq
  intro j hj
  simp only [setChunk_getLsbD _ _ _ _ hj]
  split <;> rfl

theorem perform_ldchunk_twice (s : State) (b : Byte) (k : BitVec 4) (data : BitVec 16) :
    perform (.ldchunk b k data) (perform (.ldchunk b k data) s) = perform (.ldchunk b k data) s :=
  unlessHalted_twice (act := fun s => s.setCode b (setChunk (s.codeOf b) k data)) rfl <| by
    rw [setCode_setCode, setCode_codeOf, if_pos rfl, setChunk_setChunk]

/-- Settles O27: no read sees another's answer, and each load writes the value it wrote before. -/
theorem readsAndLoadsAreIdempotent : Obligations.ReadsAndLoadsAreIdempotent := by
  refine ⟨fun i s read space => ⟨readValue i s, ?once, ?twice⟩, ?loads⟩
  case once => exact performAll_reads [i] (by simp [read]) s (by simp; omega)
  case twice => exact performAll_reads [i, i] (by simp [read]) s space
  case loads =>
    rintro i s (rfl | ⟨x, rfl⟩ | ⟨b, n, rfl⟩ | ⟨b, k, data, rfl⟩)
    · rfl
    · exact perform_wrcfg_twice s x
    · exact perform_ldlen_twice s b n
    · exact perform_ldchunk_twice s b k data

end Sys2Proof.Machine

/-! ### Words and commands (R195 to R198) -/

namespace Sys2Proof.Machine

/-- Settles O1, command by command. -/
theorem decodeInvertsEncode : Obligations.DecodeInvertsEncode := fun i =>
  match i with
  | .nop => Laws.RoundTrip.nop
  | .clear => Laws.RoundTrip.clear
  | .build => Laws.RoundTrip.build
  | .walk => Laws.RoundTrip.walk
  | .decend => Laws.RoundTrip.decend
  | .wrcfg lax => Laws.RoundTrip.wrcfg lax
  | .rdreg reg => Laws.RoundTrip.rdreg reg
  | .count sym => Laws.RoundTrip.count sym
  | .encode sym => Laws.RoundTrip.encode sym
  | .decode cnt data => Laws.RoundTrip.decode cnt data
  | .ldlen sym len => Laws.RoundTrip.ldlen sym len
  | .ldchunk sym chunk data => Laws.RoundTrip.ldchunk sym chunk data
  | .rdlen sym => Laws.RoundTrip.rdlen sym
  | .rdchunk sym chunk => Laws.RoundTrip.rdchunk sym chunk
  | .rdfreq sym => Laws.RoundTrip.rdfreq sym
  | .rdnode idx ws => Laws.RoundTrip.rdnode idx ws

/-- Settles O2: the bits that a row's mask does not cover are the fields of its command. -/
theorem encodeInvertsDecode : Obligations.EncodeInvertsDecode := fun _ _ => encode_of_decode

/-- Settles O5: sixteen closed words, each evaluated. -/
theorem wordsOfEveryRowDecode : Obligations.WordsOfEveryRowDecode := by
  unfold Obligations.WordsOfEveryRowDecode
  decide

/-- Every mask covers the `op` bits, and the `func` bits where `op` is 0. -/
theorem encodingTable_covers : ∀ row ∈ encodingTable,
    fieldOp row.mask = 0xF#4 ∧ (fieldOp row.pattern = 0#4 → fieldFunc row.mask = 0xF#4) := by
  decide

/-- No row stands for a reserved opcode or a reserved system function. -/
theorem encodingTable_defined : ∀ row ∈ encodingTable,
    (fieldOp row.pattern).toNat < 10 ∧
      (fieldOp row.pattern = 0#4 → (fieldFunc row.pattern).toNat < 7) := by
  decide

/-- Four bits that a mask covers are the match's in every word that matches. -/
theorem extractLsb'_of_masked_eq {w mask pattern : Word} {i : Nat} (h : w &&& mask = pattern)
    (covers : mask.extractLsb' i 4 = 0xF#4) : w.extractLsb' i 4 = pattern.extractLsb' i 4 := by
  rw [← h, BitVec.extractLsb'_and, covers]
  exact (BitVec.and_allOnes (x := w.extractLsb' i 4)).symm

/-- A word that a row of the table admits has the row's `op`, and its `func` where `op` is 0. -/
theorem admits_fields {row : EncodingRow} {w : Word} (mem : row ∈ encodingTable)
    (admitted : row.admits w = true) : fieldOp w = fieldOp row.pattern ∧
      (fieldOp w = 0#4 → fieldFunc w = fieldFunc row.pattern) := by
  simp only [EncodingRow.admits, beq_iff_eq] at admitted
  obtain ⟨coversOp, coversFunc⟩ := encodingTable_covers row mem
  have op : fieldOp w = fieldOp row.pattern := extractLsb'_of_masked_eq admitted coversOp
  exact ⟨op, fun zero => extractLsb'_of_masked_eq admitted (coversFunc (op ▸ zero))⟩

/-- A word with the `op` and `func` of a row of the table decodes as that row says. -/
theorem decode_of_fields {row : EncodingRow} {w : Word} (mem : row ∈ encodingTable)
    (op : fieldOp w = fieldOp row.pattern)
    (func : fieldOp w = 0#4 → fieldFunc w = fieldFunc row.pattern) :
    ∃ i, decode w = row.decodeAs w i := by
  simp only [encodingTable, List.cons_append, List.nil_append, List.mem_cons, List.not_mem_nil,
    or_false] at mem
  rcases mem with rfl | rfl | rfl | rfl | rfl | rfl | rfl | rfl | rfl | rfl | rfl | rfl | rfl |
    rfl | rfl | rfl
  -- the seven rows with `op` 0, then those that `op` alone names
  iterate 7
    · unfold decode decodeSystem
      rw [op, func op]
      exact ⟨_, rfl⟩
  iterate 9
    · unfold decode
      rw [op]
      exact ⟨_, rfl⟩

/-- A word decodes exactly when a row of the table admits it. -/
theorem decode_instr_iff {w : Word} :
    (∃ i, decode w = .instr i) ↔ ∃ row ∈ encodingTable, row.admits w = true := by
  constructor
  · rintro ⟨i, h⟩
    exact (decode_instr_cases h).row
  · rintro ⟨row, mem, admitted⟩
    obtain ⟨op, func⟩ := admits_fields mem admitted
    obtain ⟨i, h⟩ := decode_of_fields mem op func
    exact ⟨i, by rw [h, EncodingRow.decodeAs, if_pos admitted]⟩

/-- At most one row of the table matches a word. -/
theorem admitting_rows_le_one (w : Word) : (encodingTable.filter (·.admits w)).length ≤ 1 := by
  have pairwise := encodingTable_disjoint.filter (·.admits w)
  have admitted : ∀ row ∈ encodingTable.filter (·.admits w), row.admits w = true := fun _ mem =>
    (List.mem_filter.mp mem).2
  generalize encodingTable.filter (·.admits w) = rows at pairwise admitted
  rcases rows with _ | ⟨a, _ | ⟨b, rest⟩⟩
  · exact Nat.zero_le 1
  · exact Nat.le_refl 1
  · have differ := List.rel_of_pairwise_cons pairwise (List.mem_cons_self (a := b) (l := rest))
    exact (admits_disjoint differ (admitted a (by simp)) (admitted b (by simp))).elim

theorem admitting_rows_eq_one_iff {w : Word} :
    (encodingTable.filter (·.admits w)).length = 1 ↔ ∃ i, decode w = .instr i := by
  have pos : 0 < (encodingTable.filter (·.admits w)).length ↔
      ∃ row ∈ encodingTable, row.admits w = true := by
    simp [List.length_pos_iff_exists_mem]
  rw [decode_instr_iff, ← pos]
  have := admitting_rows_le_one w
  omega

/-- Settles O3: at most one row admits a word, and a word decodes when there is one. -/
theorem legalWordsAreThoseThatDecode : Obligations.LegalWordsAreThoseThatDecode := by
  refine ⟨fun w => ⟨admitting_rows_eq_one_iff.symm, admitting_rows_le_one w, ?legal⟩,
    encodingTable_covers, ?differ⟩
  case legal => rw [legalWord, beq_iff_eq, admitting_rows_eq_one_iff]
  case differ => decide

/-! ### Words that are no command (R196 to R198) -/

/-- The row whose `op` and `func` a word has decodes it only if the word's reserved bits are 0. -/
theorem decode_ne_of_reservedBit {row : EncodingRow} {w : Word} (mem : row ∈ encodingTable)
    (op : fieldOp w = fieldOp row.pattern)
    (func : fieldOp w = 0#4 → fieldFunc w = fieldFunc row.pattern) {j : Nat}
    (one : w.getLsbD j = true) (covered : row.mask.getLsbD j = true)
    (zero : row.pattern.getLsbD j = false) (i : Instr) : decode w ≠ .instr i := by
  intro h
  obtain ⟨i', decodes⟩ := decode_of_fields mem op func
  have bit := admits_bit (decodeAs_instr (decodes.symm.trans h)).1 j
  simp [one, covered, zero] at bit

/-- A word with a reserved opcode or a reserved system function is no command. -/
theorem decode_ne_of_reservedCode {w : Word}
    (reserved : 10 ≤ (fieldOp w).toNat ∨ fieldOp w = 0#4 ∧ 7 ≤ (fieldFunc w).toNat) (i : Instr) :
    decode w ≠ .instr i := by
  intro h
  obtain ⟨row, mem, admitted⟩ := (decode_instr_cases h).row
  obtain ⟨op, func⟩ := admits_fields mem admitted
  obtain ⟨opDefined, funcDefined⟩ := encodingTable_defined row mem
  rcases reserved with reservedOp | ⟨zero, reservedFunc⟩
  · rw [op] at reservedOp
    omega
  · have := funcDefined (op ▸ zero)
    rw [func zero] at reservedFunc
    omega

theorem execute_of_instr {w : Word} {i : Instr} (h : decode w = .instr i) (s : State) :
    execute w s = exec i s := by
  simp [execute, h]

theorem execute_of_reject {w : Word} {r : Reject} (h : decode w = .reject r) (s : State) :
    execute w s = .next (s.raise .illegal 0#4 w) := by
  simp [execute, h, State.raiseIllegal]

/-- Settles O4: a reserved word is no command, and running it records ILLEGAL. -/
theorem reservedWordsRaiseIllegal : Obligations.ReservedWordsRaiseIllegal := by
  intro w s running reserved
  have noCommand : ∀ i, decode w ≠ .instr i := by
    rcases reserved with op | func | ⟨row, mem, op, func, j, -, one, covered, zero⟩
    · exact decode_ne_of_reservedCode (.inl op)
    · exact decode_ne_of_reservedCode (.inr func)
    · exact decode_ne_of_reservedBit mem op func one covered zero
  refine ⟨noCommand, ?_⟩
  cases h : decode w with
  | instr i => exact absurd h (noCommand i)
  | reject r => rw [execute_of_reject h, raise_of_none running]

/-! ### The block's turn (R172, R206) -/

/-- The host gives the block the turn by listing it or by listing nothing. -/
theorem step_blockTurn {s : State} {acts : List HostAct}
    (turn : s.hostActs = [] ∧ acts = [] ∨ s.hostActs = .blockTurn :: acts) :
    step s = blockStep { s with hostActs := acts } := by
  rcases turn with ⟨unlisted, rfl⟩ | listed
  · rw [show ({ s with hostActs := [] } : State) = s by rw [← unlisted]]
    simp [step, unlisted]
  · simp [step, listed]

section

variable {s : State} {acts : List HostAct}
  (turn : s.hostActs = [] ∧ acts = [] ∨ s.hostActs = .blockTurn :: acts)

include turn

/-- In reset the turn ends the reset (R501). -/
theorem step_of_inReset (reset : s.inReset = true) :
    step s = .next { s with inReset := false, hostActs := acts } := by
  simp [step_blockTurn turn, blockStep, reset, State.leaveReset]

/-- The word that holds is tried again (R172). -/
theorem step_of_held {w : Word} (out : s.inReset = false) (held : s.held = some w) :
    step s = execute w { s with held := none, hostActs := acts } := by
  simp [step_blockTurn turn, blockStep, out, State.takeWord, held]

/-- With none held, the word offered is accepted and run (R171, R206). -/
theorem step_of_offered {w : Word} {ws : List Word} (out : s.inReset = false) (unheld : s.held = none)
    (offered : s.cmdIn = w :: ws) : step s = execute w { s with cmdIn := ws, hostActs := acts } := by
  simp [step_blockTurn turn, blockStep, out, State.takeWord, unheld, offered]

/-- With no word, the block idles (R492). -/
theorem step_of_noWord (out : s.inReset = false) (unheld : s.held = none) (empty : s.cmdIn = []) :
    step s = .next { s with hostActs := acts } := by
  simp [step_blockTurn turn, blockStep, out, State.takeWord, unheld, empty]

end

/-- Every 32 bits are a word. -/
theorem tableWord_toNat (w : Word) : tableWord 32 w.toNat = w := by
  rw [tableWord, Nat.mod_eq_of_lt w.isLt, BitVec.ofNat_toNat, BitVec.setWidth_eq]

/-- Settles O6: the block takes the word from its place and runs its command. -/
theorem stepRunsTheDecodedCommand : Obligations.StepRunsTheDecodedCommand := by
  intro s w i decoded
  refine ⟨fun out => ⟨fun ws unheld offered unlisted => ?_, fun ws acts unheld offered listed => ?_,
    fun held unlisted => ?_, fun acts held listed => ?_⟩, ?_⟩
  · rw [step_of_offered (.inl ⟨unlisted, rfl⟩) out unheld offered, execute_of_instr decoded,
      ← unlisted]
  · rw [step_of_offered (.inr listed) out unheld offered, execute_of_instr decoded]
  · rw [step_of_held (.inl ⟨unlisted, rfl⟩) out held, execute_of_instr decoded, ← unlisted]
  · rw [step_of_held (.inr listed) out held, execute_of_instr decoded]
  · rw [step_of_offered (s := s.withFetchWord 32 w.toNat) (.inr rfl) rfl rfl
      (congrArg (· :: s.cmdIn) (tableWord_toNat w)), execute_of_instr decoded]
    rfl

/-- Settles O7: the word offered is taken and rejected, and without one the turn is all that goes. -/
theorem stepRejectsOrIdles : Obligations.StepRejectsOrIdles := by
  intro s acts out unheld turn
  refine ⟨fun w ws r decoded offered => ?_, step_of_noWord turn out unheld⟩
  have rejected : step s = .next (State.raise .illegal 0#4 w { s with cmdIn := ws, hostActs := acts }) := by
    rw [step_of_offered turn out unheld offered, execute_of_reject decoded]
  rw [rejected]
  refine ⟨fun running => ?_, fun halted => ?_⟩
  · rw [raise_of_none]; exact running
  · rw [raise_of_some]; exact halted

theorem execute_next (w : Word) (s : State) : ∃ t, execute w s = .next t := by
  cases h : decode w with
  | instr i => exact ⟨_, (execute_of_instr h s).trans (exec_next i s)⟩
  | reject r => exact ⟨_, execute_of_reject h s⟩

theorem blockStep_next (s : State) : ∃ t, blockStep s = .next t := by
  unfold blockStep
  split
  · exact ⟨_, rfl⟩
  · split
    · exact ⟨_, rfl⟩
    · next w t _ => exact execute_next w t

/-- Settles O9: no turn of the block or of the host stops. -/
theorem everyStepAnswersANextState : Obligations.EveryStepAnswersANextState := by
  refine ⟨fun s => ?_, fun i s => ⟨_, exec_next i s⟩⟩
  match listed : s.hostActs with
  | [] => exact step_blockTurn (.inl ⟨listed, rfl⟩) ▸ blockStep_next _
  | act :: acts =>
    by_cases turn : act = .blockTurn
    · exact step_blockTurn (.inr (turn ▸ listed)) ▸ blockStep_next _
    · exact ⟨_, step_hostAct turn listed rfl⟩

/-! ### When a word is accepted (R172, R500, R501) -/

theorem cmdReady_iff (s : State) : s.cmdReady = true ↔ s.inReset = false ∧ s.held = none := by
  simp [State.cmdReady]

theorem hostTurn_cmdIn (s : State) (act : HostAct) : (s.hostTurn act).cmdIn = s.cmdIn := by
  cases act with
  | blockTurn | assertReset => rfl
  | popEnc => change s.popEnc.cmdIn = _; unfold State.popEnc; split <;> rfl
  | popDec => change s.popDec.cmdIn = _; unfold State.popDec; split <;> rfl
  | popRsp => change s.popRsp.cmdIn = _; unfold State.popRsp; split <;> rfl

/-- A step leaves the words offered alone, or takes the first of them when `cmd_ready` is 1. -/
theorem step_cmdIn {s t : State} (h : step s = .next t) :
    t.cmdIn = s.cmdIn ∨ s.cmdReady = true ∧ ∃ w, s.cmdIn = w :: t.cmdIn := by
  have taken : ∀ {held : Option Word} {ws : List Word} {w : Word}, s.inReset = false →
      (s.held = some w ∧ held = none ∧ ws = s.cmdIn ∨
        s.held = none ∧ held = none ∧ s.cmdIn = w :: ws) →
      t.cmdIn = ws → t.cmdIn = s.cmdIn ∨ s.cmdReady = true ∧ ∃ w, s.cmdIn = w :: t.cmdIn := by
    rintro held ws w out (⟨-, -, same⟩ | ⟨unheld, -, first⟩) left
    · exact .inl (left.trans same)
    · exact .inr ⟨(cmdReady_iff s).mpr ⟨out, unheld⟩, w, left ▸ first⟩
  cases step_effect h with
  | host act acts _ _ ht => exact .inl (ht ▸ hostTurn_cmdIn _ act)
  | leavesReset _ _ _ ht => exact .inl (ht ▸ rfl)
  | idle _ _ _ ht => exact .inl (ht ▸ rfl)
  | command held ws acts w i out _ source effect =>
    obtain ⟨-, -, cmdIn, -⟩ := effect.outside
    exact taken out source cmdIn
  | reject held ws acts w r out _ source ht =>
    exact taken out source (by rw [ht, State.raise_cmdIn])

/-- A step that leaves the block in reset found it there, or is a reset. -/
theorem inReset_of_step {s t : State} (h : step s = .next t) (reset : t.inReset = true) :
    s.inReset = true ∨ ∃ acts, s.hostActs = .assertReset :: acts := by
  cases step_effect h with
  | host act acts listed _ ht =>
    by_cases asserted : act = .assertReset
    · exact .inr ⟨acts, asserted ▸ listed⟩
    · subst ht
      exact .inl ((hostTurn_inReset { s with hostActs := acts } asserted).symm.trans reset)
  | leavesReset _ _ found _ => exact .inl found
  | idle _ _ _ ht => exact .inl (by rw [ht] at reset; exact reset)
  | command _ _ _ _ _ _ _ _ effect =>
    obtain ⟨-, same, -⟩ := effect.outside
    exact .inl (same.symm.trans reset)
  | reject _ _ _ _ _ _ _ _ ht => exact .inl (by rw [ht, State.raise_inReset] at reset; exact reset)

/-- Settles O12: the one turn that takes a word finds `cmd_ready` at 1, and the turn that ends a reset
takes none. -/
theorem wordsAreAcceptedOnlyWhenReady : Obligations.WordsAreAcceptedOnlyWhenReady :=
  ⟨cmdReady_iff, fun _ _ h changed => (step_cmdIn h).resolve_left changed,
    fun _ _ => inReset_of_step,
    fun _ _ reset turn => step_of_inReset turn reset⟩

/-! ### DECODE and the bits it does not carry (R199) -/

/-- `t` is `s` but for the word that an error records. -/
structure SameButErrCmd (s t : State) : Prop where
  eq : t = { s with errCmd := t.errCmd }
  running : s.err = none → t = s

theorem SameButErrCmd.refl (s : State) : SameButErrCmd s s := ⟨rfl, fun _ => rfl⟩

theorem raise_sameButErrCmd (s : State) (code : ErrCode) (info : BitVec 4) (w w' : Word) :
    SameButErrCmd (s.raise code info w) (s.raise code info w') := by
  by_cases running : s.err = none
  · rw [raise_of_none running, raise_of_none running]
    exact ⟨rfl, fun h => by cases h⟩
  · rw [raise_of_some running, raise_of_some running]
    exact .refl s

/-- The matcher's loop uses the command word for the error record alone. -/
theorem feedDigits_sameButErrCmd (w w' : Word) (i : Nat) (ds : Digits) (s : State) :
    SameButErrCmd (State.feedDigits w i ds s) (State.feedDigits w' i ds s) := by
  induction ds generalizing i s with
  | nil => exact .refl s
  | cons d ds ih =>
    cases fed : s.feedDigit d with
    | done u => simp only [State.feedDigits, fed]; exact ih (i + 1) u
    | failed code => simp only [State.feedDigits, fed]; exact raise_sameButErrCmd s code _ w w'

theorem exec_decode_of_space {s : State} (running : s.err = none) {cnt : BitVec 4}
    (space : cnt.toNat + 1 ≤ s.params.decQDepth - s.decQ.length) (data : BitVec 16) :
    exec (.decode cnt data) s =
      .next (State.feedDigits (encode (.decode cnt data)) 0 (digitsOf data (cnt.toNat + 1)) s) := by
  simp only [exec, execDecode, unlessHalted_of_none running]
  rw [startWhen_of_le (by exact space)]
  rfl

theorem exec_decode_of_halted {s : State} (halted : s.err ≠ none) (cnt : BitVec 4)
    (data : BitVec 16) : exec (.decode cnt data) s = .next s :=
  congrArg _ (unlessHalted_of_some halted _)

/-- Settles O46: the digits carried are the same, and the words differ in the error record alone. -/
theorem decodeIgnoresUncarriedBits : Obligations.DecodeIgnoresUncarriedBits := by
  intro cnt data data' s agree space
  by_cases running : s.err = none
  · have carried : digitsOf data (cnt.toNat + 1) = digitsOf data' (cnt.toNat + 1) :=
      digitsOf_congr fun j hj => agree j (Nat.le_of_lt_succ hj)
    have same := feedDigits_sameButErrCmd (encode (.decode cnt data)) (encode (.decode cnt data')) 0
      (digitsOf data (cnt.toNat + 1)) s
    refine ⟨_, _, exec_decode_of_space running space data, ?_, same.eq, same.running⟩
    rw [exec_decode_of_space running space, ← carried]
  · exact ⟨s, s, exec_decode_of_halted running cnt data, exec_decode_of_halted running cnt data',
      rfl, fun _ => rfl⟩

/-! ### LDCODE and RDCODE (R214, R215) -/

theorem groupsOf16_count (ds : Digits) : (groupsOf16 ds).length = (ds.length + 15) / 16 := by
  simp [groupsOf16]

/-- Digit `j` of a string is digit `j % 16` of its group `j / 16`. -/
theorem groupsOf16_digit {ds : Digits} {j : Nat} (h : j < 16 * ((ds.length + 15) / 16)) :
    ((groupsOf16 ds)[j / 16]?.getD [])[j % 16]? = ds[j]? := by
  have group : (groupsOf16 ds)[j / 16]? = some ((ds.drop (16 * (j / 16))).take 16) := by
    have : j / 16 < (ds.length + 15) / 16 := Nat.div_lt_of_lt_mul h
    simp [groupsOf16, this]
  rw [group, Option.getD_some, List.getElem?_take_of_lt (Nat.mod_lt j (by decide)),
    List.getElem?_drop, Nat.div_add_mod]

@[simp] theorem setLen_codeOf (s : State) (b : Byte) (n : BitVec 8) (a : Byte) :
    (s.setLen b n).codeOf a = s.codeOf a := rfl

@[simp] theorem setCode_lenOf (s : State) (b : Byte) (v : BitVec 256) (a : Byte) :
    (s.setCode b v).lenOf a = s.lenOf a := rfl

/-- The commands of LDCODE write the codeword's chunks and its length (R214). -/
theorem performAll_loadCode {s : State} (running : s.err = none) (b : Byte) {ds : Digits}
    (short : ds.length ≤ 255) : ∃ v : BitVec 256,
      performAll (loadCode b ds) s = (s.setCode b v).setLen b (BitVec.ofNat 8 ds.length) ∧
      ∀ j, j < 256 → v.getLsbD j =
        if j < 16 * ((ds.length + 15) / 16) then ds[j]?.getD false else (s.codeOf b).getLsbD j := by
  obtain ⟨v, chunks, bits⟩ := performAll_chunks b (groupsOf16 ds) 0 s running
    (by rw [groupsOf16_count]; omega)
  refine ⟨v, ?_, fun j hj => ?_⟩
  · rw [loadCode, performAll_append, chunks, performAll_cons, performAll_nil]
    exact perform_of_exec (exec_ldlen_next (s := s.setCode b v) running b _)
  · simp only [bits j hj, groupsOf16_count, Nat.zero_add, Nat.mul_zero, Nat.zero_le, true_and,
      Nat.sub_zero]
    split
    · next h => rw [groupsOf16_digit h]
    · rfl

/-- Settles O54: the chunks hold the codeword's digits, and the length cuts it off after the last. -/
theorem ldcodeLoadsTheCodeword : Obligations.LdcodeLoadsTheCodeword := by
  intro b c s running pos short
  obtain ⟨v, performed, bits⟩ := performAll_loadCode running b short
  have length : (BitVec.ofNat 8 c.length).toNat = c.length := by
    rw [BitVec.toNat_ofNat]
    omega
  refine ⟨_, performed, ?codeword, ?coded, fun a other => ?others, fun j above => ?above, rfl⟩
  case codeword =>
    rw [State.codeword, setLen_codeOf, setCode_codeOf, if_pos rfl, setLen_lenOf, if_pos rfl, length]
    refine ((eq_digitsOf_iff v c).mpr fun j hj => ?_).symm
    rw [bits j (by omega), if_pos (by omega)]
    simp [hj]
  case coded =>
    intro zero
    rw [setLen_lenOf, if_pos rfl] at zero
    rw [zero] at length
    exact Nat.ne_of_lt pos length
  case others => simp [other]
  case above =>
    rw [setLen_codeOf, setCode_codeOf, if_pos rfl]
    by_cases hj : j < 256
    · rw [bits j hj, if_neg (by omega)]
    · rw [BitVec.getLsbD_of_ge v j (by omega), BitVec.getLsbD_of_ge _ j (by omega)]

/-- Bit `j` of the answer to RDCHUNK is bit `j` of the chunk (R402). -/
theorem readValue_rdchunk_getLsbD (b : Byte) (k : BitVec 4) (s : State) {j : Nat} (hj : j < 16) :
    (readValue (.rdchunk b k) s).getLsbD j = (s.codeOf b).getLsbD (16 * k.toNat + j) := by
  change ((chunkOf (s.codeOf b) k).setWidth 32).getLsbD j = _
  rw [BitVec.getLsbD_setWidth, chunkOf_getLsbD _ _ _ hj]
  simp; omega

theorem isRead_of_mem_readCode {b : Byte} {i : Instr} (h : i ∈ readCode b) : isRead i = true := by
  rcases List.mem_cons.mp h with rfl | h
  · rfl
  · obtain ⟨k, -, rfl⟩ := List.mem_map.mp h
    rfl

theorem readCode_length (b : Byte) : (readCode b).length = 17 := by simp [readCode]

/-- Settles O55: RDCODE is one read of the length and one of each chunk. -/
theorem rdcodeReadsTheCodeword : Obligations.RdcodeReadsTheCodeword := by
  intro b s space
  refine ⟨(readCode b).map (readValue · s), ?performed, ?count, ?length, ?digits⟩
  case performed =>
    exact performAll_reads _ (fun _ => isRead_of_mem_readCode) s (by rw [readCode_length]; exact space)
  case count => rw [List.length_map, readCode_length]
  case length =>
    have : ((s.lenOf b).setWidth 32).toNat = (s.lenOf b).toNat := BitVec.toNat_setWidth_of_le (by decide)
    simp only [readCode, List.map_cons, List.head?_cons, codeword_length]
    exact congrArg some this
  case digits =>
    intro k j v hk hj answer within
    have chunk : readValue (.rdchunk b (BitVec.ofNat 4 k)) s = v := by
      simpa [readCode, hk] using answer
    have index : (BitVec.ofNat 4 k).toNat = k := by
      rw [BitVec.toNat_ofNat]
      omega
    rw [codeword_length] at within
    rw [State.codeword, digitsOf_getElem?, if_pos within, ← chunk, readValue_rdchunk_getLsbD _ _ _ hj,
      index]

end Sys2Proof.Machine

/-! ### Counting and its reads (R232 to R234, R240, R400) -/

namespace Sys2Proof.Machine

@[simp] theorem countSymbol_total (s : State) (b : Byte) : (s.countSymbol b).total = s.total + 1 := rfl

@[simp] theorem countSymbol_ndist (s : State) (b : Byte) :
    (s.countSymbol b).ndist = if s.freqOf b = 0 then s.ndist + 1#9 else s.ndist := rfl

theorem exec_count_overflow {s : State} (running : s.err = none) (b : Byte) (phase : s.phase = .count)
    (full : s.total = 2 ^ s.params.freqW - 1) :
    exec (.count b) s = .next (s.raise .countOverflow 0#4 (encode (.count b))) := by
  simp only [exec, execCount, unlessHalted_of_none running]
  rw [if_neg (by simp [phase]), if_pos (by exact full)]

/-- Settles O33: a run of COUNTs that stays in range is a fold of the counting effect, and the effects
of two bytes commute. -/
theorem countingIgnoresOrder : Obligations.CountingIgnoresOrder := by
  intro s xs ys perm running phase range
  have counted := performAll_count xs running phase range
  constructor
  · rw [counted, performAll_count ys running phase (perm.length_eq ▸ range)]
    exact foldl_countSymbol_perm perm s
  · intro b
    rw [counted]
    exact foldl_countSymbol_freqOf xs s b

/-- Settles O31: COUNT that starts in range has the counting effect and no other. -/
theorem countAddsOneOccurrence : Obligations.CountAddsOneOccurrence := by
  intro b s running phase below
  refine ⟨s.countSymbol b, exec_count_next running b phase below, ?own, ?others, countSymbol_total s b,
    ?first, ?later, countSymbol_frame s b⟩
  case own => rw [countSymbol_freqOf, if_pos rfl]
  case others => exact fun c ne => by rw [countSymbol_freqOf, if_neg ne]
  case first => exact fun absent => by rw [countSymbol_ndist, if_pos absent]
  case later => exact fun present => by rw [countSymbol_ndist, if_neg present]

/-- Settles O32: at the greatest total the error is raised, and in a running block it is recorded. -/
theorem countAtTheGreatestTotalOverflows : Obligations.CountAtTheGreatestTotalOverflows := by
  intro b s running phase full
  rw [exec_count_overflow running b phase full, raise_of_none running]

/-- Settles O34: both are reads, and a length of 8 bits is not cut in a word. -/
theorem rdfreqAndRdlenAnswerTheEntry : Obligations.RdfreqAndRdlenAnswerTheEntry := by
  intro b s space
  refine ⟨exec_read_next (i := .rdfreq b) rfl space, (s.lenOf b).setWidth 32,
    exec_read_next (i := .rdlen b) rfl space, ?width⟩
  case width => exact BitVec.toNat_setWidth_of_le (by decide)

end Sys2Proof.Machine

/-! ### The tree builder (R261 to R268, R280) -/

namespace Sys2Proof.Machine

theorem leafKeys_eq (leaves : List Node) : leafKeys leaves = keysFrom 0 leaves :=
  (keysFrom_eq 0 leaves).symm

/-- BUILD's node memory is the result of the merges of R262. -/
theorem buildTree_mergesTo (s : State) :
    MergesTo (leafKeys s.leafNodes) s.leafNodes s.buildTree.node := by
  rw [buildTree_node, leafKeys_eq]
  exact mergeLoop_mergesTo _ _ _ (by simp)

/-- Settles O35: the loop of BUILD follows the merges, and since a working set has one least key, the
merges leave one result. -/
theorem buildMergesTheLeastKeys : Obligations.BuildMergesTheLeastKeys := fun s running phase =>
  ⟨s.buildTree, exec_build_next running phase, buildTree_mergesTo s,
    fun _ merged => mergesTo_unique merged (buildTree_mergesTo s) (.refl _), rfl, buildTree_frame s⟩

/-- A path from the root is shorter than the number of leaves, since each of its digits passes by
another subtree, which has a leaf. -/
theorem OneTree.path_length_lt {leaves nodes : List Node} (h : OneTree leaves nodes)
    (pos : 1 ≤ leaves.length) {b : Byte} {p : Digits}
    (path : PathTo nodes (2 * leaves.length - 2) p b) : p.length < leaves.length := by
  have root_lt : 2 * leaves.length - 2 < nodes.length := by rw [h.length_eq]; omega
  have walked := (mem_walkFrom h.strict.closed (Nat.lt_succ_self _)).mpr path
  have bound := (walkFrom_depth_le h.strict _ (Nat.lt_succ_self _) root_lt).2 b p walked
  have count := h.syms.length_eq
  rw [reached, List.length_map, List.length_map] at count
  exact Nat.lt_of_succ_le (count ▸ bound)

/-- Settles O36: the merge loop ends in one tree with every leaf. -/
theorem buildMakesAStrictBinaryTree : Obligations.BuildMakesAStrictBinaryTree := by
  rintro s _ running phase rfl pos
  have some_present : s.present ≠ [] := List.ne_nil_of_length_pos pos
  have tree := buildTree_oneTree some_present
  have root := buildTree_root_toNat some_present
  have leaf_count := leafNodes_length s
  refine ⟨s.buildTree, exec_build_next running phase, buildTree_length some_present,
    buildTree_nnodes_toNat some_present, root, buildTree_rootValid_true some_present,
    leaf_count ▸ tree.leaves_eq, leaf_count ▸ tree.internal, leaf_count ▸ tree.children,
    fun b p path => ?short⟩
  case short =>
    rw [root, ← leaf_count] at path
    have shorter := tree.path_length_lt (leaf_count ▸ pos) path
    have atMost := present_length_le s
    omega

/-- Settles O37: without two keys in the working set BUILD merges nothing. -/
theorem buildOfNoneOrOneSymbol : Obligations.BuildOfNoneOrOneSymbol := fun _ running phase =>
  ⟨fun absent => (exec_build_next running phase).trans (congrArg _ (buildTree_none absent)),
    fun _ single => (exec_build_next running phase).trans (congrArg _ (buildTree_one single))⟩

/-- Settles O38: BUILD reads the leaves alone, and equal counts have equal leaves. -/
theorem buildDependsOnTheCountsAlone : Obligations.BuildDependsOnTheCountsAlone := by
  intro s s' running running' phase phase' counts
  have node : s.buildTree.node = s'.buildTree.node := by
    rw [buildTree_node, buildTree_node, leafNodes_congr (freq_ext counts)]
  refine ⟨s.buildTree, s'.buildTree, exec_build_next running phase, exec_build_next running' phase',
    node, ?nnodes, ?root, ?rootValid⟩
  case nnodes => rw [buildTree_nnodes, buildTree_nnodes, node]
  case root => rw [buildTree_root, buildTree_root, node]
  case rootValid => rw [buildTree_rootValid, buildTree_rootValid, node]

theorem nodeWord_absent {s : State} {idx : BitVec 9} (absent : s.nnodes.toNat ≤ idx.toNat) (ws : Bool) :
    s.nodeWord idx ws = 0#32 := by
  rw [State.nodeWord, if_pos absent]

theorem nodeWord_valid {s : State} {idx : BitVec 9} {n : Node} (valid : idx.toNat < s.nnodes.toNat)
    (at_ : s.node[idx.toNat]? = some n) (ws : Bool) :
    s.nodeWord idx ws = if ws then n.linkWord else n.freqWord := by
  rw [State.nodeWord, if_neg (Nat.not_le_of_lt valid), at_]

/-! The fields of a link word (R280), from the low bits up. -/

theorem linkWord_sym (n : Node) : n.linkWord.extractLsb' 0 8 = n.sym := by
  rw [Node.linkWord, BitVec.extractLsb'_append_eq_of_add_le (by decide), BitVec.extractLsb'_eq_self]

theorem linkWord_leaf (n : Node) : n.linkWord.getLsbD 8 = n.leaf := by
  simp only [Node.linkWord, BitVec.getLsbD_append]
  simp

theorem linkWord_left (n : Node) : n.linkWord.extractLsb' 9 9 = n.left := by
  rw [Node.linkWord, BitVec.extractLsb'_append_eq_of_le (by decide),
    BitVec.extractLsb'_append_eq_of_le (by decide),
    BitVec.extractLsb'_append_eq_of_add_le (by decide), BitVec.extractLsb'_eq_self]

theorem linkWord_right (n : Node) : n.linkWord.extractLsb' 18 9 = n.right := by
  rw [Node.linkWord, BitVec.extractLsb'_append_eq_of_le (by decide),
    BitVec.extractLsb'_append_eq_of_le (by decide), BitVec.extractLsb'_append_eq_of_le (by decide),
    BitVec.extractLsb'_append_eq_of_add_le (by decide), BitVec.extractLsb'_eq_self]

theorem linkWord_above (n : Node) : n.linkWord.extractLsb' 27 5 = 0#5 := by
  rw [Node.linkWord, BitVec.extractLsb'_append_eq_of_le (by decide),
    BitVec.extractLsb'_append_eq_of_le (by decide), BitVec.extractLsb'_append_eq_of_le (by decide),
    BitVec.extractLsb'_append_eq_of_le (by decide), BitVec.extractLsb'_eq_self]

/-- Settles O39: RDNODE is a read, and its word is the node's. -/
theorem rdnodeAnswersTheNode : Obligations.RdnodeAnswersTheNode := by
  intro idx ws s space
  have read : ∀ ws, exec (.rdnode idx ws) s = .next { s with rspQ := s.rspQ ++ [s.nodeWord idx ws] } :=
    fun ws => exec_read_next (i := .rdnode idx ws) rfl space
  refine ⟨fun absent => ?absent, fun n valid at_ => ⟨?freq, n.linkWord, ?link, linkWord_sym n,
    linkWord_leaf n, linkWord_left n, linkWord_right n, linkWord_above n⟩⟩
  case absent => rw [read, nodeWord_absent absent]
  case freq => rw [read, nodeWord_valid valid at_]; rfl
  case link => rw [read, nodeWord_valid valid at_]; rfl

end Sys2Proof.Machine

/-! ### The code tree walker (R300 to R304) -/

namespace Sys2Proof.Machine

/-- WALK leaves the entry of a symbol without a leaf empty (R300). -/
theorem writeCodes_of_uncoded {s : State} {b : Byte} (uncoded : ∀ p, (b, p) ∉ s.treeCodes) :
    s.writeCodes.lenOf b = 0#8 ∧ s.writeCodes.codeOf b = 0#256 := by
  have not_mem : b ∉ s.treeCodes.map Prod.fst := by simpa using uncoded
  exact ⟨writeCodes_lenOf_other not_mem, writeCodes_codeOf_other not_mem⟩

section

variable {s : State} (tree : TreeAgrees s) (valid : s.rootValid = true)

include tree valid

theorem treeCodes_codeOf {b : Byte} {p : Digits} (mem : (b, p) ∈ s.treeCodes) :
    s.writeCodes.codeOf b = BitVec.ofNat 256 (digitsToNat p) :=
  writeCodes_codeOf_own (tree.treeCodes_nodup valid) mem

/-- Below an internal root WALK gives a symbol exactly the paths that lead to it (R301). -/
theorem mem_treeCodes_iff_pathTo {n : Node} (at_ : s.node[s.root.toNat]? = some n)
    (internal : n.leaf = false) {b : Byte} {p : Digits} :
    (b, p) ∈ s.treeCodes ↔ PathTo s.node s.root.toNat p b := by
  rw [treeCodes_internal valid at_ internal]
  exact tree.mem_walk

/-- The Kraft sum of the table is that of the walk's codewords, since those are for exactly the present
symbols. -/
theorem present_kraft_eq_treeCodes_kraft :
    (s.present.map fun b => 2 ^ (255 - (s.writeCodes.lenOf b).toNat)).sum =
      (s.treeCodes.map fun bp => 2 ^ (255 - bp.2.length)).sum := by
  rw [← ((tree.treeCodes_syms valid).map _).sum_eq, List.map_map]
  refine congrArg List.sum (List.map_congr_left fun bp mem => ?_)
  rw [Function.comp_apply, treeCodes_length tree valid mem]

end

/-- An internal root has leaves below both its children, so there are two symbols at least. -/
theorem TreeAgrees.two_le_present {s : State} (tree : TreeAgrees s) {n : Node}
    (at_ : s.node[s.root.toNat]? = some n) (internal : n.leaf = false) : 2 ≤ s.present.length := by
  obtain ⟨⟨b, p⟩, mem⟩ := List.exists_mem_of_length_pos
    (Nat.lt_of_lt_of_eq tree.present_pos tree.walk_length.symm)
  have long := walk_path_pos at_ internal mem
  have short := tree.path_length tree.root_lt_maxNodes mem
  omega

/-- The Kraft sum of the table WALK writes for one symbol is 1/2 (R303, R304). -/
theorem writeCodes_kraft_of_one {s : State} (tree : TreeAgrees s) (valid : s.rootValid = true)
    (one : s.present.length = 1) :
    (s.present.map fun b => 2 ^ (255 - (s.writeCodes.lenOf b).toNat)).sum = 2 ^ 254 := by
  obtain ⟨n, at_, -⟩ := tree.root_freq
  have leaf : n.leaf = true := by
    by_contra internal
    have := tree.two_le_present at_ (eq_false_of_ne_true internal)
    omega
  rw [present_kraft_eq_treeCodes_kraft tree valid, treeCodes_leaf valid at_ leaf]
  simp

/-- The Kraft sum of the table WALK writes for two or more symbols is 1 (R304). -/
theorem writeCodes_kraft_of_two_le {s : State} (tree : TreeAgrees s) (valid : s.rootValid = true)
    (two_le : 2 ≤ s.present.length) :
    (s.present.map fun b => 2 ^ (255 - (s.writeCodes.lenOf b).toNat)).sum = 2 ^ 255 := by
  obtain ⟨n, at_, -⟩ := tree.root_freq
  have internal : n.leaf = false := by
    by_contra leaf
    rw [tree.root_leaf at_ (eq_true_of_ne_false leaf), List.length_singleton] at two_le
    omega
  rw [present_kraft_eq_treeCodes_kraft tree valid, treeCodes_internal valid at_ internal]
  refine walkFrom_kraft tree.strict maxNodes tree.root_lt_maxNodes tree.root_lt 255 fun b p mem => ?_
  have short := tree.path_length tree.root_lt_maxNodes mem
  have atMost := present_length_le s
  omega

/-- With a present symbol phase BUILT has a tree (R96, R97). -/
theorem Invariant.built_tree {s : State} (inv : Invariant s) (phase : s.phase = .built)
    (some_present : 1 ≤ s.ndist.toNat) : s.rootValid = true ∧ TreeAgrees s := by
  have valid := (inv.phase.built (by simp [phase]) fun zero => by simp [zero] at some_present).2
  exact ⟨valid, inv.tree valid⟩

/-- Settles O40: the codewords WALK writes are those of the tree's walk, and the walk from an internal
root gives the paths. -/
theorem walkWritesThePaths : Obligations.WalkWritesThePaths := by
  intro s running phase tree_of_valid
  refine ⟨s.writeCodes, exec_walk_next running phase, rfl, writeCodes_frame s, writeCodes_empty,
    fun n valid at_ leaf => ?leaf, fun n valid at_ internal => ?internal⟩
  case leaf =>
    have tree := tree_of_valid valid
    have codes := treeCodes_leaf valid at_ leaf
    have mem : (n.sym, [false]) ∈ s.treeCodes := by simp [codes]
    refine ⟨treeCodes_codeword tree valid mem, ?_, fun b ne => writeCodes_of_uncoded ?_⟩
    · rw [treeCodes_codeOf tree valid mem]; rfl
    · simp [codes, ne]
  case internal =>
    have tree := tree_of_valid valid
    have mem_iff := @mem_treeCodes_iff_pathTo s tree valid n at_ internal
    refine ⟨fun b p path => ?_, fun b unreached => ?_⟩
    · have mem := mem_iff.mpr path
      refine ⟨treeCodes_codeword tree valid mem, fun j above => ?_⟩
      rw [treeCodes_codeOf tree valid mem, getLsbD_ofNat_digitsToNat_above p j above]
    · exact writeCodes_of_uncoded fun p mem => unreached p (mem_iff.mp mem)

/-- Settles O41: (a) to (d) are the table invariants that WALK establishes, (e) is the Kraft sum of the
tree, and (f) follows from (b), since equal codewords are prefixes of each other. -/
theorem walkedTablesArePrefixFree : Obligations.WalkedTablesArePrefixFree := by
  intro s inv running phase
  obtain ⟨present_iff, prefixFree, length_le⟩ :=
    tableAgrees_writeCodes inv.countsAndTreeAgree phase
  have ndist := inv.counts.ndist_eq
  have atMost := present_length_le s
  refine ⟨s.writeCodes, exec_walk_next running phase, present_iff rfl, prefixFree rfl,
    fun b coded => ?lengths, fun two_le => ?kraft, fun one => ?kraftOfOne,
    fun a b codedA codedB same => prefixFree rfl a b codedA codedB (same ▸ List.prefix_rfl)⟩
  case lengths =>
    obtain ⟨pos, le⟩ := length_le rfl b coded
    rw [codeword_length]
    exact ⟨pos, le, by omega⟩
  case kraft =>
    obtain ⟨valid, tree⟩ := inv.built_tree phase (by omega)
    exact writeCodes_kraft_of_two_le tree valid (ndist ▸ two_le)
  case kraftOfOne =>
    obtain ⟨valid, tree⟩ := inv.built_tree phase (by omega)
    exact writeCodes_kraft_of_one tree valid (ndist ▸ one)

end Sys2Proof.Machine

/-! ### The encoder (R332 to R334) -/

namespace Sys2Proof.Machine

theorem pushCodeword_eq (s : State) (b : Byte) :
    s.pushCodeword b =
      { s with encQ := s.encQ ++ s.codeword b
               encBits := s.encBits + BitVec.ofNat 32 (s.lenOf b).toNat } := by
  rw [BitVec.ofNat_toNat]; rfl

theorem codeword_eq_nil {s : State} {b : Byte} (uncoded : s.lenOf b = 0#8) : s.codeword b = [] :=
  List.eq_nil_of_length_eq_zero (by rw [codeword_length, uncoded]; rfl)

/-- A symbol without a codeword needs no room, so its ENCODE never holds. -/
theorem exec_encode_noCode {s : State} (running : s.err = none) {b : Byte} (uncoded : s.lenOf b = 0#8) :
    exec (.encode b) s =
      .next { s with err := some .noCode, errCmd := encode (.encode b), errInfo := 0#4 } := by
  simp only [exec, execEncode, unlessHalted_of_none running]
  rw [startWhen_of_le (by simp [uncoded]), if_pos uncoded, raise_of_none running]

/-- Settles O42: with its room ENCODE pushes the codeword, the digits of CODE up to LEN. -/
theorem encodePushesTheCodeword : Obligations.EncodePushesTheCodeword := by
  intro b s running
  refine ⟨fun coded space => ⟨s.codeword b, ?pushes, codeword_length s b, ?digits⟩,
    exec_encode_noCode running⟩
  case pushes => rw [exec_encode_next running coded space, pushCodeword_eq]
  case digits => exact (inMatch_iff_codeword.mpr rfl).2

/-- Settles O43, by induction on the text: a pushed codeword leaves the table, and the room for the
codewords after it. -/
theorem encodedStreamIsTheConcatenation : Obligations.EncodedStreamIsTheConcatenation := by
  intro s text running coded space
  induction text generalizing s with
  | nil => simp
  | cons b text ih =>
    obtain ⟨coded_b, coded_text⟩ := List.forall_mem_cons.mp coded
    rw [List.flatMap_cons, List.length_append] at space
    have space_b : (s.lenOf b).toNat ≤ s.params.encQDepth - s.encQ.length := by
      rw [← codeword_length]; omega
    have space_text : (s.pushCodeword b).encQ.length + (text.flatMap s.codeword).length ≤
        s.params.encQDepth := by
      rw [pushCodeword_eq, List.length_append]; omega
    calc performAll ((b :: text).map .encode) s
        = performAll (text.map .encode) (s.pushCodeword b) := by
          rw [List.map_cons, performAll_cons,
            perform_of_exec (exec_encode_next running coded_b space_b)]
      _ = { s.pushCodeword b with
            encQ := (s.pushCodeword b).encQ ++ text.flatMap s.codeword
            encBits := (s.pushCodeword b).encBits +
              BitVec.ofNat 32 (text.map fun b => (s.lenOf b).toNat).sum } :=
          ih (s.pushCodeword b) running coded_text space_text
      _ = _ := by
          simp only [pushCodeword_eq, List.append_assoc, BitVec.add_assoc, ← BitVec.ofNat_add,
            List.flatMap_cons, List.map_cons, List.sum_cons]

/-- What ENCODE pushes and raises in a running block with room, with a codeword or without: without one
the codeword is empty. -/
theorem exec_encode_pushes {s : State} (running : s.err = none) {b : Byte}
    (space : (s.lenOf b).toNat ≤ s.params.encQDepth - s.encQ.length) :
    ∃ t, exec (.encode b) s = .next t ∧ t.encQ = s.encQ ++ s.codeword b ∧
      t.err = if s.lenOf b = 0#8 then some .noCode else none := by
  by_cases uncoded : s.lenOf b = 0#8
  · refine ⟨_, exec_encode_noCode running uncoded, ?_, (if_pos uncoded).symm⟩
    rw [codeword_eq_nil uncoded, List.append_nil]
  · exact ⟨_, exec_encode_next running uncoded space, rfl, running.trans (if_neg uncoded).symm⟩

/-- Settles O44: the codeword pushed and the error raised are read from the symbol's entry. -/
theorem encodeReadsItsOwnEntryAlone : Obligations.EncodeReadsItsOwnEntryAlone := by
  intro b s s' running running' len code space space'
  have codeword : s.codeword b = s'.codeword b := by rw [State.codeword, len, code, State.codeword]
  obtain ⟨t, next, pushed, err⟩ := exec_encode_pushes running space
  obtain ⟨t', next', pushed', err'⟩ := exec_encode_pushes running' space'
  exact ⟨t, t', s.codeword b, next, next', pushed, by rw [pushed', codeword], by rw [err, err', len]⟩

end Sys2Proof.Machine

/-! ### The decoder (R350 to R372) -/

namespace Sys2Proof.Machine

/-- A register's digits, cut around digit `k`. -/
theorem digitsOf_cut {width : Nat} (v : BitVec width) {k n : Nat} (lt : k < n) :
    digitsOf v n = (digitsOf v n).take k ++ v.getLsbD k :: (digitsOf v n).drop (k + 1) := by
  have digit : (digitsOf v n)[k]'(by rwa [digitsOf_length]) = v.getLsbD k := by simp [digitsOf]
  rw [← digit, List.getElem_cons_drop, List.take_append_drop]

/-- A digit of DECODE fails after those before it took effect: they stay, and the failure is recorded
with the digit's number (R366). -/
theorem exec_decode_of_failed {s u : State} {cnt : BitVec 4} {data : BitVec 16} {pre post : Digits}
    {d : Bool} {code : ErrCode} (running : s.err = none)
    (space : cnt.toNat + 1 ≤ s.params.decQDepth - s.decQ.length)
    (digits : digitsOf data (cnt.toNat + 1) = pre ++ d :: post) (before : DigitsTakeEffect pre s u)
    (fails : u.feedDigit d = .failed code) :
    exec (.decode cnt data) s = .next { u with
      err := some code, errCmd := encode (.decode cnt data), errInfo := BitVec.ofNat 4 pre.length } := by
  have running_u : u.err = none := by rw [digitsTakeEffect_frame before]; exact running
  rw [exec_decode_of_space running space, digits, feedDigits_of_failed before fails,
    raise_of_none running_u]

/-- The failing digit given by its number `k` among those that DECODE carries. -/
theorem exec_decode_of_failed_at {s u : State} {cnt : BitVec 4} {data : BitVec 16} {k : Nat}
    {code : ErrCode} (running : s.err = none)
    (space : cnt.toNat + 1 ≤ s.params.decQDepth - s.decQ.length) (carried : k ≤ cnt.toNat)
    (before : DigitsTakeEffect ((digitsOf data (cnt.toNat + 1)).take k) s u)
    (fails : u.feedDigit (data.getLsbD k) = .failed code) :
    exec (.decode cnt data) s = .next { u with
      err := some code, errCmd := encode (.decode cnt data), errInfo := BitVec.ofNat 4 k } := by
  have cut := digitsOf_cut data (Nat.lt_succ_of_le carried)
  have number : ((digitsOf data (cnt.toNat + 1)).take k).length = k :=
    List.length_take_of_le (by rw [digitsOf_length]; omega)
  rw [exec_decode_of_failed running space cut before fails, number]

/-- Settles O45: a digit with two matches fails with AMBIGUOUS and one of 255 digits without a match
fails with NO_MATCH; either all digits take effect or one of them fails. -/
theorem decodeFeedsDigitByDigit : Obligations.DecodeFeedsDigitByDigit := by
  intro cnt data s running space
  refine ⟨fun t digits => exec_decode_of_takeEffect running space digits,
    fun k u carried before => ⟨?ambiguous, ?noMatch⟩, ?either⟩
  case ambiguous =>
    rintro ⟨a, b, ne, match_a, match_b⟩
    exact exec_decode_of_failed_at running space carried before
      (feedDigit_ambiguous ne match_a match_b)
  case noMatch =>
    exact fun unmatched long =>
      exec_decode_of_failed_at running space carried before (feedDigit_noMatch unmatched long)
  case either =>
    refine (feedDigits_cases (digitsOf data (cnt.toNat + 1)) s).imp_right ?_
    rintro ⟨pre, d, post, u, code, digits, before, fails⟩
    refine ⟨_, exec_decode_of_failed running space digits before fails, ?_⟩
    exact (feedDigit_failed_code fails).symm.imp (congrArg some) (congrArg some)

/-! #### Tables in which no codeword begins another (R354) -/

/-- A non-empty candidate that matches is a codeword. -/
theorem hasCode_of_inMatch {s : State} {c : Digits} {b : Byte} (nonempty : 1 ≤ c.length)
    (matched : InMatch s c b) : hasCode s b := by
  intro uncoded
  have length : (s.lenOf b).toNat = c.length := matched.1
  rw [uncoded, BitVec.toNat_zero] at length
  omega

theorem codesPrefixFree_congr {s t : State} (len : t.len = s.len) (code : t.code = s.code)
    (free : CodesPrefixFree s) : CodesPrefixFree t := by
  intro a b coded_a coded_b
  rw [codeword_congr len code, codeword_congr len code]
  exact free a b (by rwa [hasCode, ← lenOf_congr len]) (by rwa [hasCode, ← lenOf_congr len])

section

variable {s : State} (free : CodesPrefixFree s)

include free

/-- Of two codewords that begin one stream, the shorter begins the longer. -/
theorem CodesPrefixFree.eq_of_prefix_stream {stream : Digits} {a b : Byte} (coded_a : hasCode s a)
    (coded_b : hasCode s b) (begins_a : s.codeword a <+: stream) (begins_b : s.codeword b <+: stream) :
    a = b := by
  rcases List.prefix_or_prefix_of_prefix begins_a begins_b with a_first | b_first
  · exact free a b coded_a coded_b a_first
  · exact (free b a coded_b coded_a b_first).symm

theorem CodesPrefixFree.eq_of_inMatch {c : Digits} {a b : Byte} (nonempty : 1 ≤ c.length)
    (match_a : InMatch s c a) (match_b : InMatch s c b) : a = b := by
  have coded_a := hasCode_of_inMatch nonempty match_a
  have coded_b := hasCode_of_inMatch nonempty match_b
  rw [inMatch_iff_codeword] at match_a match_b
  exact free.eq_of_prefix_stream (stream := c) coded_a coded_b (by rw [match_a]) (by rw [match_b])

theorem CodesPrefixFree.matches_length_le_one {c : Digits} (nonempty : 1 ≤ c.length) :
    (s.matches c).length ≤ 1 := by
  have nodup := matches_nodup s c
  have mem {x : Byte} : x ∈ s.matches c → InMatch s c x := mem_matches.mp
  match found : s.matches c with
  | [] => exact Nat.zero_le 1
  | [_] => exact Nat.le_refl 1
  | a :: b :: rest =>
    rw [found] at nodup mem
    have same : a = b := free.eq_of_inMatch nonempty (mem (by simp)) (mem (by simp))
    simp [same] at nodup

/-- No digit finds two matches. -/
theorem CodesPrefixFree.feedDigit_ne_ambiguous (d : Bool) : s.feedDigit d ≠ .failed .ambiguous := by
  intro ambiguous
  rcases feedDigit_cases s d with
    ⟨b, -, fed⟩ | ⟨-, -, fed⟩ | ⟨-, -, fed⟩ | ⟨⟨a, b, ne, match_a, match_b⟩, -⟩
  · simp [ambiguous] at fed
  · simp [ambiguous] at fed
  · simp [ambiguous] at fed
  · exact ne (free.eq_of_inMatch (by simp) match_a match_b)

/-- The digits before a failing one leave the table, so the failing one is not ambiguous either. -/
theorem CodesPrefixFree.exec_decode_ne_ambiguous (running : s.err = none) {cnt : BitVec 4}
    {data : BitVec 16} {t : State} (next : exec (.decode cnt data) s = .next t) :
    t.err ≠ some .ambiguous := by
  cases exec_effect next with
  | discarded err => exact absurd running err
  | holds => simp [running]
  | reads read => cases read
  | raises _ why => cases why
  | decodes _ _ digits => rw [digitsTakeEffect_frame digits]; simp [running]
  | @decodeFails _ _ _ u _ _ _ _ _ digits fails =>
    have frame := digitsTakeEffect_frame digits
    have free_u : CodesPrefixFree u :=
      codesPrefixFree_congr (congrArg State.len frame) (congrArg State.code frame) free
    rintro ⟨⟩
    exact free_u.feedDigit_ne_ambiguous _ fails

end

/-- Settles O47: symbols whose codewords begin one stream are equal, and so are those that match one
candidate. -/
theorem prefixFreeTablesMatchOnce : Obligations.PrefixFreeTablesMatchOnce := fun _ free =>
  ⟨fun _ nonempty => free.matches_length_le_one nonempty,
    fun running _ _ _ next => free.exec_decode_ne_ambiguous running next,
    fun _ _ _ nonempty match_a match_b => free.eq_of_inMatch nonempty match_a match_b,
    fun _ _ _ coded_a coded_b begins_a begins_b =>
      free.eq_of_prefix_stream coded_a coded_b begins_a begins_b⟩

/-! #### Codewords fed to the matcher (R350, R368) -/

/-- Settles O48: the digits of the codeword take effect in one way only, and `feed_codeword` gives it. -/
theorem theShorterCodewordWins : Obligations.TheShorterCodewordWins := by
  intro s a ds empty coded shortest t fed
  obtain ⟨u, codeword, rest⟩ := digitsTakeEffect_split fed
  rw [digitsTakeEffect_unique codeword (feed_codeword empty coded shortest)] at rest
  exact rest

/-- Settles O49: the groups of 16 digits are the stream in order, and the stream gives the text. -/
theorem decodingReadsBackTheSymbols : Obligations.DecodingReadsBackTheSymbols := by
  intro s text running fits empty free coded room
  have cand : s.cand = 0#255 := by
    refine BitVec.eq_of_getLsbD_eq fun j _ => ?_
    rw [fits.zero_above j (by simp [empty]), BitVec.getLsbD_zero]
  refine performAll_groups _ (fun g => groupsOf16_length) running ?_ ?_
  · rw [groupsOf16_flatten]
    exact feed_text text empty cand free coded
  · rw [List.length_append]
    exact room

/-! #### The end of a stream (R370) -/

/-- Settles O51: the three branches of DECEND in a running block. -/
theorem decendEndsTheStream : Obligations.DecendEndsTheStream := by
  intro s running
  simp only [exec, execDecend, unlessHalted_of_none running]
  refine ⟨fun empty => ?_, fun digits lax => ?_, fun digits strict => ?_⟩
  · rw [if_pos empty]
  · rw [if_neg digits, if_pos lax]; rfl
  · rw [if_neg digits, if_neg (by simp [strict]), raise_of_none running]

/-! #### The round trip (R372) -/

/-- A running block whose table can encode the text and decode it from the first digit on. -/
structure TableReady (text : List Byte) (t : State) : Prop where
  running : t.err = none
  cand : t.cand = 0#255
  candLen : t.candLen = 0#8
  free : CodesPrefixFree t
  coded : ∀ b ∈ text, hasCode t b

section

variable {s : State} {text : List Byte} (range : text.length ≤ 2 ^ s.params.freqW - 1)

include range

/-- CLEAR, the COUNTs of a text that the counts can hold, BUILD and WALK all take their effects (R506). -/
theorem performAll_buildTableRun :
    performAll (buildTableRun text) s =
      (text.foldl State.countSymbol s.clearRun).buildTree.writeCodes := by
  have frame := foldl_countSymbol_frame text s.clearRun
  have running : (text.foldl State.countSymbol s.clearRun).err = none := congrArg State.err frame
  have phase : (text.foldl State.countSymbol s.clearRun).phase = .count := congrArg State.phase frame
  have counted : performAll (countAll text) s.clearRun = text.foldl State.countSymbol s.clearRun :=
    performAll_count text rfl rfl (by simpa [State.clearRun] using range)
  have cleared : perform .clear s = s.clearRun := perform_of_exec rfl
  have built := perform_of_exec (exec_build_next running phase)
  have walked := perform_of_exec (exec_walk_next
    (s := (text.foldl State.countSymbol s.clearRun).buildTree) running rfl)
  simp only [buildTableRun, performAll_append, performAll_cons, performAll_nil, cleared, counted, built,
    walked]

theorem buildTableRun_frame :
    (performAll (buildTableRun text) s).params = s.params ∧
    (performAll (buildTableRun text) s).encQ = s.encQ ∧
    (performAll (buildTableRun text) s).decQ = s.decQ := by
  have frame := foldl_countSymbol_frame text s.clearRun
  rw [performAll_buildTableRun range]
  exact ⟨(congrArg State.params frame :), (congrArg State.encQ frame :), (congrArg State.decQ frame :)⟩

/-- The table of the text's own counts has a codeword for each of its bytes (R98). -/
theorem tableReady_buildTableRun : TableReady text (performAll (buildTableRun text) s) := by
  have frame := foldl_countSymbol_frame text s.clearRun
  have counts : CountsAgree (text.foldl State.countSymbol s.clearRun) :=
    countsAgree_foldl text (countsAgree_clearRun s) (by simpa [State.clearRun, State.maxCount] using range)
  have table := tableAgrees_writeCodes (countsAndTreeAgree_buildTree counts) rfl
  rw [performAll_buildTableRun range]
  refine ⟨congrArg State.err frame, congrArg State.cand frame, congrArg State.candLen frame,
    table.prefixFree rfl, fun b mem => (table.present_iff rfl b).mpr ?present⟩
  case present =>
    have counted := foldl_countSymbol_freqOf text s.clearRun b
    have occurs := List.count_pos_iff.mpr mem
    change (text.foldl State.countSymbol s.clearRun).freqOf b ≠ 0
    omega

end

/-- A codeword has 255 digits at most (R81). -/
theorem length_flatMap_codeword_le (s : State) (text : List Byte) :
    (text.flatMap s.codeword).length ≤ 255 * text.length := by
  induction text with
  | nil => simp
  | cons b text ih =>
    have short := (s.lenOf b).isLt
    rw [List.flatMap_cons, List.length_append, codeword_length, List.length_cons]
    omega

/-- The stream of a text, decoded to its end, is the text; DECEND then has no candidate to end. -/
theorem performAll_decode_decend {t : State} {text : List Byte} (ready : TableReady text t)
    (room : t.decQ.length + text.length + 16 ≤ t.params.decQDepth) :
    performAll (decodeAll (text.flatMap t.codeword) ++ [.decend]) t =
      { t with decQ := t.decQ ++ text, decSyms := t.decSyms + BitVec.ofNat 32 text.length } := by
  obtain ⟨running, cand, empty, free, coded⟩ := ready
  rw [performAll_append, decodingReadsBackTheSymbols t text running (candidateFits_of_empty cand empty)
    empty free coded room, performAll_cons, performAll_nil]
  exact perform_of_exec ((decendEndsTheStream
    { t with decQ := t.decQ ++ text, decSyms := t.decSyms + BitVec.ofNat 32 text.length } running).1 empty)

/-- Settles O50: the encoded stream is the concatenation of the text's codewords, which leaves the table
ready, and decoding reads the text back. -/
theorem roundTripRestoresTheInput : Obligations.RoundTripRestoresTheInput := by
  intro s text range encQ decQ encRoom decRoom t u ht hu
  have ready := tableReady_buildTableRun range
  obtain ⟨params_v, encQ_v, decQ_v⟩ := buildTableRun_frame range
  rw [performAll_append] at ht
  generalize performAll (buildTableRun text) s = v at *
  have short := length_flatMap_codeword_le v text
  have encoded := encodedStreamIsTheConcatenation v text ready.running ready.coded (by
    rw [encQ_v, encQ, params_v, List.length_nil]; omega)
  rw [encodeAll, encoded, encQ_v, encQ, List.nil_append] at ht
  have ready_t : TableReady text t := by rw [ht]; exact { ready with }
  have stream : t.encQ = text.flatMap t.codeword := by rw [ht]; rfl
  have decQ_t : t.decQ = [] := by rw [ht]; exact decQ_v.trans decQ
  have params_t : t.params = s.params := by rw [ht]; exact params_v
  rw [stream, performAll_decode_decend ready_t (by rw [decQ_t, params_t, List.length_nil]; omega)] at hu
  rw [hu, decQ_t]
  exact ⟨ready_t.running, ready_t.running, rfl, ready_t.candLen⟩

end Sys2Proof.Machine

/-! ### Code-table access (R392, R394, R402) -/

namespace Sys2Proof.Machine

/-- Settles O52: LDLEN is a write to one length, and LDCHUNK a write of one chunk to one codeword
register. -/
theorem loadsWriteOneEntry : Obligations.LoadsWriteOneEntry := by
  intro b s running
  refine ⟨fun n => ⟨s.setLen b n, exec_ldlen_next running b n, ?length, fun c other => ?lengths, rfl⟩,
    fun k data => ⟨s.setCode b (setChunk (s.codeOf b) k data), exec_ldchunk_next running b k data,
      fun j hj => ?bits, fun c other => ?codes, rfl⟩⟩
  case length => rw [setLen_lenOf, if_pos rfl]
  case lengths => rw [setLen_lenOf, if_neg other]
  case bits => rw [setCode_codeOf, if_pos rfl, setChunk_getLsbD _ _ _ _ hj]
  case codes => rw [setCode_codeOf, if_neg other]

/-- The answer to RDCHUNK is zero above the chunk's sixteen bits (R402). -/
theorem readValue_rdchunk_getLsbD_of_ge (b : Byte) (k : BitVec 4) (s : State) {j : Nat} (hj : 16 ≤ j) :
    (readValue (.rdchunk b k) s).getLsbD j = false := by
  change ((chunkOf (s.codeOf b) k).setWidth 32).getLsbD j = false
  rw [BitVec.getLsbD_setWidth, BitVec.getLsbD_of_ge (chunkOf (s.codeOf b) k) j hj, Bool.and_false]

/-- Settles O53: RDCHUNK is a read, whose answer is the chunk with zeros above. -/
theorem rdchunkAnswersTheChunk : Obligations.RdchunkAnswersTheChunk := by
  intro b k s space
  exact ⟨readValue (.rdchunk b k) s, exec_read_next rfl space,
    fun _ below => readValue_rdchunk_getLsbD b k s below,
    fun _ above => readValue_rdchunk_getLsbD_of_ge b k s above⟩

end Sys2Proof.Machine

/-! ### Control (R420, R422, R426) -/

namespace Sys2Proof.Machine

theorem exec_nop_next (s : State) : exec .nop s = .next s := by rfl

theorem exec_clear_next (s : State) : exec .clear s = .next s.clearRun := by rfl

theorem exec_wrcfg_next {s : State} (running : s.err = none) (x : Bool) :
    exec (.wrcfg x) s = .next { s with laxEnd := x } :=
  congrArg Host.Outcome.next (unlessHalted_of_none running fun s => { s with laxEnd := x })

/-- Settles O56: NOP is executed halted or not, and WRCFG in a running block has its effect. -/
theorem nopAndWrcfgComplete : Obligations.NopAndWrcfgComplete := fun s =>
  ⟨exec_nop_next s, fun x running => exec_wrcfg_next running x⟩

/-! CLEAR and reset write the same three arrays (R422, R502). -/

@[simp] theorem State.clearRun_freqOf (s : State) (b : Byte) : s.clearRun.freqOf b = 0 :=
  resetWith_freqOf s.params b

@[simp] theorem State.clearRun_lenOf (s : State) (b : Byte) : s.clearRun.lenOf b = 0#8 :=
  resetWith_lenOf s.params b

@[simp] theorem State.clearRun_codeOf (s : State) (b : Byte) : s.clearRun.codeOf b = 0#256 :=
  resetWith_codeOf s.params b

/-- Settles O57: the three arrays by their entries, every other piece as `clearRun` writes or leaves
it. -/
theorem clearStartsANewRun : Obligations.ClearStartsANewRun := by
  intro s
  refine ⟨s.clearRun, exec_clear_next s, fun b => ?arrays, ?rest⟩
  case arrays => exact ⟨s.clearRun_freqOf b, s.clearRun_lenOf b, s.clearRun_codeOf b⟩
  case rest => and_intros <;> rfl

end Sys2Proof.Machine

/-! ### Errors and the halt (R451 to R470) -/

namespace Sys2Proof.Machine

/-- Settles O17: a step keeps the record, clears it, or writes a word beside a code that it raises. -/
theorem stepKeepsErrorRecordAgrees : Obligations.StepKeepsErrorRecordAgrees := fun _ _ agrees h =>
  step_keeps_errorRecordAgrees h agrees

/-! #### Errors of running commands (R451, R462, R465) -/

/-- A phase check that fails in a running block records SEQUENCE (R462). -/
theorem unlessHalted_sequence {s : State} {p : Phase} (running : s.err = none) (phase : s.phase ≠ p)
    (w : Word) (act : State → State) :
    (s.unlessHalted fun s => if s.phase ≠ p then s.raise .sequence 0#4 w else act s) =
      { s with err := some .sequence, errCmd := w, errInfo := 0#4 } := by
  rw [unlessHalted_of_none running, if_pos phase, raise_of_none running]

/-- The converse of the inversion `exec_effect`, for errors without an effect of their own. -/
theorem Raises.exec_next {i : Instr} {s : State} {code : ErrCode} (why : Raises i s code)
    (running : s.err = none) :
    exec i s = .next { s with err := some code, errCmd := encode i, errInfo := 0#4 } := by
  cases why with
  | countSequence phase | buildSequence phase | walkSequence phase =>
    exact congrArg _ (unlessHalted_sequence running phase _ _)
  | countOverflow phase full => rw [exec_count_overflow running _ phase full, raise_of_none running]
  | noCode uncoded => exact exec_encode_noCode running uncoded
  | truncated digits strict => exact (decendEndsTheStream s running).2.2 digits strict

/-- A command that records an error raises it at once, or is a DECODE whose digit `k` fails. -/
theorem Effect.raised_cases {i : Instr} {s t : State} {code : ErrCode} (h : Effect i s t)
    (running : s.err = none) (raised : t.err = some code) :
    (Raises i s code ∧ t = { s with err := some code, errCmd := encode i, errInfo := 0#4 }) ∨
    (∃ cnt data k u, i = .decode cnt data ∧ k ≤ cnt.toNat ∧
      DigitsTakeEffect ((digitsOf data (cnt.toNat + 1)).take k) s u ∧ u.err = none ∧
      u.feedDigit (data.getLsbD k) = .failed code ∧
      t = { u with err := some code, errCmd := encode i, errInfo := BitVec.ofNat 4 k }) := by
  have changed : t.err ≠ s.err := by simp [running, raised]
  cases h with
  | raises _ why =>
    obtain rfl := Option.some.inj raised
    exact .inl ⟨why, rfl⟩
  | decodeFails _ _ carried digits fails =>
    obtain rfl := Option.some.inj raised
    exact .inr ⟨_, _, _, _, rfl, carried, digits, by rw [digitsTakeEffect_frame digits]; exact running,
      fails, rfl⟩
  | decodes _ _ digits => exact absurd (by rw [digitsTakeEffect_frame digits]) changed
  | clear => cases raised
  | _ => exact absurd rfl changed

/-- Settles O21: the three phase checks are the only reasons to raise SEQUENCE, and a digit of DECODE
fails with other codes. -/
theorem phaseChecksRaiseSequence : Obligations.PhaseChecksRaiseSequence := by
  refine ⟨fun b s running phase => (Raises.countSequence phase).exec_next running,
    fun s running phase => (Raises.buildSequence phase).exec_next running,
    fun s running phase => (Raises.walkSequence phase).exec_next running,
    fun i s t running h raised => ?only⟩
  case only =>
    rcases (exec_effect h).raised_cases running raised with ⟨why, -⟩ | ⟨_, _, _, _, -, -, -, -, fails, -⟩
    · cases why with
      | countSequence phase => exact .inl ⟨⟨_, rfl⟩, phase⟩
      | buildSequence phase => exact .inr (.inl ⟨rfl, phase⟩)
      | walkSequence phase => exact .inr (.inr ⟨rfl, phase⟩)
    · rcases feedDigit_failed_code fails with code | code <;> cases code

/-- Settles O22: only DECODE raises an error after an effect, that of the digits before the failing
one. -/
theorem errorsArePrecise : Obligations.ErrorsArePrecise := by
  intro i s t code running h raised
  rcases (exec_effect h).raised_cases running raised with
    ⟨why, ht⟩ | ⟨cnt, data, k, u, rfl, carried, digits, running_u, -, ht⟩
  · refine ⟨fun _ => ht, ?_⟩
    rintro n d rfl
    cases why
  · refine ⟨fun other => absurd rfl (other cnt data), fun n d same => ?_⟩
    obtain ⟨rfl, rfl⟩ := Instr.decode.inj same
    exact ⟨k, u, carried, digits, running_u, ht⟩

/-! #### The halted block (R455 to R457, R461) -/

/-- A mutating command is discarded while the block is halted (R456). -/
theorem exec_of_halted {s : State} (halted : s.err ≠ none) {i : Instr} (mutating : isMutating i = true) :
    exec i s = .next s := by
  cases i with
  | nop | clear | rdreg | rdlen | rdchunk | rdfreq | rdnode => cases mutating
  | _ => exact congrArg _ (unlessHalted_of_some halted _)

/-- Settles O23: the halt filter discards commands and `raise` records no second error; a command that
holds raises no error, and the others leave the held word alone. -/
theorem haltedBlockDiscards : Obligations.HaltedBlockDiscards := by
  refine ⟨fun s halted => ⟨fun i => exec_of_halted halted, fun w noCommand => ?illegal⟩,
    fun i s t running h raised => ?held⟩
  case illegal =>
    cases decoded : decode w with
    | instr i => exact absurd decoded (noCommand i)
    | reject r => rw [execute_of_reject decoded, raise_of_some halted]
  case held =>
    rcases (exec_effect h).hold_cases with ⟨halted, -, -⟩ | ⟨-, -, rfl⟩ | ⟨-, held⟩
    · exact absurd running halted
    · exact absurd running raised
    · exact held

/-- STATUS is the only register that shows ERR (R54, R57). -/
theorem regWord_of_err {r : BitVec 4} (other : r ≠ 2#4) (s : State) (e : Option ErrCode) :
    State.regWord { s with err := e } r = s.regWord r := by
  unfold State.regWord
  split
  case h_3 status => exact absurd (BitVec.eq_of_toNat_eq status) other
  all_goals rfl

/-- Only RDREG of STATUS answers with ERR. -/
theorem readValue_of_err {i : Instr} (other : i ≠ .rdreg 2#4) (s : State) (e : Option ErrCode) :
    readValue i { s with err := e } = readValue i s := by
  cases i with
  | rdreg r => exact regWord_of_err (fun status => other (congrArg _ status)) s e
  | _ => rfl

/-- Settles O24: no halt filter stands before NOP, CLEAR and the reads, CLEAR writes the record anew,
and no answer but STATUS shows it. -/
theorem haltedBlockAnswersReads : Obligations.HaltedBlockAnswersReads := by
  intro s _
  refine ⟨exec_nop_next s, exec_nop_next _, ?clear, ⟨s.clearRun, exec_clear_next s, rfl⟩,
    fun i read space => ⟨readValue i s, exec_read_next read space, fun other => ?answer⟩,
    fun i read full => ?full⟩
  case clear => rw [exec_clear_next, exec_clear_next]; rfl
  case answer => rw [exec_read_next read (by exact space), readValue_of_err other]
  case full => rw [exec_read read, answer_of_full full]

/-- ERR, ERRCMD and ERRINFO are the same. -/
structure SameErrorRecord (s t : State) : Prop where
  err : t.err = s.err
  errCmd : t.errCmd = s.errCmd
  errInfo : t.errInfo = s.errInfo

theorem SameErrorRecord.trans {s t u : State} (h : SameErrorRecord s t) (h' : SameErrorRecord t u) :
    SameErrorRecord s u :=
  ⟨h'.err.trans h.err, h'.errCmd.trans h.errCmd, h'.errInfo.trans h.errInfo⟩

theorem OutsideOnly.sameErrorRecord {s t : State} (h : OutsideOnly s t) : SameErrorRecord s t := by
  rw [h.eq]
  exact ⟨rfl, rfl, rfl⟩

/-- While the block is halted, no command but CLEAR changes the error record. -/
theorem Effect.sameErrorRecord {i : Instr} {s t : State} (h : Effect i s t) (halted : s.err ≠ none) :
    SameErrorRecord s t ∨ i = .clear := by
  cases h with
  | discarded | holds | nop | reads => exact .inl ⟨rfl, rfl, rfl⟩
  | clear => exact .inr rfl
  | raises running | counts running | builds running | walks running | ends running | drops running
  | configures running | encodes running | loadsLen running | loadsChunk running | decodes running
  | decodeFails running => exact absurd running halted

/-- Settles O25: in a halted block only CLEAR and reset write the record, since no error is recorded
over another. -/
theorem errorRecordStaysUntilClearOrReset : Obligations.ErrorRecordStaysUntilClearOrReset := by
  intro s t halted h
  have stays : SameErrorRecord s t ∨ (∃ acts, s.hostActs = .assertReset :: acts) ∨
      RunsNext s (encode .clear) := by
    refine step_keeps (P := fun u => SameErrorRecord s u ∨ (∃ acts, s.hostActs = .assertReset :: acts) ∨
      RunsNext s (encode .clear)) h ?outside ?reset ?illegal ?command (.inl ⟨rfl, rfl, rfl⟩)
    case outside => exact fun u v h => Or.imp_left (·.trans h.sameErrorRecord)
    case reset => exact fun acts listed _ => .inr (.inl ⟨acts, listed⟩)
    case illegal =>
      refine fun u w _ _ => Or.imp_left fun same => ?_
      rwa [raise_of_some (same.err ▸ halted)]
    case command =>
      rintro i w u v runs decoded effect (same | done)
      · refine (effect.sameErrorRecord (same.err ▸ halted)).imp same.trans fun clear => .inr ?_
        rw [← clear, encode_of_decode decoded]; exact runs
      · exact .inr done
  exact stays.imp_left fun ⟨err, errCmd, errInfo⟩ => ⟨err, errCmd, errInfo⟩

/-! #### The fields of STATUS and `irq_err` (R57, R451, R470) -/

theorem ErrCode.bits_range (code : ErrCode) : 1 ≤ code.bits.toNat ∧ code.bits.toNat ≤ 7 := by
  cases code <;> decide

theorem Phase.bits_le (phase : Phase) : phase.bits.toNat ≤ 2 := by
  cases phase <;> decide

theorem errBits_le (s : State) : s.errBits.toNat ≤ 7 := by
  unfold State.errBits
  split
  · decide
  · next code _ => exact code.bits_range.2

/-- ERR reads 0 for no error alone: no error code is 0. -/
theorem errBits_ne_zero_iff (s : State) : s.errBits ≠ 0#4 ↔ s.err ≠ none := by
  unfold State.errBits
  split
  · next unrecorded => simp [unrecorded]
  · next code recorded =>
    have nonzero : code.bits ≠ 0#4 := fun zero => by simpa [zero] using code.bits_range.1
    simp [recorded, nonzero]

theorem irqErr_iff (s : State) : s.irqErr = true ↔ s.errBits ≠ 0#4 := bne_iff_ne

/-- Settles O59: `irq_err` compares ERR with 0, the value that no code has; the two tables are
evaluated. -/
theorem statusFieldsHaveTheirValues : Obligations.StatusFieldsHaveTheirValues :=
  ⟨fun s => ⟨irqErr_iff s, (irqErr_iff s).trans (errBits_ne_zero_iff s), halted_iff s, errBits_le s,
    s.phase.bits_le⟩, rfl, rfl⟩

end Sys2Proof.Machine

/-! ### Holds that last (R532) -/

namespace Sys2Proof.Machine

/-- The retry finds the room it found before, since neither need nor room looks at the held word: the
command holds again. -/
theorem step_of_lasting_hold {s : State} {i : Instr} (out : s.inReset = false)
    (held : s.held = some (encode i)) (unlisted : s.hostActs = [])
    (run : s.err = none ∨ isMutating i = false) (full : room i s < need i s) : step s = .next s := by
  have stillFull : room i { s with held := none, hostActs := [] } <
      need i { s with held := none, hostActs := [] } := by
    cases i <;> exact full
  calc step s
      = execute (encode i) { s with held := none, hostActs := [] } :=
        step_of_held (.inl ⟨unlisted, rfl⟩) out held
    _ = exec i { s with held := none, hostActs := [] } := execute_of_instr (decodeInvertsEncode i) _
    _ = .next { s with held := some (encode i), hostActs := [] } := exec_of_room_lt run stillFull
    _ = .next s := by rw [← held, ← unlisted]

/-- A state that its own step leaves as it is stays for any number of steps. -/
theorem run_of_fixed {core : Host.Core} {s : core.State} (fixed : core.step s = .next s) (k : Nat) :
    core.run k s = .next s := by
  induction k with
  | zero => rfl
  | succ k ih => simp only [Host.Core.run, fixed, ih]

/-- Settles O29: a hold that lacks space is a fixed point of the step, and a held word means busy and
not ready. -/
theorem aHoldWithoutPopsLastsForEver : Obligations.AHoldWithoutPopsLastsForEver :=
  fun s _ out held unlisted run full k =>
    ⟨run_of_fixed (core := Sys2Proof.core) (step_of_lasting_hold out held unlisted run full) k,
      by simp [State.busy, held], by simp [State.cmdReady, held]⟩

end Sys2Proof.Machine
